-- ==== Sys2Proof/Word.lean ====
section
/-! DEFINITION. The word types of the block (00_scope.md R8, R9): bytes, 64-bit registers, the sizes
of the address and length spaces, and the byte-order tag's two supported values. -/

namespace Sys2Proof

/-- A byte of shared memory (R9, R32). -/
abbrev Byte := BitVec 8

/-- A register value: every register of the block is 64 bits wide (R20). -/
abbrev Word := BitVec 64

/-- The number of addresses of shared memory, `2^ADDR_W` with `ADDR_W = 64` (R8, R32). -/
abbrev memSize : Nat := 2 ^ 64

/-- The first value a length register cannot hold, `2^LEN_W` with `LEN_W = 64` (R8, R110). -/
abbrev lenLimit : Nat := 2 ^ 64

/-- A byte order: "an enumerated tag, {big, little}" (R16, R130). -/
inductive ByteOrder where
  | big
  | little
  deriving DecidableEq, Repr, Inhabited

end Sys2Proof
end

