-- ==== Sys2Proof/Syntax.lean ====
section
/-! DEFINITION. The commands of the block, one constructor per row of spec/opcode_table.json
(30_encoding.md R71), each with the CMD fields its row names. Operands come from registers, not from
the command word (R70, R75). -/

namespace Sys2Proof

/-- The ALPHA field of the command word, bits [11:8] (R73). -/
inductive AlphaSel where
  /-- 0: the caller's table at ALPHA_ADDR -/
  | custom
  /-- 1 -/
  | b32Rfc4648
  /-- 2 -/
  | b32Hex
  /-- 3 -/
  | b32Crockford
  /-- 4 -/
  | b64Std
  /-- 5 -/
  | b64Url
  /-- 6 to 15: reserved -/
  | reserved (code : BitVec 4)
  deriving DecidableEq, Repr

/-- The BO field of the command word, bits [13:12] (R72). -/
inductive BoTag where
  /-- 0 -/
  | big
  /-- 1 -/
  | little
  /-- 2 and 3: no supported tag -/
  | unsupported (code : BitVec 2)
  deriving DecidableEq, Repr

/-- The 39 commands (R71). -/
inductive Instr where
  | nop
  | hexEnclen
  | hexEncode
  | hexValid
  | hexDeclen
  | hexDecode
  | hexDumplen
  | hexDump (useOff : Bool)
  | b32Enclen
  | b32Encode (alpha : AlphaSel)
  | b32Valid (alpha : AlphaSel)
  | b32Declen
  | b32Decode (alpha : AlphaSel)
  | b64Enclen
  | b64Encode (alpha : AlphaSel)
  | b64Valid (alpha : AlphaSel)
  | b64Declen
  | b64Decode (alpha : AlphaSel)
  | u8Cpsize
  | u8Enclen
  | u8Cpenc
  | u8Encode
  | u8Valid
  | u8Declen
  | u8Cpdec
  | u8Decode
  | u16Enclen
  | u16Cpenc
  | u16Encode
  | u16Valid
  | u16Declen
  | u16Cpdec
  | u16Decode
  | encU16 (bo : BoTag)
  | encU32 (bo : BoTag)
  | encU64 (bo : BoTag)
  | decU16 (bo : BoTag)
  | decU32 (bo : BoTag)
  | decU64 (bo : BoTag)
  deriving DecidableEq, Repr

end Sys2Proof
end

