-- ==== Sys2Proof/WellFormed.lean ====
section
/-! DEFINITION. Which terms of `Instr` some command word stands for: a reserved ALPHA holds a code of
6 to 15 and an unsupported BO a code of 2 or 3 (30_encoding.md R72, R73). -/

namespace Sys2Proof

/-- A reserved ALPHA code is none of the six assigned ones (R73). -/
def AlphaSel.wf : AlphaSel → Bool
  | .reserved code => decide (6 ≤ code.toNat)
  | .custom | .b32Rfc4648 | .b32Hex | .b32Crockford | .b64Std | .b64Url => true

/-- An unsupported BO code is neither 0 nor 1 (R72). -/
def BoTag.wf : BoTag → Bool
  | .unsupported code => decide (2 ≤ code.toNat)
  | .big | .little => true

/-- A command some command word stands for. -/
def Instr.wf : Instr → Bool
  | .b32Encode alpha => alpha.wf
  | .b32Valid alpha => alpha.wf
  | .b32Decode alpha => alpha.wf
  | .b64Encode alpha => alpha.wf
  | .b64Valid alpha => alpha.wf
  | .b64Decode alpha => alpha.wf
  | .encU16 bo => bo.wf
  | .encU32 bo => bo.wf
  | .encU64 bo => bo.wf
  | .decU16 bo => bo.wf
  | .decU32 bo => bo.wf
  | .decU64 bo => bo.wf
  | .hexDump _ => true
  | .nop | .hexEnclen | .hexEncode | .hexValid | .hexDeclen | .hexDecode | .hexDumplen => true
  | .b32Enclen | .b32Declen | .b64Enclen | .b64Declen => true
  | .u8Cpsize | .u8Enclen | .u8Cpenc | .u8Encode | .u8Valid | .u8Declen | .u8Cpdec | .u8Decode => true
  | .u16Enclen | .u16Cpenc | .u16Encode | .u16Valid | .u16Declen | .u16Cpdec | .u16Decode => true

end Sys2Proof
end

