-- ==== Sys2Proof/Decode.lean ====
section
/-! DEFINITION. Decoding and encoding the command word (30_encoding.md R70 to R81; 10_state.md R25).
The decoder is total: every 64-bit word selects exactly one behaviour (R81). It reads only bits
[14:0] (R70, R80); the encoder after it is written from the same tables. -/

namespace Sys2Proof

/-- What the decoder selects (R81): a command of the table, or the behaviour of a reserved opcode,
rejected by its opcode's value (R78). -/
inductive Decoded where
  | command (i : Instr)
  | reserved (op : BitVec 8)
  deriving DecidableEq, Repr

/-- The OP field, bits [7:0] (R71). -/
def opOf (w : Word) : BitVec 8 := w.extractLsb' 0 8

/-- The ALPHA field, bits [11:8] (R73). -/
def alphaOf (w : Word) : AlphaSel :=
  match (w.extractLsb' 8 4).toNat with
  | 0 => .custom
  | 1 => .b32Rfc4648
  | 2 => .b32Hex
  | 3 => .b32Crockford
  | 4 => .b64Std
  | 5 => .b64Url
  | _ => .reserved (w.extractLsb' 8 4)

/-- The BO field, bits [13:12] (R72). -/
def boOf (w : Word) : BoTag :=
  match (w.extractLsb' 12 2).toNat with
  | 0 => .big
  | 1 => .little
  | _ => .unsupported (w.extractLsb' 12 2)

/-- The USE_OFF field, bit [14] (R74). -/
def useOffOf (w : Word) : Bool := w.getLsbD 14

/-- The table of R71: the command of a word's OP, with the fields its row names. -/
def instrOf (w : Word) : Option Instr :=
  match (opOf w).toNat with
  | 0x00 => some .nop
  | 0x11 => some .hexEnclen
  | 0x13 => some .hexEncode
  | 0x18 => some .hexValid
  | 0x19 => some .hexDeclen
  | 0x1B => some .hexDecode
  | 0x1C => some .hexDumplen
  | 0x1D => some (.hexDump (useOffOf w))
  | 0x21 => some .b32Enclen
  | 0x23 => some (.b32Encode (alphaOf w))
  | 0x28 => some (.b32Valid (alphaOf w))
  | 0x29 => some .b32Declen
  | 0x2B => some (.b32Decode (alphaOf w))
  | 0x31 => some .b64Enclen
  | 0x33 => some (.b64Encode (alphaOf w))
  | 0x38 => some (.b64Valid (alphaOf w))
  | 0x39 => some .b64Declen
  | 0x3B => some (.b64Decode (alphaOf w))
  | 0x40 => some .u8Cpsize
  | 0x41 => some .u8Enclen
  | 0x42 => some .u8Cpenc
  | 0x43 => some .u8Encode
  | 0x48 => some .u8Valid
  | 0x49 => some .u8Declen
  | 0x4A => some .u8Cpdec
  | 0x4B => some .u8Decode
  | 0x51 => some .u16Enclen
  | 0x52 => some .u16Cpenc
  | 0x53 => some .u16Encode
  | 0x58 => some .u16Valid
  | 0x59 => some .u16Declen
  | 0x5A => some .u16Cpdec
  | 0x5B => some .u16Decode
  | 0x60 => some (.encU16 (boOf w))
  | 0x61 => some (.encU32 (boOf w))
  | 0x62 => some (.encU64 (boOf w))
  | 0x68 => some (.decU16 (boOf w))
  | 0x69 => some (.decU32 (boOf w))
  | 0x6A => some (.decU64 (boOf w))
  | _ => none

/-- The commands of the optional unit `hex_dump` (R10). -/
def Instr.needsHexDump : Instr → Bool
  | .hexDumplen => true
  | .hexDump _ => true
  | .b32Encode _ => false
  | .b32Valid _ => false
  | .b32Decode _ => false
  | .b64Encode _ => false
  | .b64Valid _ => false
  | .b64Decode _ => false
  | .encU16 _ => false
  | .encU32 _ => false
  | .encU64 _ => false
  | .decU16 _ => false
  | .decU32 _ => false
  | .decU64 _ => false
  | .nop | .hexEnclen | .hexEncode | .hexValid | .hexDeclen | .hexDecode | .b32Enclen
  | .b32Declen | .b64Enclen | .b64Declen | .u8Cpsize | .u8Enclen | .u8Cpenc | .u8Encode
  | .u8Valid | .u8Declen | .u8Cpdec | .u8Decode | .u16Enclen | .u16Cpenc | .u16Encode
  | .u16Valid | .u16Declen | .u16Cpdec | .u16Decode => false

/-- The decoding procedure of R81; `hasHexDump` is the parameter `HAS_HEXDUMP` (R10, R78). -/
def decode (hasHexDump : Bool) (w : Word) : Decoded :=
  match instrOf w with
  | none => .reserved (opOf w)
  | some i => if i.needsHexDump && !hasHexDump then .reserved (opOf w) else .command i

/-- The instruction the decoder reads from the low `nbits` bits `w` of a command word whose other
bits are 0. The table lists the optional unit's rows, so the unit is taken as present
(notes/assumptions/17.md). -/
def decodeTableWord (nbits w : Nat) : Option Instr :=
  match decode true (BitVec.ofNat 64 (w % 2 ^ nbits)) with
  | .command i => some i
  | .reserved _ => none

/-- The OP value of a command (R71). -/
def Instr.opcode : Instr → BitVec 8
  | .nop => 0x00#8
  | .hexEnclen => 0x11#8
  | .hexEncode => 0x13#8
  | .hexValid => 0x18#8
  | .hexDeclen => 0x19#8
  | .hexDecode => 0x1B#8
  | .hexDumplen => 0x1C#8
  | .hexDump _ => 0x1D#8
  | .b32Enclen => 0x21#8
  | .b32Encode _ => 0x23#8
  | .b32Valid _ => 0x28#8
  | .b32Declen => 0x29#8
  | .b32Decode _ => 0x2B#8
  | .b64Enclen => 0x31#8
  | .b64Encode _ => 0x33#8
  | .b64Valid _ => 0x38#8
  | .b64Declen => 0x39#8
  | .b64Decode _ => 0x3B#8
  | .u8Cpsize => 0x40#8
  | .u8Enclen => 0x41#8
  | .u8Cpenc => 0x42#8
  | .u8Encode => 0x43#8
  | .u8Valid => 0x48#8
  | .u8Declen => 0x49#8
  | .u8Cpdec => 0x4A#8
  | .u8Decode => 0x4B#8
  | .u16Enclen => 0x51#8
  | .u16Cpenc => 0x52#8
  | .u16Encode => 0x53#8
  | .u16Valid => 0x58#8
  | .u16Declen => 0x59#8
  | .u16Cpdec => 0x5A#8
  | .u16Decode => 0x5B#8
  | .encU16 _ => 0x60#8
  | .encU32 _ => 0x61#8
  | .encU64 _ => 0x62#8
  | .decU16 _ => 0x68#8
  | .decU32 _ => 0x69#8
  | .decU64 _ => 0x6A#8

/-- The ALPHA code of a selector (R73). -/
def AlphaSel.code : AlphaSel → BitVec 4
  | .custom => 0#4
  | .b32Rfc4648 => 1#4
  | .b32Hex => 2#4
  | .b32Crockford => 3#4
  | .b64Std => 4#4
  | .b64Url => 5#4
  | .reserved code => code

/-- The BO code of a tag (R72). -/
def BoTag.code : BoTag → BitVec 2
  | .big => 0#2
  | .little => 1#2
  | .unsupported code => code

/-- The ALPHA field the encoder sets; 0 where the command's row has no such field. -/
def Instr.alphaField : Instr → BitVec 4
  | .b32Encode alpha => alpha.code
  | .b32Valid alpha => alpha.code
  | .b32Decode alpha => alpha.code
  | .b64Encode alpha => alpha.code
  | .b64Valid alpha => alpha.code
  | .b64Decode alpha => alpha.code
  | .hexDump _ => 0#4
  | .encU16 _ => 0#4
  | .encU32 _ => 0#4
  | .encU64 _ => 0#4
  | .decU16 _ => 0#4
  | .decU32 _ => 0#4
  | .decU64 _ => 0#4
  | .nop | .hexEnclen | .hexEncode | .hexValid | .hexDeclen | .hexDecode | .hexDumplen
  | .b32Enclen | .b32Declen | .b64Enclen | .b64Declen | .u8Cpsize | .u8Enclen | .u8Cpenc
  | .u8Encode | .u8Valid | .u8Declen | .u8Cpdec | .u8Decode | .u16Enclen | .u16Cpenc
  | .u16Encode | .u16Valid | .u16Declen | .u16Cpdec | .u16Decode => 0#4

/-- The BO field the encoder sets; 0 where the command's row has no such field. -/
def Instr.boField : Instr → BitVec 2
  | .encU16 bo => bo.code
  | .encU32 bo => bo.code
  | .encU64 bo => bo.code
  | .decU16 bo => bo.code
  | .decU32 bo => bo.code
  | .decU64 bo => bo.code
  | .hexDump _ => 0#2
  | .b32Encode _ => 0#2
  | .b32Valid _ => 0#2
  | .b32Decode _ => 0#2
  | .b64Encode _ => 0#2
  | .b64Valid _ => 0#2
  | .b64Decode _ => 0#2
  | .nop | .hexEnclen | .hexEncode | .hexValid | .hexDeclen | .hexDecode | .hexDumplen
  | .b32Enclen | .b32Declen | .b64Enclen | .b64Declen | .u8Cpsize | .u8Enclen | .u8Cpenc
  | .u8Encode | .u8Valid | .u8Declen | .u8Cpdec | .u8Decode | .u16Enclen | .u16Cpenc
  | .u16Encode | .u16Valid | .u16Declen | .u16Cpdec | .u16Decode => 0#2

/-- The USE_OFF bit the encoder sets; false where the command's row has no such field. -/
def Instr.useOffField : Instr → Bool
  | .hexDump useOff => useOff
  | .b32Encode _ => false
  | .b32Valid _ => false
  | .b32Decode _ => false
  | .b64Encode _ => false
  | .b64Valid _ => false
  | .b64Decode _ => false
  | .encU16 _ => false
  | .encU32 _ => false
  | .encU64 _ => false
  | .decU16 _ => false
  | .decU32 _ => false
  | .decU64 _ => false
  | .nop | .hexEnclen | .hexEncode | .hexValid | .hexDeclen | .hexDecode | .hexDumplen
  | .b32Enclen | .b32Declen | .b64Enclen | .b64Declen | .u8Cpsize | .u8Enclen | .u8Cpenc
  | .u8Encode | .u8Valid | .u8Declen | .u8Cpdec | .u8Decode | .u16Enclen | .u16Cpenc
  | .u16Encode | .u16Valid | .u16Declen | .u16Cpdec | .u16Decode => false

/-- The command word `(alpha << 8) | (bo << 12) | (use_off << 14) | OP` (R82). -/
def encode (i : Instr) : Word :=
  (0#49 ++ BitVec.ofBool i.useOffField ++ i.boField ++ i.alphaField ++ i.opcode : BitVec (49 + 1 + 2 + 4 + 8))

end Sys2Proof
end

