-- ==== Sys2Proof/Config.lean ====
section
/-! DEFINITION. What an implementation or its platform fixes (00_scope.md R8; 20_memory.md R50, R62, R63),
and the free values of the model. The machine's parameters stand in `State.cfg`, so that a claim
about every state is a claim about every parameter value; `Config.params` has no body, so no value
of a parameter can be proved of the reset state (notes/assumptions/2.md). -/

namespace Sys2Proof

/-- `HEX_CASE`, the letter case of the digits HEX_ENCODE writes (R8, R150). -/
inductive HexCase where
  | lower
  | upper
  deriving DecidableEq, Repr, Inhabited

/-- How a part of the address space differs from ordinary memory (R62, R63). -/
inductive RegionKind where
  /-- memory with side effects on read or write (R57, R62) -/
  | sideEffecting
  /-- addresses the platform cannot serve (R63) -/
  | unserved
  deriving DecidableEq, Repr, Inhabited

/-- `size` addresses from `base` that are not ordinary memory. -/
structure Region where
  base : Nat
  size : Nat
  kind : RegionKind
  deriving DecidableEq, Repr, Inhabited

/-- The OPEN parameters of R8 and R50 (93 U17) and the platform's memory map (R62, R63). -/
structure Params where
  /-- `REG_BASE`: where the 256-byte register window starts in the host's map (R50, R61; log 16) -/
  regBase : Word
  /-- `NATIVE_ORDER`: the byte order of unit16 and cp32 elements in memory (R55) -/
  nativeOrder : ByteOrder
  /-- `HEX_CASE` (R150) -/
  hexCase : HexCase
  /-- `HAS_HEXDUMP`: whether the optional unit exists (R10) -/
  hasHexDump : Bool
  /-- the parts of the address space that are not ordinary memory; all other addresses are -/
  regions : List Region
  deriving DecidableEq, Repr, Inhabited

/-- DESIGN CHOICE (log 2, safe): the parameters of the machine that is reset. No value is chosen. -/
opaque Config.params : Params

/-- The draw of HEX_DECLEN with odd n (R156; 93 U2): a free value, one for each index (log 3, safe). -/
opaque Config.draw : Nat → Word

/-- The draws of the destination bytes of a command cut by reset (R352; 93 U10; log 4, safe). -/
opaque Config.drawByte : Nat → Byte

end Sys2Proof
end

