-- ==== Sys2Proof/Machine/State.lean ====
section
/-! DEFINITION. The state of the block (10_state.md), as plain data, with the reasons a step can stop
and the state after reset (70_reset_and_hazards.md R350). -/

namespace Sys2Proof.Machine

/-- Shared memory M (R32): the bytes that differ from what an unlisted address reads as, by rising
address. `Memory.wf` (Machine/Ops.lean) states the canonical form. -/
abbrev Memory := List Host.Cell

/-- What an address that no entry lists reads as. DESIGN CHOICE (log 1, unsafe): the spec gives memory
no contents at reset (R36; 93 U9). -/
def Memory.unlisted : Byte := 0#8

/-- The status kinds of the ErrorModel (R14, R28). Codes 5 to 7 are never produced and have no
constructor. -/
inductive Status where
  | ok
  | invalidNullPointer
  | invalidArgument
  | bufferTooSmall
  /-- "reserved for future argument-shape checks"; no command produces it (R28) -/
  | notPowerOfTwo
  deriving DecidableEq, Repr

/-- The seven operand registers (R20, R21). -/
structure OpRegs where
  srcAddr : Word
  srcLen : Word
  dstAddr : Word
  dstLen : Word
  alphaAddr : Word
  arg : Word
  offset : Word
  deriving DecidableEq, Repr

/-- The snapshot an accepted CMD write takes (R26): the word's bits [14:0] and the operand registers. -/
structure Snapshot where
  word : Word
  regs : OpRegs
  deriving DecidableEq, Repr

/-- What the outside world does next (R320): one host access of one register or one byte of memory, a
WAIT (R83, R321), the platform's reset signal (R351); `engine` hands the next move to the engine, so
that every interleaving of R320 is some list of these (log 5). -/
inductive HostStep where
  /-- a write of `value`, `width` bytes wide, at the address `addr` of the host's map, where the register
  window stands at REG_BASE (R50) -/
  | regWrite (addr : Word) (width : Nat) (value : Word)
  /-- a read of `width` bytes at the address `addr` of the host's map (R50) -/
  | regRead (addr : Word) (width : Nat)
  /-- a write of one byte of shared memory (log 8) -/
  | memWrite (addr : Word) (value : Byte)
  /-- a read of one byte of shared memory (log 8) -/
  | memRead (addr : Word)
  /-- read STATUS until BUSY = 0 (R83) -/
  | wait
  /-- the engine moves next, if it is enabled (R101) -/
  | engine
  /-- the platform's reset signal (R351, R352) -/
  | reset
  deriving DecidableEq, Repr

/-- The model faults of R326, and two host accesses that are none of the block's. Each is safe: no claim about a next state
can be proved of a step that ends in one. -/
inductive Fault where
  /-- raised by HEX_DECODE, B32_DECODE and B64_DECODE on input outside their domain (R114); safe: the
  hardware goes on with unspecified bytes inside the write bound -/
  | undefinedInput
  /-- raised by a host access of a byte in a buffer of the pending command (R68); safe: the hardware
  returns or uses old or new bytes -/
  | hostBufferRace
  /-- raised by a host register access that is not a naturally aligned 64-bit access (R50); safe: the
  hardware's behaviour is unspecified -/
  | unsupportedHostAccess
  /-- raised by a host memory access of an address the platform cannot serve (R63; log 13); safe: the spec
  gives the access no effect. A command that reaches such an address raises nothing: it is stuck (R327) -/
  | unservedAddress
  /-- raised by a host register access whose address lies outside the window at REG_BASE (R50, R61; log 16);
  safe: no such access reaches the block -/
  | outsideWindow
  deriving DecidableEq, Repr

/-- Why a step has no meaning in this model. -/
inductive Refusal where
  /-- raised by `exec` for an instruction without a meaning, by name; safe -/
  | notModelled (mnemonic : String)
  /-- raised by the engine for a command whose buffer reaches memory with side effects, and by a host
  access of such memory: the launch the spec does not admit (R62, R327); safe -/
  | sideEffectingMemory
  deriving DecidableEq, Repr

/-- The state of the block. `STATUS.BUSY` is 1 exactly when `pending` is not empty (R33), so it has no
field of its own (log 9). -/
structure State where
  /-- CMD (R25): the fields of the last accepted word -/
  cmd : Word
  /-- the operand registers (R20, R21) -/
  regs : OpRegs
  /-- RESULT (R22) -/
  result : Word
  /-- RESULT2 (R22) -/
  result2 : Word
  /-- STATUS.OVR (R27, R29) -/
  ovr : Bool
  /-- STATUS.ERR (R27, R28) -/
  err : Status
  /-- the hidden state `pending` (R33) -/
  pending : Option Snapshot
  /-- shared memory M (R32) -/
  mem : Memory
  /-- the model's own: the parameters of R8 and R50 and the memory map of R62, R63; no step writes it
  (log 2) -/
  cfg : Params
  /-- the model's own: the index of the next free value (log 3) -/
  draws : Nat
  /-- the model's own: what the outside world does next (log 5) -/
  host : List HostStep
  /-- the model's own: the value the host's last recorded read returned (logs 6 and 7) -/
  rdata : Word
  deriving DecidableEq, Repr

/-- Every operand register at its reset value (R350). -/
def OpRegs.reset : OpRegs :=
  { srcAddr := 0#64, srcLen := 0#64, dstAddr := 0#64, dstLen := 0#64, alphaAddr := 0#64, arg := 0#64,
    offset := 0#64 }

/-- The state right after reset of a block with parameters `cfg` (R36, R350). Memory lists nothing, the
free values are unused, the outside world has nothing planned (logs 1, 3, 5, 7). -/
def State.resetWith (cfg : Params) : State :=
  { cmd := 0#64, regs := OpRegs.reset, result := 0#64, result2 := 0#64, ovr := false, err := .ok,
    pending := none, mem := [], cfg := cfg, draws := 0, host := [], rdata := 0#64 }

/-- The machine right after reset (R350), with parameters nothing is known of (log 2). -/
def State.reset : State := State.resetWith Config.params

/-- The outcome of a step of this machine. -/
abbrev Result := Host.Outcome State Fault Refusal

end Sys2Proof.Machine
end

