-- ==== Sys2Proof/Machine/Ops.lean ====
section
/-! DEFINITION. The named operations over memory and registers that every command shares: bytes of
memory, buffers and the checks of 40_common.md R106 to R111, `finish` and `fail` (R104, R112), and the
reading and writing of the register window (10_state.md R20 to R29). -/

namespace Sys2Proof.Machine

/-! ### Memory (R32, R52) -/

/-- The canonical form, above address `lo`: strictly rising addresses of the address space, and no
entry equal to what an unlisted address reads as. -/
def Memory.wfFrom : Nat → Memory → Bool
  | _, [] => true
  | lo, (a, v) :: rest =>
    decide (lo ≤ a) && decide (a < memSize) && decide (v ≠ Memory.unlisted) && Memory.wfFrom (a + 1) rest

/-- The canonical form of a memory: equal memories are equal lists. -/
def Memory.wf (m : Memory) : Bool := Memory.wfFrom 0 m

/-- `M[a]` (R13). -/
def Memory.read : Memory → Nat → Byte
  | [], _ => Memory.unlisted
  | (b, v) :: rest, a => if b = a then v else Memory.read rest a

/-- The list with `a` holding `v`, in canonical form. -/
def Memory.insert : Memory → Nat → Byte → Memory
  | [], a, v => if v = Memory.unlisted then [] else [(a, v)]
  | (b, w) :: rest, a, v =>
    if a < b then
      if v = Memory.unlisted then (b, w) :: rest else (a, v) :: (b, w) :: rest
    else if a = b then
      if v = Memory.unlisted then rest else (a, v) :: rest
    else (b, w) :: Memory.insert rest a v

/-- `M[a] <- v`; there is no byte outside the address space (R32). -/
def Memory.write (m : Memory) (a : Nat) (v : Byte) : Memory :=
  if a < memSize then Memory.insert m a v else m

/-- `MemRead(a, n)` (R13): increasing address order (R52). -/
def Memory.readBytes (m : Memory) (a : Nat) : Nat → List Byte
  | 0 => []
  | n + 1 => m.read a :: Memory.readBytes m (a + 1) n

/-- `MemWrite(a, len(bs), bs)` (R13). -/
def Memory.writeBytes (m : Memory) (a : Nat) : List Byte → Memory
  | [] => m
  | b :: bs => Memory.writeBytes (m.write a b) (a + 1) bs

/-! ### Buffers and checks -/

/-- The bytes `[addr, addr + size)` (R31). -/
structure Buf where
  addr : Nat
  size : Nat
  deriving DecidableEq, Repr

/-- Byte `a` lies in the buffer. -/
def Buf.has (b : Buf) (a : Nat) : Bool := decide (b.addr ≤ a) && decide (a < b.addr + b.size)

/-- The null check fails: address 0 with a nonzero length (R107). -/
def Buf.isNull (b : Buf) : Bool := decide (0 < b.size) && decide (b.addr = 0)

/-- The range check fails: a nonempty buffer that does not fit in memory (R108). -/
def Buf.outOfRange (b : Buf) : Bool := decide (0 < b.size) && decide (memSize < b.addr + b.size)

/-- Two nonempty buffers share a byte (R109). -/
def Buf.overlaps (b c : Buf) : Bool :=
  decide (0 < b.size) && decide (0 < c.size) && decide (b.addr < c.addr + c.size) &&
    decide (c.addr < b.addr + b.size)

/-- The first check that fails decides the status (R106): each entry says whether its check fails and
with which status. -/
def firstFailure : List (Bool × Status) → Option Status
  | [] => none
  | (failed, st) :: rest => if failed then some st else firstFailure rest

/-- Phase 1: InvalidNullPointer (R107). -/
def nullCheck (b : Buf) : Bool × Status := (b.isNull, .invalidNullPointer)

/-- Phase 2 (c): the buffer fits in memory (R108). -/
def rangeCheck (b : Buf) : Bool × Status := (b.outOfRange, .invalidArgument)

/-- Phase 2 (d): the destination shares no byte with another buffer (R109). -/
def overlapCheck (dst other : Buf) : Bool × Status := (dst.overlaps other, .invalidArgument)

/-- Phases 2 (a), (b) and (e): the argument has the wrong shape if `bad`. -/
def argumentCheck (bad : Bool) : Bool × Status := (bad, .invalidArgument)

/-- Phase 2 (f): a computed length does not fit in a length register (R110). -/
def overflowCheck (length : Nat) : Bool × Status := (decide (lenLimit ≤ length), .invalidArgument)

/-- Phase 3: `need` elements do not fit in a capacity of `capacity` (R111). -/
def capacityCheck (capacity need : Nat) : Bool × Status := (decide (capacity < need), .bufferTooSmall)

/-! ### Finishing a command -/

/-- `finish(st, r, r2)` (R104): one update; OVR, CMD and the operand registers are not changed. -/
def State.finish (s : State) (st : Status) (r r2 : Nat) : State :=
  { s with result := BitVec.ofNat 64 r, result2 := BitVec.ofNat 64 r2, err := st, pending := none }

/-- `fail(st)` (R112), the block's only exception entry (R323, R328): every command but the two
code-point decodes. -/
def State.fail (s : State) (st : Status) : State := s.finish st 0 0

/-- `fail(st)` of U8_CPDEC and U16_CPDEC (R112): the replacement code point is reported. -/
def State.failReplacement (s : State) (st : Status) : State := s.finish st 0xFFFD 0

/-- A command with its checks (R106): the first failing check ends it, else it executes. -/
def checked (onFail : Status → State) (checks : List (Bool × Status))
    (execution : Result) : Result :=
  match firstFailure checks with
  | some st => .next (onFail st)
  | none => execution

/-- The state with `bs` written at `a` (R13 `MemWrite`). -/
def State.putBytes (s : State) (a : Nat) (bs : List Byte) : State :=
  { s with mem := s.mem.writeBytes a bs }

/-- `R[OFFSET] <- v` (R306). -/
def State.setOffset (s : State) (v : Nat) : State :=
  { s with regs := { s.regs with offset := BitVec.ofNat 64 v } }

/-- `count` free values are used up. -/
def State.useDraws (s : State) (count : Nat) : State := { s with draws := s.draws + count }

/-- The reserved opcode's behaviour (R121): no operand is read, no memory touched. -/
def State.reservedOpcode (s : State) : State := s.fail .invalidArgument

/-! ### The register window (R20, R50) -/

/-- The registers of R20. -/
inductive Reg where
  | cmd
  | status
  | srcAddr
  | srcLen
  | dstAddr
  | dstLen
  | alphaAddr
  | arg
  | offset
  | result
  | result2
  deriving DecidableEq, Repr

/-- The register at an offset; none at the reserved offsets 0x58 to 0xFF (R20). -/
def regAt (off : BitVec 8) : Option Reg :=
  match off.toNat with
  | 0x00 => some .cmd
  | 0x08 => some .status
  | 0x10 => some .srcAddr
  | 0x18 => some .srcLen
  | 0x20 => some .dstAddr
  | 0x28 => some .dstLen
  | 0x30 => some .alphaAddr
  | 0x38 => some .arg
  | 0x40 => some .offset
  | 0x48 => some .result
  | 0x50 => some .result2
  | _ => none

/-- STATUS.BUSY (R33). -/
def State.busy (s : State) : Bool := s.pending.isSome

/-- The bits of a command word that CMD keeps (R25, R26). -/
def cmdMask : Word := 0x7FFF#64

/-- The snapshot of `w` and the operand registers (R26). -/
def State.snapshotOf (s : State) (w : Word) : Snapshot := { word := w &&& cmdMask, regs := s.regs }

/-- An accepted CMD write (R26). -/
def State.accept (s : State) (w : Word) : State :=
  { s with cmd := w &&& cmdMask, ovr := false, pending := some (s.snapshotOf w) }

/-- A CMD write: accepted while BUSY = 0 (R26), else it only sets OVR (R29). -/
def State.writeCmd (s : State) (w : Word) : State :=
  if s.busy then { s with ovr := true } else s.accept w

/-- A write of an operand register: ignored while BUSY = 1 (R21). -/
def State.writeOperand (s : State) (regs : OpRegs) : State :=
  if s.busy then s else { s with regs := regs }

/-- A host write of a register (R20 to R22, R25 to R27, R29); writes of read-only registers and of
reserved offsets are ignored. -/
def State.writeReg (s : State) (r : Option Reg) (v : Word) : State :=
  match r with
  | some .cmd => s.writeCmd v
  | some .srcAddr => s.writeOperand { s.regs with srcAddr := v }
  | some .srcLen => s.writeOperand { s.regs with srcLen := v }
  | some .dstAddr => s.writeOperand { s.regs with dstAddr := v }
  | some .dstLen => s.writeOperand { s.regs with dstLen := v }
  | some .alphaAddr => s.writeOperand { s.regs with alphaAddr := v }
  | some .arg => s.writeOperand { s.regs with arg := v }
  | some .offset => s.writeOperand { s.regs with offset := v }
  | some .status => s
  | some .result => s
  | some .result2 => s
  | none => s

end Sys2Proof.Machine
end

