-- ==== Sys2Proof/Machine/Operands.lean ====
section
/-! DEFINITION. The operand forms of 30_encoding.md R75, R76: the snapshot's registers as buffers and
scalars, elements in memory (10_state.md R30, 20_memory.md R55), byte orders (41_endian.md R130), and
which buffers each command has. -/

namespace Sys2Proof.Machine

/-! ### Numbers and bytes -/

/-- The field `v[hi:lo]` (R11). -/
def bits (v hi lo : Nat) : Nat := v / 2 ^ lo % 2 ^ (hi + 1 - lo)

/-- `bytes_little(v, n)` (R130). -/
def toBytesLittle : Nat → Nat → List Byte
  | 0, _ => []
  | n + 1, v => BitVec.ofNat 8 v :: toBytesLittle n (v / 256)

/-- `val_little(bs)` (R130). -/
def ofBytesLittle : List Byte → Nat
  | [] => 0
  | b :: bs => b.toNat + 256 * ofBytesLittle bs

/-- The `n` bytes of `v` in a byte order, lowest address first (R53, R55, R130). -/
def toBytes (order : ByteOrder) (n v : Nat) : List Byte :=
  match order with
  | .little => toBytesLittle n v
  | .big => (toBytesLittle n v).reverse

/-- The value of bytes in a byte order (R55, R130). -/
def ofBytes (order : ByteOrder) (bs : List Byte) : Nat :=
  match order with
  | .little => ofBytesLittle bs
  | .big => ofBytesLittle bs.reverse

/-- The list cut into pieces of `n`, the last one possibly shorter; `fuel` bounds their number. -/
def chunksUpTo {α : Type} (n : Nat) : Nat → List α → List (List α)
  | 0, _ => []
  | _ + 1, [] => []
  | fuel + 1, x :: xs => (x :: xs).take n :: chunksUpTo n fuel ((x :: xs).drop n)

/-- The list cut into pieces of `n > 0`, the last one possibly shorter. -/
def chunks {α : Type} (n : Nat) (xs : List α) : List (List α) := chunksUpTo n xs.length xs

/-- `k`-bit digits put together, the first the most significant (R176, R205). -/
def ofDigits (k : Nat) : List Nat → Nat := List.foldl (fun acc v => acc * 2 ^ k + v) 0

/-- The values of all symbols of a text, none if one of them has no value. -/
def valuesOf (value : Byte → Option Nat) : List Byte → Option (List Nat)
  | [] => some []
  | c :: cs =>
    match value c, valuesOf value cs with
    | some v, some vs => some (v :: vs)
    | _, _ => none

/-! ### Operands of the running command (R75) -/

/-- The snapshot a command takes its operands from (R75, R103). DESIGN CHOICE (log 10, safe): with no
command pending, which no step of the machine reaches, the registers' own values. -/
def State.snap (s : State) : Snapshot := s.pending.getD { word := s.cmd, regs := s.regs }

/-- The source buffer, `esz` bytes an element (R31). -/
def Snapshot.src (p : Snapshot) (esz : Nat) : Buf :=
  { addr := p.regs.srcAddr.toNat, size := p.regs.srcLen.toNat * esz }

/-- The destination buffer, `esz` bytes an element (R31). -/
def Snapshot.dst (p : Snapshot) (esz : Nat) : Buf :=
  { addr := p.regs.dstAddr.toNat, size := p.regs.dstLen.toNat * esz }

/-- The length operand `n` (R76). -/
def Snapshot.n (p : Snapshot) : Nat := p.regs.srcLen.toNat

/-- The capacity of the destination in elements. -/
def Snapshot.capacity (p : Snapshot) : Nat := p.regs.dstLen.toNat

/-- `ARG[31:0]` (R76). -/
def Snapshot.arg32 (p : Snapshot) : Nat := bits p.regs.arg.toNat 31 0

/-- The alphabet a command uses: the caller's table, and only when there is input (R107). -/
def Snapshot.alphabet (p : Snapshot) (alpha : AlphaSel) (size : Nat) : Buf :=
  { addr := p.regs.alphaAddr.toNat, size := if alpha = .custom ∧ 0 < p.n then size else 0 }

/-- The source bytes of the running command (R52, R58). -/
def State.srcBytes (s : State) : List Byte := s.mem.readBytes s.snap.regs.srcAddr.toNat s.snap.n

/-- `ReadElems(a, cnt, esz)` (R13, R55). -/
def State.readElems (s : State) (a cnt esz : Nat) : List Nat :=
  (List.range cnt).map fun k => ofBytes s.cfg.nativeOrder (s.mem.readBytes (a + k * esz) esz)

/-- The source elements of the running command, `esz` bytes each (R30, R55). -/
def State.srcElems (s : State) (esz : Nat) : List Nat :=
  s.readElems s.snap.regs.srcAddr.toNat s.snap.n esz

/-- The bytes `WriteElems` stores for the values `vs` (R13, R55). -/
def elemBytes (order : ByteOrder) (esz : Nat) (vs : List Nat) : List Byte :=
  vs.flatMap (toBytes order esz)

/-- `MemWrite` at the destination of the running command. -/
def State.putDst (s : State) (bs : List Byte) : State := s.putBytes s.snap.regs.dstAddr.toNat bs

/-- `WriteElems` at the destination of the running command (R13, R55). -/
def State.putElems (s : State) (esz : Nat) (vs : List Nat) : State :=
  s.putDst (elemBytes s.cfg.nativeOrder esz vs)

/-! ### The buffers of each command (R76) -/

/-- Bytes in a source element; 0 for a command that reads no source buffer, the "len only" ones among them (R76). -/
def srcSize : Instr → Nat
  | .hexEncode | .hexValid | .hexDecode | .hexDump _ | .b32Encode _ | .b32Valid _ | .b32Declen
  | .b32Decode _ | .b64Encode _ | .b64Valid _ | .b64Declen | .b64Decode _ | .u8Valid
  | .u8Declen | .u8Cpdec | .u8Decode | .decU16 _ | .decU32 _ | .decU64 _ => 1
  | .u16Valid | .u16Declen | .u16Cpdec | .u16Decode => 2
  | .u8Enclen | .u8Encode | .u16Enclen | .u16Encode => 4
  | .nop | .hexEnclen | .hexDeclen | .hexDumplen | .b32Enclen | .b64Enclen | .u8Cpsize
  | .u8Cpenc | .u16Cpenc | .encU16 _ | .encU32 _ | .encU64 _ => 0

/-- Bytes in a destination element; 0 for a command without a destination (R76). -/
def dstSize : Instr → Nat
  | .hexEncode | .hexDecode | .hexDump _ | .b32Encode _ | .b32Decode _ | .b64Encode _
  | .b64Decode _ | .u8Cpenc | .u8Encode | .encU16 _ | .encU32 _ | .encU64 _ => 1
  | .u16Cpenc | .u16Encode => 2
  | .u8Decode | .u16Decode => 4
  | .nop | .hexEnclen | .hexValid | .hexDeclen | .hexDumplen | .b32Enclen | .b32Valid _
  | .b32Declen | .b64Enclen | .b64Valid _ | .b64Declen | .u8Cpsize | .u8Enclen | .u8Valid
  | .u8Declen | .u8Cpdec | .u16Enclen | .u16Valid | .u16Declen | .u16Cpdec | .decU16 _
  | .decU32 _ | .decU64 _ => 0

/-- Bytes in the caller's alphabet; 0 for a command that takes none (R73, R76). -/
def alphaSize : Instr → Nat
  | .b32Encode _ | .b32Valid _ | .b32Decode _ => 32
  | .b64Encode _ | .b64Valid _ | .b64Decode _ => 64
  | .nop | .hexEnclen | .hexEncode | .hexValid | .hexDeclen | .hexDecode | .hexDumplen
  | .hexDump _ | .b32Enclen | .b32Declen | .b64Enclen | .b64Declen | .u8Cpsize | .u8Enclen
  | .u8Cpenc | .u8Encode | .u8Valid | .u8Declen | .u8Cpdec | .u8Decode | .u16Enclen | .u16Cpenc
  | .u16Encode | .u16Valid | .u16Declen | .u16Cpdec | .u16Decode | .encU16 _ | .encU32 _
  | .encU64 _ | .decU16 _ | .decU32 _ | .decU64 _ => 0

/-- The ALPHA selector of a command that reads the field (R76, R77); a command that ignores it uses no table
(`alphaSize` 0). -/
def alphaSel : Instr → AlphaSel
  | .b32Encode alpha => alpha
  | .b32Valid alpha => alpha
  | .b32Decode alpha => alpha
  | .b64Encode alpha => alpha
  | .b64Valid alpha => alpha
  | .b64Decode alpha => alpha
  | .nop | .hexEnclen | .hexEncode | .hexValid | .hexDeclen | .hexDecode | .hexDumplen
  | .hexDump _ | .b32Enclen | .b32Declen | .b64Enclen | .b64Declen | .u8Cpsize | .u8Enclen
  | .u8Cpenc | .u8Encode | .u8Valid | .u8Declen | .u8Cpdec | .u8Decode | .u16Enclen | .u16Cpenc
  | .u16Encode | .u16Valid | .u16Declen | .u16Cpdec | .u16Decode | .encU16 _ | .encU32 _
  | .encU64 _ | .decU16 _ | .decU32 _ | .decU64 _ => .custom

/-- The source range of a command (R58). -/
def srcRange (i : Instr) (p : Snapshot) : Buf := p.src (srcSize i)

/-- The destination range of a command (R59). -/
def dstRange (i : Instr) (p : Snapshot) : Buf := p.dst (dstSize i)

/-- The alphabet range of a command with ALPHA = CUSTOM, at its full size (R58, R68). -/
def alphaRange (i : Instr) (p : Snapshot) : Buf :=
  { addr := p.regs.alphaAddr.toNat, size := if (alphaSel i) = .custom then (alphaSize i) else 0 }

/-- The ranges the host must leave alone while the command is pending (R68; log 12). -/
def raceRanges (i : Instr) (p : Snapshot) : List Buf := [srcRange i p, dstRange i p, alphaRange i p]

/-- The buffers the platform must serve for the command to run (R62, R63; log 13). -/
def usedRanges (i : Instr) (p : Snapshot) : List Buf :=
  [srcRange i p, dstRange i p, p.alphabet (alphaSel i) (alphaSize i)]

end Sys2Proof.Machine
end

