-- ==== Sys2Proof/Machine/Tables.lean ====
section
/-! DEFINITION. The constant tables of 10_state.md R34: the digit table (42_base16.md R150), the nibble
table (R151), the five built-in alphabets (43_base32.md R170, 44_base64.md R200), the value of a symbol
(R171, R201) and the Crockford folding (R172). -/

namespace Sys2Proof.Machine

/-- A quoted string of the spec: its ASCII byte values (R12). -/
def ascii (text : String) : List Byte := text.toList.map fun c => BitVec.ofNat 8 c.toNat

/-- The pad symbol `'='` (R12). -/
def padSymbol : Byte := 0x3D#8

/-- The digit table (R150). -/
def hexDigits : HexCase → List Byte
  | .lower => ascii "0123456789abcdef"
  | .upper => ascii "0123456789ABCDEF"

/-- `digit(v)` (R150). -/
def digit (case_ : HexCase) (v : Nat) : Byte := (hexDigits case_).getD v 0#8

/-- `nib(c)` (R151). -/
def nib (c : Byte) : Option Nat :=
  let v := c.toNat
  if 0x30 ≤ v ∧ v ≤ 0x39 then some (v - 0x30)
  else if 0x61 ≤ v ∧ v ≤ 0x66 then some (v - 0x61 + 10)
  else if 0x41 ≤ v ∧ v ≤ 0x46 then some (v - 0x41 + 10)
  else none

/-- `is_hex(c)` (R151). -/
def isHex (c : Byte) : Bool := (nib c).isSome

/-- The built-in base32 alphabets (R170); PRESUMED by the spec from general knowledge (log 18). -/
def tableRfc4648 : List Byte := ascii "ABCDEFGHIJKLMNOPQRSTUVWXYZ234567"
def tableB32Hex : List Byte := ascii "0123456789ABCDEFGHIJKLMNOPQRSTUV"
def tableCrockford : List Byte := ascii "0123456789ABCDEFGHJKMNPQRSTVWXYZ"

/-- The built-in base64 alphabets (R200); PRESUMED by the spec from general knowledge (log 18). -/
def tableB64Std : List Byte := ascii "ABCDEFGHIJKLMNOPQRSTUVWXYZabcdefghijklmnopqrstuvwxyz0123456789+/"
def tableB64Url : List Byte := ascii "ABCDEFGHIJKLMNOPQRSTUVWXYZabcdefghijklmnopqrstuvwxyz0123456789-_"

/-- The built-in table an ALPHA selector names (R73); the caller's table and reserved codes have none. -/
def builtinTable : AlphaSel → List Byte
  | .b32Rfc4648 => tableRfc4648
  | .b32Hex => tableB32Hex
  | .b32Crockford => tableCrockford
  | .b64Std => tableB64Std
  | .b64Url => tableB64Url
  | .custom => []
  | .reserved _ => []

/-- `table(ALPHA)` of the running command (R170, R178, R200, R208): the caller's `size` bytes at
ALPHA_ADDR for CUSTOM. -/
def State.table (s : State) (alpha : AlphaSel) (size : Nat) : List Byte :=
  if alpha = .custom then s.mem.readBytes s.snap.regs.alphaAddr.toNat size else builtinTable alpha

/-- ALPHA values a base32 command accepts (R77). -/
def legalB32 : AlphaSel → Bool
  | .custom | .b32Rfc4648 | .b32Hex | .b32Crockford => true
  | .b64Std | .b64Url | .reserved _ => false

/-- ALPHA values a base64 command accepts (R77). -/
def legalB64 : AlphaSel → Bool
  | .custom | .b64Std | .b64Url => true
  | .b32Rfc4648 | .b32Hex | .b32Crockford | .reserved _ => false

/-- `val_A(c)`: the least index that holds the symbol (R171, R201). -/
def symbolValue (table : List Byte) (c : Byte) : Option Nat := table.findIdx? (· == c)

/-- `member_A(c)` (R171, R201). -/
def isSymbol (table : List Byte) (c : Byte) : Bool := table.any (· == c)

/-- A byte is an ASCII letter. -/
def isLetter (c : Byte) : Bool :=
  (decide (0x41 ≤ c.toNat) && decide (c.toNat ≤ 0x5A)) || (decide (0x61 ≤ c.toNat) && decide (c.toNat ≤ 0x7A))

/-- `crock_val(c)` (R172): digits map to themselves, I, i, L and l to 1, O and o to 0, other letters by
their upper case, everything else is undefined. -/
def crockfordValue (c : Byte) : Option Nat :=
  if 0x30 ≤ c.toNat ∧ c.toNat ≤ 0x39 then some (c.toNat - 0x30)
  else if c ∈ ascii "IiLl" then some 1
  else if c ∈ ascii "Oo" then some 0
  else if isLetter c then symbolValue tableCrockford (c &&& 0x5F#8)
  else none

/-- The value of a symbol in B32_DECODE (R172, R181): only ALPHA = 3 folds. -/
def b32Value (alpha : AlphaSel) (table : List Byte) (c : Byte) : Option Nat :=
  if alpha = .b32Crockford then crockfordValue c else symbolValue table c

end Sys2Proof.Machine
end

