-- ==== Sys2Proof/Machine/Radix.lean ====
section
/-! DEFINITION. The design base32 and base64 share (43_base32.md, 44_base64.md): pad count, bit packing
and the bodies of encode, valid, decoded_length and decode, at the constants of each format. -/

namespace Sys2Proof.Machine

/-- The constants at the head of 43_base32.md and 44_base64.md. -/
structure Radix where
  /-- `k`, bits per symbol -/
  bits : Nat
  /-- `B`, symbols per block -/
  symbols : Nat
  /-- `D`, bytes per block -/
  bytes : Nat
  /-- `P`, the maximum pad count -/
  maxPad : Nat
  deriving DecidableEq, Repr

def base32 : Radix := { bits := 5, symbols := 8, bytes := 5, maxPad := 6 }
def base64 : Radix := { bits := 6, symbols := 4, bytes := 3, maxPad := 2 }

/-- `ceil(a / b)` (R11). -/
def ceilDiv (a b : Nat) : Nat := (a + b - 1) / b

/-- The encoded length `B * ceil(n / D)` (R174, R203). -/
def encodedLength (r : Radix) (n : Nat) : Nat := r.symbols * ceilDiv n r.bytes

/-- `p(t)`, the length of the longest run of `'='` at the end of the text (R173, R202). -/
def padCount (t : List Byte) : Nat := (t.reverse.takeWhile (· == padSymbol)).length

/-- The symbols of one group of 1 to `D` bytes, padded to a block (R176, R178, R205, R208). -/
def encodeGroup (r : Radix) (table : List Byte) (g : List Byte) : List Byte :=
  let x := ofBytes .big (g ++ List.replicate (r.bytes - g.length) 0#8)
  let count := ceilDiv (8 * g.length) r.bits
  (List.range count).map
      (fun i => table.getD (bits x (r.bits * (r.symbols - i) - 1) (r.bits * (r.symbols - 1 - i))) 0#8)
    ++ List.replicate (r.symbols - count) padSymbol

/-- The text encode writes (R178, R208). -/
def encodeText (r : Radix) (table : List Byte) (bs : List Byte) : List Byte :=
  (chunks r.bytes bs).flatMap (encodeGroup r table)

/-- The generic validity test (R179, R209). -/
def radixValid (r : Radix) (table : List Byte) (t : List Byte) : Bool :=
  if t.length = 0 then true
  else if t.length % r.symbols ≠ 0 then false
  else if r.maxPad < padCount t then false
  else (t.take (t.length - padCount t)).all (isSymbol table)

/-- The bytes of the blocks of symbol values (R176, R205). -/
def blockBytes (r : Radix) (vs : List Nat) : List Byte :=
  (chunks r.symbols vs).flatMap fun block => toBytes .big r.bytes (ofDigits r.bits block)

/-- The first `length` bytes a text decodes to, pad symbols valued 0 (R181, R211); none if a non-pad
symbol has no value. -/
def decodeText (r : Radix) (value : Byte → Option Nat) (t : List Byte) (length : Nat) :
    Option (List Byte) :=
  (valuesOf value (t.take (t.length - padCount t))).map fun vs =>
    (blockBytes r (vs ++ List.replicate (padCount t) 0)).take length

/-- encode with an alphabet (R178, R208). -/
def radixEncode (r : Radix) (alpha : AlphaSel) (legal : Bool) (s : State) : Result :=
  let p := s.snap
  let size := 2 ^ r.bits
  let alphabet := p.alphabet alpha size
  checked s.fail
    [nullCheck (p.src 1), nullCheck (p.dst 1), nullCheck alphabet,
     argumentCheck (!legal),
     rangeCheck (p.src 1), rangeCheck (p.dst 1), rangeCheck alphabet,
     overlapCheck (p.dst 1) (p.src 1), overlapCheck (p.dst 1) alphabet,
     overflowCheck (encodedLength r p.n),
     capacityCheck p.capacity (encodedLength r p.n)]
    (.next ((s.putDst (encodeText r (s.table alpha size) s.srcBytes)).finish .ok 0 0))

/-- valid with an alphabet (R179, R209). -/
def radixCheckValid (r : Radix) (alpha : AlphaSel) (legal : Bool) (s : State) : Result :=
  let p := s.snap
  let size := 2 ^ r.bits
  let alphabet := p.alphabet alpha size
  checked s.fail
    [nullCheck (p.src 1), nullCheck alphabet,
     argumentCheck (!legal),
     rangeCheck (p.src 1), rangeCheck alphabet]
    (.next (s.finish .ok (radixValid r (s.table alpha size) s.srcBytes).toNat 0))

/-- decoded_length, which takes no alphabet (R180, R210); `length` is the format's decoded length. -/
def radixDecodedLength (length : List Byte → Option Nat) (s : State) : Result :=
  let p := s.snap
  checked s.fail
    [nullCheck (p.src 1), rangeCheck (p.src 1), argumentCheck (length s.srcBytes).isNone]
    (.next (s.finish .ok ((length s.srcBytes).getD 0) 0))

/-- decode with an alphabet (R181, R211); `value` is the value of a symbol, `length` the format's
decoded length. -/
def radixDecode (r : Radix) (alpha : AlphaSel) (legal : Bool) (value : Byte → Option Nat)
    (length : List Byte → Option Nat) (s : State) : Result :=
  let p := s.snap
  let alphabet := p.alphabet alpha (2 ^ r.bits)
  let need := (length s.srcBytes).getD 0
  checked s.fail
    [nullCheck (p.src 1), nullCheck (p.dst 1), nullCheck alphabet,
     argumentCheck (!legal),
     rangeCheck (p.src 1), rangeCheck (p.dst 1), rangeCheck alphabet,
     overlapCheck (p.dst 1) (p.src 1), overlapCheck (p.dst 1) alphabet,
     argumentCheck (decide (p.n % r.symbols ≠ 0)),
     argumentCheck (length s.srcBytes).isNone,
     capacityCheck p.capacity need]
    (if need = 0 then .next (s.finish .ok 0 0)
     else
       match decodeText r value s.srcBytes need with
       | none => .fault .undefinedInput
       | some out => .next ((s.putDst out).finish .ok 0 0))

end Sys2Proof.Machine
end

