-- ==== Sys2Proof/Machine/Base32.lean ====
section
/-! DEFINITION. base32_encoder and base32_decoder (43_base32.md). -/

namespace Sys2Proof.Machine

/-- `last32(p)`: the whole bytes the `8 - p` data symbols of the final block carry (R175). -/
def last32 (p : Nat) : Nat := (8 - p) * 5 / 8

/-- `DL32(t)` (R175; 90_conflicts.md C1); none is its error InvalidArgument. -/
def decodedLength32 (t : List Byte) : Option Nat :=
  if t.length = 0 then some 0
  else if t.length % 8 ≠ 0 then none
  else if padCount t = t.length then some 0
  else if 6 < padCount t then none
  else some ((t.length / 8 - 1) * 5 + last32 (padCount t))

/-- B32_ENCLEN (R177). -/
def execB32Enclen (s : State) : Result :=
  checked s.fail [overflowCheck (encodedLength base32 s.snap.n)]
    (.next (s.finish .ok (encodedLength base32 s.snap.n) 0))

/-- B32_ENCODE (R178). -/
def execB32Encode (alpha : AlphaSel) (s : State) : Result := radixEncode base32 alpha (legalB32 alpha) s

/-- B32_VALID (R179): membership is exact, no folding. -/
def execB32Valid (alpha : AlphaSel) (s : State) : Result :=
  radixCheckValid base32 alpha (legalB32 alpha) s

/-- B32_DECLEN (R180). -/
def execB32Declen (s : State) : Result := radixDecodedLength decodedLength32 s

/-- B32_DECODE (R181). -/
def execB32Decode (alpha : AlphaSel) (s : State) : Result :=
  radixDecode base32 alpha (legalB32 alpha) (b32Value alpha (s.table alpha 32)) decodedLength32 s

end Sys2Proof.Machine
end

