-- ==== Sys2Proof/Machine/Base64.lean ====
section
/-! DEFINITION. base64_encoder and base64_decoder (44_base64.md). -/

namespace Sys2Proof.Machine

/-- `DL64(t)` (R204); none is its error InvalidArgument. -/
def decodedLength64 (t : List Byte) : Option Nat :=
  if t.length = 0 then some 0
  else if t.length % 4 ≠ 0 then none
  else if padCount t = t.length then some 0
  else if 2 < padCount t then none
  else some (t.length / 4 * 3 - padCount t)

/-- B64_ENCLEN (R207). -/
def execB64Enclen (s : State) : Result :=
  checked s.fail [overflowCheck (encodedLength base64 s.snap.n)]
    (.next (s.finish .ok (encodedLength base64 s.snap.n) 0))

/-- B64_ENCODE (R208). -/
def execB64Encode (alpha : AlphaSel) (s : State) : Result := radixEncode base64 alpha (legalB64 alpha) s

/-- B64_VALID (R209). -/
def execB64Valid (alpha : AlphaSel) (s : State) : Result :=
  radixCheckValid base64 alpha (legalB64 alpha) s

/-- B64_DECLEN (R210). -/
def execB64Declen (s : State) : Result := radixDecodedLength decodedLength64 s

/-- B64_DECODE (R211): every base64 alphabet decodes by its own table, with no folding (R201). -/
def execB64Decode (alpha : AlphaSel) (s : State) : Result :=
  radixDecode base64 alpha (legalB64 alpha) (symbolValue (s.table alpha 64)) decodedLength64 s

end Sys2Proof.Machine
end

