-- ==== Sys2Proof/Machine/Common.lean ====
section
/-! DEFINITION. The command of no unit (40_common.md R120). -/

namespace Sys2Proof.Machine

/-- NOP (R120): no operand, no check. -/
def execNop (s : State) : Result := .next (s.finish .ok 0 0)

end Sys2Proof.Machine
end

