-- ==== Sys2Proof/Machine/Hex.lean ====
section
/-! DEFINITION. base16_encoder and base16_decoder (42_base16.md). -/

namespace Sys2Proof.Machine

/-- The two digits of a byte, high nibble first (R154). -/
def hexByte (case_ : HexCase) (b : Byte) : List Byte :=
  [digit case_ (bits b.toNat 7 4), digit case_ (bits b.toNat 3 0)]

/-- The text HEX_ENCODE writes (R154). -/
def hexText (case_ : HexCase) (bs : List Byte) : List Byte := bs.flatMap (hexByte case_)

/-- HEX_VALID's test (R155). -/
def hexValid (t : List Byte) : Bool := decide (t.length % 2 = 0) && t.all isHex

/-- What HEX_DECODE writes (R157); none outside its domain. -/
def hexBytes (t : List Byte) : Option (List Byte) :=
  (valuesOf nib t).map fun vs => (chunks 2 vs).map fun pair => BitVec.ofNat 8 (ofDigits 4 pair)

/-- HEX_ENCLEN (R153). -/
def execHexEnclen (s : State) : Result :=
  checked s.fail [overflowCheck (2 * s.snap.n)] (.next (s.finish .ok (2 * s.snap.n) 0))

/-- HEX_ENCODE (R154). -/
def execHexEncode (s : State) : Result :=
  let p := s.snap
  checked s.fail
    [nullCheck (p.src 1), nullCheck (p.dst 1),
     rangeCheck (p.src 1), rangeCheck (p.dst 1), overlapCheck (p.dst 1) (p.src 1),
     overflowCheck (2 * p.n),
     capacityCheck p.capacity (2 * p.n)]
    (.next ((s.putDst (hexText s.cfg.hexCase s.srcBytes)).finish .ok 0 0))

/-- HEX_VALID (R155). -/
def execHexValid (s : State) : Result :=
  let p := s.snap
  checked s.fail [nullCheck (p.src 1), rangeCheck (p.src 1)]
    (.next (s.finish .ok (hexValid s.srcBytes).toNat 0))

/-- HEX_DECLEN (R156): for odd n RESULT is a free value (log 3). -/
def execHexDeclen (s : State) : Result :=
  if s.snap.n % 2 = 0 then .next (s.finish .ok (s.snap.n / 2) 0)
  else .next ((s.useDraws 1).finish .ok (Config.draw s.draws).toNat 0)

/-- HEX_DECODE (R157). -/
def execHexDecode (s : State) : Result :=
  let p := s.snap
  checked s.fail
    [nullCheck (p.src 1), nullCheck (p.dst 1),
     rangeCheck (p.src 1), rangeCheck (p.dst 1), overlapCheck (p.dst 1) (p.src 1),
     argumentCheck (decide (p.n % 2 = 1)),
     capacityCheck p.capacity (p.n / 2)]
    (match hexBytes s.srcBytes with
     | none => .fault .undefinedInput
     | some out => .next ((s.putDst out).finish .ok 0 0))

end Sys2Proof.Machine
end

