-- ==== Sys2Proof/Machine/Dump.lean ====
section
/-! DEFINITION. hex_dump, the optional unit (47_hexdump.md). The decoder selects these commands only
when `HAS_HEXDUMP` is true (R10, R81). -/

namespace Sys2Proof.Machine

/-- `dump_length(n)` (R304). -/
def dumpLength (n : Nat) : Nat := 79 * (n / 16) + (if n % 16 = 0 then 0 else 63 + n % 16)

/-- `hex8(A)`: the low 32 bits of the running address as 8 lowercase digits (R303). -/
def dumpAddress (a : Nat) : List Byte := hexText .lower (toBytes .big 4 a)

/-- `col(c, j)` (R301): the byte's digits and a space, or three spaces for a missing byte (R302). -/
def dumpColumn (c : List Byte) (j : Nat) : List Byte :=
  match c.drop j with
  | b :: _ => hexByte .lower b ++ ascii " "
  | [] => ascii "   "

/-- `gutter(c)` (R301). -/
def dumpGutter (c : List Byte) : List Byte :=
  c.map fun b => if 0x1F < b.toNat ∧ b.toNat < 0x7F then b else 0x2E#8

/-- `line(A, c)` (R301). -/
def dumpLine (a : Nat) (c : List Byte) : List Byte :=
  dumpAddress a ++ ascii "  "
    ++ (List.range 8).flatMap (dumpColumn c) ++ ascii " "
    ++ ((List.range 8).map (8 + ·)).flatMap (dumpColumn c) ++ ascii " "
    ++ ascii "|" ++ dumpGutter c ++ ascii "|" ++ [0x0A#8]

/-- The lines of the pieces of the input, from the running address `a` on (R303). -/
def dumpLines : Nat → List (List Byte) → List Byte
  | _, [] => []
  | a, c :: cs => dumpLine a c ++ dumpLines (a + 16) cs

/-- The text HEX_DUMP writes (R300, R305). -/
def dumpText (start : Nat) (bs : List Byte) : List Byte := dumpLines start (chunks 16 bs)

/-- HEX_DUMPLEN (R304). -/
def execHexDumplen (s : State) : Result :=
  checked s.fail [overflowCheck (dumpLength s.snap.n)] (.next (s.finish .ok (dumpLength s.snap.n) 0))

/-- The running address of the first line (R303). -/
def dumpStart (useOff : Bool) (p : Snapshot) : Nat := if useOff then p.regs.offset.toNat else 0

/-- HEX_DUMP (R305, R306). -/
def execHexDump (useOff : Bool) (s : State) : Result :=
  let p := s.snap
  let start := dumpStart useOff p
  let written := s.putDst (dumpText start s.srcBytes)
  checked s.fail
    [nullCheck (p.src 1), nullCheck (p.dst 1),
     rangeCheck (p.src 1), rangeCheck (p.dst 1), overlapCheck (p.dst 1) (p.src 1),
     argumentCheck (decide (lenLimit - 1 < start + p.n)),
     overflowCheck (dumpLength p.n),
     capacityCheck p.capacity (dumpLength p.n)]
    (.next ((if useOff then written.setOffset (start + p.n) else written).finish .ok 0 0))

end Sys2Proof.Machine
end

