-- ==== Sys2Proof/Machine/Endian.lean ====
section
/-! DEFINITION. endian_int_codec (41_endian.md). The byte order is the command word's BO field, never
`NATIVE_ORDER` (R53, R132). -/

namespace Sys2Proof.Machine

/-- The byte order a supported BO tag names (R132). -/
def orderOf : BoTag → Option ByteOrder
  | .big => some .big
  | .little => some .little
  | .unsupported _ => none

/-- Phase 1 of this unit: the length requirement is never 0, so address 0 is null whatever the length
(R133). -/
def endianNullCheck (addr : Word) : Bool × Status := (decide (addr.toNat = 0), .invalidNullPointer)

/-- The template of ENC_UN, `n` bytes (R134 to R136). -/
def encodeInt (n : Nat) (bo : BoTag) (s : State) : Result :=
  let p := s.snap
  checked s.fail
    [endianNullCheck p.regs.dstAddr,
     argumentCheck (orderOf bo).isNone,
     rangeCheck (p.dst 1),
     capacityCheck p.capacity n]
    (.next ((s.putDst (toBytes ((orderOf bo).getD .big) n (bits p.regs.arg.toNat (8 * n - 1) 0))).finish
      .ok 0 0))

/-- The template of DEC_UN, `n` bytes (R137 to R139); only the first `n` source bytes are read. -/
def decodeInt (n : Nat) (bo : BoTag) (s : State) : Result :=
  let p := s.snap
  checked s.fail
    [endianNullCheck p.regs.srcAddr,
     argumentCheck (orderOf bo).isNone,
     rangeCheck (p.src 1),
     capacityCheck p.n n]
    (.next (s.finish .ok (ofBytes ((orderOf bo).getD .big) (s.mem.readBytes p.regs.srcAddr.toNat n)) 0))

/-- ENC_U16 (R134). -/
def execEncU16 (bo : BoTag) (s : State) : Result := encodeInt 2 bo s

/-- ENC_U32 (R135). -/
def execEncU32 (bo : BoTag) (s : State) : Result := encodeInt 4 bo s

/-- ENC_U64 (R136). -/
def execEncU64 (bo : BoTag) (s : State) : Result := encodeInt 8 bo s

/-- DEC_U16 (R137). -/
def execDecU16 (bo : BoTag) (s : State) : Result := decodeInt 2 bo s

/-- DEC_U32 (R138). -/
def execDecU32 (bo : BoTag) (s : State) : Result := decodeInt 4 bo s

/-- DEC_U64 (R139). -/
def execDecU64 (bo : BoTag) (s : State) : Result := decodeInt 8 bo s

end Sys2Proof.Machine
end

