-- ==== Sys2Proof/Machine/Utf8.lean ====
section
/-! DEFINITION. utf8_validator, utf8_encoder and utf8_decoder (45_utf8.md): one automaton (R230 to R237)
and the eight commands over it. -/

namespace Sys2Proof.Machine

/-- The replacement code point U+FFFD (R16). -/
def replacement : Nat := 0xFFFD

/-- A value in 0xD800..0xDFFF (R16, R270). -/
def isSurrogate (v : Nat) : Bool := decide (0xD800 ≤ v) && decide (v ≤ 0xDFFF)

/-- A scalar value (R16). -/
def isScalar (cp : Nat) : Bool := decide (cp ≤ 0x10FFFF) && !isSurrogate cp

/-- The states of the automaton (R230; 90_conflicts.md C3). -/
inductive U8State where
  | accept
  /-- one continuation byte still needed -/
  | s1
  /-- two continuation bytes still needed -/
  | s2
  /-- three continuation bytes still needed -/
  | s3
  /-- after lead 0xE0 -/
  | s4
  /-- after lead 0xED -/
  | s5
  /-- after lead 0xF0 -/
  | s6
  /-- after lead 0xF4 -/
  | s7
  | reject
  deriving DecidableEq, Repr

/-- The transitions from ACCEPT on a byte value (R231). -/
def u8Lead (v : Nat) : U8State :=
  if v ≤ 0x7F then .accept
  else if v ≤ 0xC1 then .reject
  else if v ≤ 0xDF then .s1
  else if v = 0xE0 then .s4
  else if v ≤ 0xEC then .s2
  else if v = 0xED then .s5
  else if v ≤ 0xEF then .s2
  else if v = 0xF0 then .s6
  else if v ≤ 0xF3 then .s3
  else if v = 0xF4 then .s7
  else .reject

/-- The next state if the value lies in `lo..hi`, else REJECT (R230). -/
def u8In (v lo hi : Nat) (next : U8State) : U8State := if lo ≤ v ∧ v ≤ hi then next else .reject

/-- `δ(state, byte)` (R230, R231). -/
def u8Next (q : U8State) (b : Byte) : U8State :=
  match q with
  | .accept => u8Lead b.toNat
  | .s1 => u8In b.toNat 0x80 0xBF .accept
  | .s2 => u8In b.toNat 0x80 0xBF .s1
  | .s3 => u8In b.toNat 0x80 0xBF .s2
  | .s4 => u8In b.toNat 0xA0 0xBF .s1
  | .s5 => u8In b.toNat 0x80 0x9F .s1
  | .s6 => u8In b.toNat 0x90 0xBF .s2
  | .s7 => u8In b.toNat 0x80 0x8F .s2
  | .reject => .reject

/-- `run(s, t)` (R232). -/
def u8Run (q : U8State) (t : List Byte) : U8State := t.foldl u8Next q

/-- U8_VALID's test (R232, R246). -/
def u8Valid (t : List Byte) : Bool := decide (u8Run .accept t = .accept)

/-- `lead_mask(b)` for a lead byte that does not reject (R233). -/
def leadMask (v : Nat) : Nat :=
  if v ≤ 0x7F then 0x7F else if v ≤ 0xDF then 0x1F else if v ≤ 0xEF then 0x0F else 0x07

/-- How a decode step ends (R234). -/
inductive StepKind where
  | accepted
  | rejected
  | truncated
  deriving DecidableEq, Repr

/-- The triple a decode step yields (R234). -/
structure U8Step where
  cp : Nat
  consumed : Nat
  kind : StepKind
  deriving DecidableEq, Repr

/-- The payload after a byte: a lead byte's own bits, or six more (R233, R234). -/
def u8Payload (q : U8State) (cp : Nat) (b : Byte) : Nat :=
  if q = .accept then b.toNat &&& leadMask b.toNat else (cp <<< 6) ||| (b.toNat &&& 0x3F)

/-- The loop of `step8` (R234): in state `q`, with payload `cp` and `count` bytes consumed, on the bytes
that are left. -/
def u8Loop : U8State → Nat → Nat → List Byte → U8Step
  | _, _, count, [] => { cp := replacement, consumed := count, kind := .truncated }
  | q, cp, count, b :: t =>
    if u8Next q b = .reject then { cp := replacement, consumed := max 1 count, kind := .rejected }
    else if u8Next q b = .accept then
      { cp := u8Payload q cp b, consumed := count + 1, kind := .accepted }
    else u8Loop (u8Next q b) (u8Payload q cp b) (count + 1) t

/-- `step8(t, 0)` on the text from the offset on (R234). -/
def u8Step (t : List Byte) : U8Step := u8Loop .accept 0 0 t

/-- The steps of a text, at most `fuel` of them, each starting where the last one ended. -/
def u8StepsUpTo : Nat → List Byte → List U8Step
  | 0, _ => []
  | _ + 1, [] => []
  | fuel + 1, b :: t => u8Step (b :: t) :: u8StepsUpTo fuel ((b :: t).drop (u8Step (b :: t)).consumed)

/-- `steps8(t)` (R249): every step consumes a byte, so the length bounds their number. -/
def u8Steps (t : List Byte) : List U8Step := u8StepsUpTo t.length t

/-- `DL8(t)` (R247). -/
def u8DecodedLength (t : List Byte) : Nat := (u8Steps t).length

/-- The last step of the text is truncated (R236, R250). -/
def u8Truncated (t : List Byte) : Bool :=
  match (u8Steps t).getLast? with
  | some last => decide (last.kind = .truncated)
  | none => false

/-- `cpsize(cp)` for `cp <= 0x10FFFF`, and the cost 3 of the replacement above it: `size8(cp)` (R238). -/
def u8Size (cp : Nat) : Nat :=
  if cp ≤ 0x7F then 1 else if cp ≤ 0x7FF then 2 else if cp ≤ 0xFFFF then 3
  else if cp ≤ 0x10FFFF then 4 else 3

/-- `enc8(cp)` (R239). -/
def u8Encode (cp : Nat) : List Byte :=
  (if cp ≤ 0x7F then [cp]
   else if cp ≤ 0x7FF then [0xC0 ||| bits cp 10 6, 0x80 ||| bits cp 5 0]
   else if cp ≤ 0xFFFF ∧ isSurrogate cp = false then
     [0xE0 ||| bits cp 15 12, 0x80 ||| bits cp 11 6, 0x80 ||| bits cp 5 0]
   else if 0x10000 ≤ cp ∧ cp ≤ 0x10FFFF then
     [0xF0 ||| bits cp 20 18, 0x80 ||| bits cp 17 12, 0x80 ||| bits cp 11 6, 0x80 ||| bits cp 5 0]
   else [0xEF, 0xBF, 0xBD]).map (BitVec.ofNat 8)

/-- The bytes U8_ENCODE writes (R243). -/
def u8Text (cps : List Nat) : List Byte := cps.flatMap u8Encode

/-- The sum of `size8` (R241). -/
def u8EncodedLength (cps : List Nat) : Nat := (cps.map u8Size).sum

/-- U8_CPSIZE (R240). -/
def execU8Cpsize (s : State) : Result :=
  let cp := s.snap.arg32
  checked s.fail [argumentCheck (decide (0x10FFFF < cp))] (.next (s.finish .ok (u8Size cp) 0))

/-- U8_ENCLEN (R241). -/
def execU8Enclen (s : State) : Result :=
  let p := s.snap
  checked s.fail [nullCheck (p.src 4), rangeCheck (p.src 4)]
    (.next (s.finish .ok (u8EncodedLength (s.srcElems 4)) 0))

/-- U8_CPENC (R242). -/
def execU8Cpenc (s : State) : Result :=
  let p := s.snap
  let out := u8Encode p.arg32
  checked s.fail [nullCheck (p.dst 1), rangeCheck (p.dst 1), capacityCheck p.capacity out.length]
    (.next ((s.putDst out).finish .ok out.length 0))

/-- U8_ENCODE (R243). -/
def execU8Encode (s : State) : Result :=
  let p := s.snap
  checked s.fail
    [nullCheck (p.src 4), nullCheck (p.dst 1),
     rangeCheck (p.src 4), rangeCheck (p.dst 1), overlapCheck (p.dst 1) (p.src 4),
     capacityCheck p.capacity (u8EncodedLength (s.srcElems 4))]
    (.next ((s.putDst (u8Text (s.srcElems 4))).finish .ok 0 0))

/-- U8_VALID (R246). -/
def execU8Valid (s : State) : Result :=
  let p := s.snap
  checked s.fail [nullCheck (p.src 1), rangeCheck (p.src 1)]
    (.next (s.finish .ok (u8Valid s.srcBytes).toNat 0))

/-- U8_DECLEN (R247). -/
def execU8Declen (s : State) : Result :=
  let p := s.snap
  checked s.fail [nullCheck (p.src 1), rangeCheck (p.src 1)]
    (.next (s.finish .ok (u8DecodedLength s.srcBytes) 0))

/-- U8_CPDEC (R248): the step at offset ARG. -/
def execU8Cpdec (s : State) : Result :=
  let p := s.snap
  let step := u8Step (s.srcBytes.drop p.regs.arg.toNat)
  checked s.failReplacement
    [nullCheck (p.src 1), rangeCheck (p.src 1), argumentCheck (decide (p.n ≤ p.regs.arg.toNat))]
    (.next (s.finish .ok step.cp step.consumed))

/-- The destination of U8_DECODE zeroed, all `4 * DST_LEN` bytes of it (R250). -/
def State.zeroDst (s : State) : State := s.putDst (List.replicate (4 * s.snap.capacity) 0#8)

/-- U8_DECODE (R250): capacity first, then truncation; both zero the whole destination. -/
def execU8Decode (s : State) : Result :=
  let p := s.snap
  checked s.fail
    [nullCheck (p.src 1), nullCheck (p.dst 4),
     rangeCheck (p.src 1), rangeCheck (p.dst 4), overlapCheck (p.dst 4) (p.src 1)]
    (if p.capacity < u8DecodedLength s.srcBytes then .next (s.zeroDst.fail .bufferTooSmall)
     else if u8Truncated s.srcBytes then .next (s.zeroDst.fail .invalidArgument)
     else .next ((s.putElems 4 ((u8Steps s.srcBytes).map (·.cp))).finish .ok 0 0))

end Sys2Proof.Machine
end

