-- ==== Sys2Proof/Machine/Utf16.lean ====
section
/-! DEFINITION. utf16_encoder and utf16_decoder (46_utf16.md); lengths count units (R275). -/

namespace Sys2Proof.Machine

/-- A high surrogate, 0xD800..0xDBFF (R270). -/
def isHigh (u : Nat) : Bool := decide (0xD800 ≤ u) && decide (u ≤ 0xDBFF)

/-- A low surrogate, 0xDC00..0xDFFF (R270). -/
def isLow (u : Nat) : Bool := decide (0xDC00 ≤ u) && decide (u ≤ 0xDFFF)

/-- A noncharacter, 0xFFFE or 0xFFFF (R270). -/
def isNonchar (u : Nat) : Bool := decide (u = 0xFFFE) || decide (u = 0xFFFF)

/-- `valid16(t)` (R271). -/
def u16Valid : List Nat → Bool
  | [] => true
  | u :: t =>
    if isNonchar u then false
    else if !isSurrogate u then u16Valid t
    else if isHigh u then
      match t with
      | l :: t' => isLow l && u16Valid t'
      | [] => false
    else false

/-- What a decode step yields: the code point and the units consumed (R272). -/
structure U16Step where
  cp : Nat
  consumed : Nat
  deriving DecidableEq, Repr

/-- The code point of a surrogate pair (R272; 90_conflicts.md C6). -/
def pairValue (high low : Nat) : Nat := (((high &&& 0x3FF) <<< 10) ||| (low &&& 0x3FF)) + 0x10000

/-- `step16(t, 0)` on the nonempty text from the offset on (R272). -/
def u16Step : List Nat → U16Step
  | [] => { cp := replacement, consumed := 0 }
  | u :: t =>
    if !isSurrogate u then { cp := u, consumed := 1 }
    else
      match t with
      | l :: _ =>
        if isHigh u && isLow l then { cp := pairValue u l, consumed := 2 }
        else { cp := replacement, consumed := 1 }
      | [] => { cp := replacement, consumed := 1 }

/-- The steps of a text, at most `fuel` of them, each starting where the last one ended. -/
def u16StepsUpTo : Nat → List Nat → List U16Step
  | 0, _ => []
  | _ + 1, [] => []
  | fuel + 1, u :: t => u16Step (u :: t) :: u16StepsUpTo fuel ((u :: t).drop (u16Step (u :: t)).consumed)

/-- `steps16(t)` (R273): every step consumes a unit, so the length bounds their number. -/
def u16Steps (t : List Nat) : List U16Step := u16StepsUpTo t.length t

/-- `DL16(t)` (R273). -/
def u16DecodedLength (t : List Nat) : Nat := (u16Steps t).length

/-- `enc16(cp)` (R274). -/
def u16Encode (cp : Nat) : List Nat :=
  if cp < 0x10000 ∧ isSurrogate cp = false ∧ isNonchar cp = false then [cp]
  else if 0x10000 ≤ cp ∧ cp ≤ 0x10FFFF then
    [0xD800 ||| (cp - 0x10000) >>> 10, 0xDC00 ||| ((cp - 0x10000) &&& 0x3FF)]
  else [replacement]

/-- `size16(cp)` (R274). -/
def u16Size (cp : Nat) : Nat := (u16Encode cp).length

/-- The units U16_ENCODE writes (R282). -/
def u16Text (cps : List Nat) : List Nat := cps.flatMap u16Encode

/-- The sum of `size16` (R280). -/
def u16EncodedLength (cps : List Nat) : Nat := (cps.map u16Size).sum

/-- U16_ENCLEN (R280). -/
def execU16Enclen (s : State) : Result :=
  let p := s.snap
  checked s.fail [nullCheck (p.src 4), rangeCheck (p.src 4)]
    (.next (s.finish .ok (u16EncodedLength (s.srcElems 4)) 0))

/-- U16_CPENC (R281). -/
def execU16Cpenc (s : State) : Result :=
  let p := s.snap
  let units := u16Encode p.arg32
  checked s.fail [nullCheck (p.dst 2), rangeCheck (p.dst 2), capacityCheck p.capacity units.length]
    (.next ((s.putElems 2 units).finish .ok units.length 0))

/-- U16_ENCODE (R282). -/
def execU16Encode (s : State) : Result :=
  let p := s.snap
  checked s.fail
    [nullCheck (p.src 4), nullCheck (p.dst 2),
     rangeCheck (p.src 4), rangeCheck (p.dst 2), overlapCheck (p.dst 2) (p.src 4),
     capacityCheck p.capacity (u16EncodedLength (s.srcElems 4))]
    (.next ((s.putElems 2 (u16Text (s.srcElems 4))).finish .ok 0 0))

/-- U16_VALID (R284). -/
def execU16Valid (s : State) : Result :=
  let p := s.snap
  checked s.fail [nullCheck (p.src 2), rangeCheck (p.src 2)]
    (.next (s.finish .ok (u16Valid (s.srcElems 2)).toNat 0))

/-- U16_DECLEN (R285). -/
def execU16Declen (s : State) : Result :=
  let p := s.snap
  checked s.fail [nullCheck (p.src 2), rangeCheck (p.src 2)]
    (.next (s.finish .ok (u16DecodedLength (s.srcElems 2)) 0))

/-- U16_CPDEC (R286): the step at offset ARG, counted in units. -/
def execU16Cpdec (s : State) : Result :=
  let p := s.snap
  let step := u16Step ((s.srcElems 2).drop p.regs.arg.toNat)
  checked s.failReplacement
    [nullCheck (p.src 2), rangeCheck (p.src 2), argumentCheck (decide (p.n ≤ p.regs.arg.toNat))]
    (.next (s.finish .ok step.cp step.consumed))

/-- U16_DECODE (R287): no zeroing on failure. -/
def execU16Decode (s : State) : Result :=
  let p := s.snap
  checked s.fail
    [nullCheck (p.src 2), nullCheck (p.dst 4),
     rangeCheck (p.src 2), rangeCheck (p.dst 4), overlapCheck (p.dst 4) (p.src 2),
     capacityCheck p.capacity (u16DecodedLength (s.srcElems 2))]
    (.next ((s.putElems 4 ((u16Steps (s.srcElems 2)).map (·.cp))).finish .ok 0 0))

end Sys2Proof.Machine
end

