-- ==== Sys2Proof/Machine/Dispatch.lean ====
section
/-! DEFINITION. One arm for each command of 30_encoding.md R71. -/

namespace Sys2Proof.Machine

def exec (i : Instr) (s : State) : Host.Outcome State Fault Refusal :=
  match i with
  | .nop => Sys2Proof.Machine.execNop s
  | .hexEnclen => Sys2Proof.Machine.execHexEnclen s
  | .hexEncode => Sys2Proof.Machine.execHexEncode s
  | .hexValid => Sys2Proof.Machine.execHexValid s
  | .hexDeclen => Sys2Proof.Machine.execHexDeclen s
  | .hexDecode => Sys2Proof.Machine.execHexDecode s
  | .hexDumplen => Sys2Proof.Machine.execHexDumplen s
  | .hexDump useOff => Sys2Proof.Machine.execHexDump useOff s
  | .b32Enclen => Sys2Proof.Machine.execB32Enclen s
  | .b32Encode alpha => Sys2Proof.Machine.execB32Encode alpha s
  | .b32Valid alpha => Sys2Proof.Machine.execB32Valid alpha s
  | .b32Declen => Sys2Proof.Machine.execB32Declen s
  | .b32Decode alpha => Sys2Proof.Machine.execB32Decode alpha s
  | .b64Enclen => Sys2Proof.Machine.execB64Enclen s
  | .b64Encode alpha => Sys2Proof.Machine.execB64Encode alpha s
  | .b64Valid alpha => Sys2Proof.Machine.execB64Valid alpha s
  | .b64Declen => Sys2Proof.Machine.execB64Declen s
  | .b64Decode alpha => Sys2Proof.Machine.execB64Decode alpha s
  | .u8Cpsize => Sys2Proof.Machine.execU8Cpsize s
  | .u8Enclen => Sys2Proof.Machine.execU8Enclen s
  | .u8Cpenc => Sys2Proof.Machine.execU8Cpenc s
  | .u8Encode => Sys2Proof.Machine.execU8Encode s
  | .u8Valid => Sys2Proof.Machine.execU8Valid s
  | .u8Declen => Sys2Proof.Machine.execU8Declen s
  | .u8Cpdec => Sys2Proof.Machine.execU8Cpdec s
  | .u8Decode => Sys2Proof.Machine.execU8Decode s
  | .u16Enclen => Sys2Proof.Machine.execU16Enclen s
  | .u16Cpenc => Sys2Proof.Machine.execU16Cpenc s
  | .u16Encode => Sys2Proof.Machine.execU16Encode s
  | .u16Valid => Sys2Proof.Machine.execU16Valid s
  | .u16Declen => Sys2Proof.Machine.execU16Declen s
  | .u16Cpdec => Sys2Proof.Machine.execU16Cpdec s
  | .u16Decode => Sys2Proof.Machine.execU16Decode s
  | .encU16 bo => Sys2Proof.Machine.execEncU16 bo s
  | .encU32 bo => Sys2Proof.Machine.execEncU32 bo s
  | .encU64 bo => Sys2Proof.Machine.execEncU64 bo s
  | .decU16 bo => Sys2Proof.Machine.execDecU16 bo s
  | .decU32 bo => Sys2Proof.Machine.execDecU32 bo s
  | .decU64 bo => Sys2Proof.Machine.execDecU64 bo s

end Sys2Proof.Machine
end

