-- ==== Sys2Proof/Machine/Flags.lean ====
section
/-! DEFINITION. STATUS, the block's only flag register (10_state.md R27, R28, R35), and what a host read
of each register returns (R20, R21, R25). -/

namespace Sys2Proof.Machine

/-- The number of a status kind in STATUS.ERR (R28). -/
def Status.code : Status → BitVec 3
  | .ok => 0#3
  | .invalidNullPointer => 1#3
  | .invalidArgument => 2#3
  | .bufferTooSmall => 3#3
  | .notPowerOfTwo => 4#3

/-- STATUS (R27): BUSY is bit 0, OVR bit 1, ERR bits [10:8], every other bit reads 0. -/
def State.statusWord (s : State) : Word :=
  (0#53 ++ s.err.code ++ 0#6 ++ BitVec.ofBool s.ovr ++ BitVec.ofBool s.busy : BitVec (53 + 3 + 6 + 1 + 1))

/-- What a host read of a register returns (R21, R25, R27); reserved offsets read 0 (R20). -/
def State.readReg (s : State) (r : Option Reg) : Word :=
  match r with
  | some .cmd => s.cmd
  | some .status => s.statusWord
  | some .srcAddr => s.regs.srcAddr
  | some .srcLen => s.regs.srcLen
  | some .dstAddr => s.regs.dstAddr
  | some .dstLen => s.regs.dstLen
  | some .alphaAddr => s.regs.alphaAddr
  | some .arg => s.regs.arg
  | some .offset => s.regs.offset
  | some .result => s.result
  | some .result2 => s.result2
  | none => 0#64

end Sys2Proof.Machine
end

