-- ==== Sys2Proof/Machine/Engine.lean ====
section
/-! DEFINITION. The two agents' moves: the engine step (40_common.md R100 to R103), the host's accesses
(60_exceptions.md R320, R321; 20_memory.md R50, R68) and the platform's reset (70_reset_and_hazards.md
R350 to R352). -/

namespace Sys2Proof.Machine

/-! ### The platform's memory map (R62, R63) -/

/-- A region's addresses as a buffer. -/
def regionBuf (r : Region) : Buf := { addr := r.base, size := r.size }

/-- A buffer reaches a region of the given kind. -/
def reachesKind (cfg : Params) (kind : RegionKind) (b : Buf) : Bool :=
  decide (0 < b.size) && cfg.regions.any fun r => decide (r.kind = kind) && b.overlaps (regionBuf r)

/-- `next`, where `ranges` lie in ordinary memory that the platform serves; else the refusal of memory with
side effects (R62, R327 (b)), or `unserved` (R63, R327 (a)). DESIGN CHOICE (log 13, safe): ranges that reach
memory of both kinds are refused, since the spec gives the two cases no order. -/
def guarded (cfg : Params) (ranges : List Buf) (unserved next : Result) : Result :=
  if ranges.any (reachesKind cfg .sideEffecting) then .refused .sideEffectingMemory
  else if ranges.any (reachesKind cfg .unserved) then unserved
  else next

/-! ### The engine (R101, R103) -/

/-- The engine's turn: with no command pending the engine step is not enabled and nothing changes (R101); a
command that reaches an address the platform cannot serve is stuck, so nothing changes and BUSY stays 1 (R63,
R327 (a)); else the engine step runs what the snapshot's word decodes to (R81, R103). -/
def engineStep (s : State) : Result :=
  match s.pending with
  | none => .next s
  | some p =>
    match decode s.cfg.hasHexDump p.word with
    | .reserved _ => .next s.reservedOpcode
    | .command i => guarded s.cfg (usedRanges i p) (.next s) (exec i s)

/-! ### The host (R320) -/

/-- The address of a register in the host's map (R50). -/
def regAddr (cfg : Params) (off : BitVec 8) : Word := cfg.regBase + off.setWidth 64

/-- The offset in the 256-byte window at REG_BASE that an address of the host's map has; none outside the window
(R50, R61). DESIGN CHOICE (log 16): the window wraps at the top of the address space. -/
def windowOffset (cfg : Params) (addr : Word) : Option (BitVec 8) :=
  if (addr - cfg.regBase).toNat < 256 then some ((addr - cfg.regBase).setWidth 8) else none

/-- A register access is a naturally aligned 64-bit access (R50). -/
def supportedAccess (off : BitVec 8) (width : Nat) : Bool :=
  decide (width = 8) && decide (off.toNat % 8 = 0)

/-- A host register access at an address of the host's map: `effect` at the register there, where the access
is a supported one inside the window (R50). -/
def hostRegAccess (addr : Word) (width : Nat) (s : State) (effect : Option Reg → State) : Result :=
  match windowOffset s.cfg addr with
  | none => .fault .outsideWindow
  | some off =>
    if supportedAccess off width then .next (effect (regAt off)) else .fault .unsupportedHostAccess

/-- A host register write (R20 to R22, R26, R29, R50). -/
def hostRegWrite (addr : Word) (width : Nat) (v : Word) (s : State) : Result :=
  hostRegAccess addr width s fun r => s.writeReg r v

/-- A host register read: it changes nothing of the block (R320), the host gets the value. -/
def hostRegRead (addr : Word) (width : Nat) (s : State) : Result :=
  hostRegAccess addr width s fun r => { s with rdata := s.readReg r }

/-- The buffer ranges of the pending command (R68); a reserved opcode has none. -/
def State.pendingRanges (s : State) : List Buf :=
  match s.pending with
  | none => []
  | some p =>
    match decode s.cfg.hasHexDump p.word with
    | .reserved _ => []
    | .command i => raceRanges i p

/-- A host access of byte `a` of shared memory: a race if the byte belongs to the pending command
(R68), else `next` in ordinary memory that the platform serves (R62, R63; log 13). -/
def hostMemAccess (a : Word) (s : State) (next : Result) : Result :=
  if s.pendingRanges.any (·.has a.toNat) then .fault .hostBufferRace
  else guarded s.cfg [{ addr := a.toNat, size := 1 }] (.fault .unservedAddress) next

/-- A host write of one byte of shared memory. -/
def hostMemWrite (a : Word) (v : Byte) (s : State) : Result :=
  hostMemAccess a s (.next { s with mem := s.mem.write a.toNat v })

/-- A host read of one byte of shared memory. -/
def hostMemRead (a : Word) (s : State) : Result :=
  hostMemAccess a s (.next { s with rdata := (s.mem.read a.toNat).setWidth 64 })

/-! ### Reset (R350 to R352) -/

/-- The destination range of the pending command, as far as it lies in memory (R352). -/
def State.abandonedRange (s : State) : Buf :=
  match s.pending with
  | none => { addr := 0, size := 0 }
  | some p =>
    match decode s.cfg.hasHexDump p.word with
    | .reserved _ => { addr := 0, size := 0 }
    | .command i =>
      { addr := (dstRange i p).addr, size := min (dstRange i p).size (memSize - (dstRange i p).addr) }

/-- `count` free bytes, from the free value with index `first` on (R352; log 4). -/
def drawnBytes (first count : Nat) : List Byte :=
  (List.range count).map fun k => Config.drawByte (first + k)

/-- The platform's reset: an abandoned command leaves draws in its destination range (R352), every
register gets its reset value (R350), memory is otherwise unchanged. -/
def State.platformReset (s : State) : State :=
  { State.resetWith s.cfg with
    mem := s.mem.writeBytes s.abandonedRange.addr (drawnBytes s.draws s.abandonedRange.size)
    draws := s.draws + s.abandonedRange.size
    host := s.host
    rdata := s.rdata }

/-! ### One step of the machine -/

/-- The state once the host's first planned step is taken off its list. -/
def State.tail (s : State) : State := { s with host := s.host.tail }

/-- One step (R18, R320): the move the host's list names; the engine's when the list is used up
(fairness, R102). A WAIT holds the host until BUSY = 0, and only the engine moves meanwhile (R321). DESIGN
CHOICE (logs 6 and 7): `rdata` gets the STATUS value of the WAIT's last read, the one that finds
BUSY = 0; the reads of R83 before it are not recorded. -/
def stepOnce (s : State) : Result :=
  match s.host with
  | [] => engineStep s
  | .engine :: _ => engineStep s.tail
  | .wait :: _ => if s.busy then engineStep s else .next { s.tail with rdata := s.statusWord }
  | .reset :: _ => .next s.tail.platformReset
  | .regWrite addr width v :: _ => hostRegWrite addr width v s.tail
  | .regRead addr width :: _ => hostRegRead addr width s.tail
  | .memWrite a v :: _ => hostMemWrite a v s.tail
  | .memRead a :: _ => hostMemRead a s.tail

/-- The state in which the engine's very next step runs the command word `w` (log 17): what an accepted
CMD write of `w` leaves (R26), with the optional unit present where `w` is one of its commands (R10), and
the engine to move. -/
def State.withCommand (s : State) (w : Word) : State :=
  { s.accept w with
    cfg := { s.cfg with hasHexDump := (opOf w == 0x1C#8 || opOf w == 0x1D#8) || s.cfg.hasHexDump }
    host := .engine :: s.host }

end Sys2Proof.Machine
end

