-- ==== Sys2Proof/Machine/Step.lean ====
section
/-! DEFINITION. The step of the machine, and placing a command word for the engine's next step. -/

namespace Sys2Proof.Machine

/-- One step: a host access, a reset or a whole engine command (R18). -/
def step (s : State) : Host.Outcome State Fault Refusal := stepOnce s

/-- The state with the command word `w mod 2^nbits` placed where the engine takes its next command from
(notes/assumptions/17.md). -/
def State.withFetchWord (s : State) (nbits w : Nat) : State :=
  s.withCommand (BitVec.ofNat 64 (w % 2 ^ nbits))

end Sys2Proof.Machine
end

