-- ==== Sys2Proof/Safety.lean ====
section
/-! DEFINITION. The terms claims are stated in: what a finished command leaves (40_common.md R104), where
a command wrote (20_memory.md R59), and the invariant every step keeps. -/

namespace Sys2Proof.Machine

/-- `finish(st, r, r2)` happened between `s` and `t` (R104), and CMD, OVR, the parameters and the host's
side are as before. Operand registers, memory and the free values' index are said apart. -/
def Finished (s t : State) (st : Status) (r r2 : Nat) : Prop :=
  t.err = st ∧ t.result = BitVec.ofNat 64 r ∧ t.result2 = BitVec.ofNat 64 r2 ∧ t.pending = none ∧
    t.cmd = s.cmd ∧ t.ovr = s.ovr ∧ t.cfg = s.cfg ∧ t.host = s.host ∧ t.rdata = s.rdata

/-- The operand registers and the free values' index are as before. -/
def OperandsKept (s t : State) : Prop := t.regs = s.regs ∧ t.draws = s.draws

/-- Every byte outside `[a, a + size)` reads as before (R59). -/
def KeptOutside (s t : State) (a size : Nat) : Prop :=
  ∀ b, ¬(a ≤ b ∧ b < a + size) → t.mem.read b = s.mem.read b

/-- Exactly the bytes `bs` were written at `a` (R13 `MemWrite`, R59). -/
def WroteAt (s t : State) (a : Nat) (bs : List Byte) : Prop :=
  t.mem.readBytes a bs.length = bs ∧ KeptOutside s t a bs.length

/-- The buffers of a command pass the null, range and overlap checks (R107 to R109). -/
def BuffersPass (i : Instr) (p : Snapshot) : Prop :=
  (srcRange i p).isNull = false ∧ (dstRange i p).isNull = false ∧
    (p.alphabet (alphaSel i) (alphaSize i)).isNull = false ∧
    (srcRange i p).outOfRange = false ∧ (dstRange i p).outOfRange = false ∧
    (p.alphabet (alphaSel i) (alphaSize i)).outOfRange = false ∧
    (dstRange i p).overlaps (srcRange i p) = false ∧
    (dstRange i p).overlaps (p.alphabet (alphaSel i) (alphaSize i)) = false

/-- A command that reads memory only: it finishes OK with its results, and nothing else changes. -/
def ReadsOnly (s t : State) (r r2 : Nat) : Prop :=
  Finished s t .ok r r2 ∧ OperandsKept s t ∧ t.mem = s.mem

/-- A failed command that wrote nothing (R59, R112). -/
def FailedCleanly (s t : State) (st : Status) (r : Nat) : Prop :=
  Finished s t st r 0 ∧ OperandsKept s t ∧ t.mem = s.mem

/-- A command that finished OK after writing exactly `bs` at its destination (R59). -/
def Stored (s t : State) (bs : List Byte) (r : Nat) : Prop :=
  Finished s t .ok r 0 ∧ OperandsKept s t ∧ WroteAt s t s.snap.regs.dstAddr.toNat bs

/-- The address of the running command's destination. -/
def dstAt (s : State) : Nat := s.snap.regs.dstAddr.toNat

/-- Byte `k` of the running command's source. -/
def srcByte (s : State) (k : Nat) : Byte := s.mem.read (s.snap.regs.srcAddr.toNat + k)

/-- The number whose binary digits, the first the most significant, are `f first, f (first + 1), ...`. -/
def bitsFrom (f : Nat → Nat) (first count : Nat) : Nat :=
  (List.range count).foldl (fun acc e => 2 * acc + f (first + e)) 0

/-- Bit `b` of the source, counted MSB-first across byte boundaries, 0 past its end (R176, R205). -/
def srcBit (s : State) (b : Nat) : Nat :=
  if b < 8 * s.snap.n then (srcByte s (b / 8)).toNat / 2 ^ (7 - b % 8) % 2 else 0

/-- Bit `b` of a sequence of `k`-bit symbol values, counted MSB-first (R176, R205). -/
def symbolBit (k : Nat) (value : Nat → Nat) (b : Nat) : Nat := value (b / k) / 2 ^ (k - 1 - b % k) % 2

/-- The opcodes 30_encoding.md R78 lists as reserved. -/
def reservedOp (hasHexDump : Bool) (op : Nat) : Prop :=
  (0x01 ≤ op ∧ op ≤ 0x10) ∨ op = 0x12 ∨ (0x14 ≤ op ∧ op ≤ 0x17) ∨ op = 0x1A ∨ (0x1E ≤ op ∧ op ≤ 0x20) ∨
    op = 0x22 ∨ (0x24 ≤ op ∧ op ≤ 0x27) ∨ op = 0x2A ∨ (0x2C ≤ op ∧ op ≤ 0x30) ∨ op = 0x32 ∨
    (0x34 ≤ op ∧ op ≤ 0x37) ∨ op = 0x3A ∨ (0x3C ≤ op ∧ op ≤ 0x3F) ∨ (0x44 ≤ op ∧ op ≤ 0x47) ∨
    (0x4C ≤ op ∧ op ≤ 0x50) ∨ (0x54 ≤ op ∧ op ≤ 0x57) ∨ (0x5C ≤ op ∧ op ≤ 0x5F) ∨
    (0x63 ≤ op ∧ op ≤ 0x67) ∨ (0x6B ≤ op ∧ op ≤ 0xFF) ∨
    (hasHexDump = false ∧ (op = 0x1C ∨ op = 0x1D))

/-- The engine moves next: the host's list is used up or gives it the move (R101, R320). -/
def engineNext (s : State) : Prop := s.host = [] ∨ s.host.head? = some .engine

/-- The pending command has a buffer that reaches an address the platform cannot serve (R63). -/
def reachesUnserved (s : State) : Prop :=
  ∃ p i, s.pending = some p ∧ decode s.cfg.hasHexDump p.word = .command i ∧
    ∃ b ∈ usedRanges i p, reachesKind s.cfg .unserved b = true

/-- Byte `a` belongs to a buffer range of the pending command, at its declared size (R68). -/
def raced (s : State) (a : Nat) : Prop :=
  ∃ p i, s.pending = some p ∧ decode s.cfg.hasHexDump p.word = .command i ∧
    ((srcRange i p).has a = true ∨ (dstRange i p).has a = true ∨ (alphaRange i p).has a = true)

/-- Byte `a` lies in a region of the given kind (R62, R63). -/
def inRegion (cfg : Params) (kind : RegionKind) (a : Nat) : Prop :=
  ∃ r ∈ cfg.regions, r.kind = kind ∧ r.base ≤ a ∧ a < r.base + r.size

/-- The bits of CMD that a command word has no field for read 0 (R25). -/
def cmdFieldsOnly (s : State) : Bool := decide (s.cmd &&& ~~~cmdMask = 0#64)

/-- While a command is pending, its snapshot is what CMD and the operand registers hold (R21, R26, R29). -/
def pendingAgrees (s : State) : Bool :=
  match s.pending with
  | none => true
  | some p => decide (p = { word := s.cmd, regs := s.regs })

/-- STATUS.ERR holds a kind some command produces (R28). -/
def statusProducible (s : State) : Bool := decide (s.err ≠ .notPowerOfTwo)

/-- What every step keeps: memory in canonical form, CMD without reserved bits, the pending command equal
to the registers, a producible status. -/
def State.inv (s : State) : Bool :=
  s.mem.wf && cmdFieldsOnly s && pendingAgrees s && statusProducible s

end Sys2Proof.Machine
end

