-- ==== Sys2Proof/Certificates/Slice0/Obligations.lean ====
section
/-! DEFINITION. The statements for the provers, in the order of OBLIGATIONS.json. Each docstring names the
rule of spec/ it formalises. `s.snap` is the snapshot the running command takes its operands from;
`srcRange`, `dstRange` and `Snapshot.alphabet` are the buffers its meaning checks and uses. -/

open Sys2Proof Sys2Proof.Machine

/-! ### Encoding -/

/-- R70, R71, R72, R73, R74, R81, R82: decoding the encoded word of a command gives it back, with every
field at every value. -/
def Obligations.DecodeOfEncodeIsTheCommand : Prop :=
  ∀ i : Instr, i.wf = true →
    decode true (encode i) = .command i ∧
      (i.needsHexDump = false → decode false (encode i) = .command i)

/-- Command words printed in 95_test_vectors.md and in the rules decode to the commands they stand for. -/
def Obligations.DecodeReadsTheSpecsCommandWords : Prop :=
  decode true 0x0000000000000433#64 = .command (.b64Encode .b64Std) ∧
  decode true 0x0000000000001061#64 = .command (.encU32 .little) ∧
  decode true 0x000000000000206A#64 = .command (.decU64 (.unsupported 2#2)) ∧
  decode true 0x000000000000401D#64 = .command (.hexDump true) ∧
  decode false 0x000000000000401D#64 = .reserved 0x1D#8 ∧
  decode true 0x0000000000000723#64 = .command (.b32Encode (.reserved 7#4)) ∧
  decode true 0x0000000000000929#64 = .command .b32Declen ∧
  decode true 0x0000000000003F13#64 = .command .hexEncode ∧
  decode true 0xFFFFFFFFFFFF0000#64 = .command .nop ∧
  decode true 0x000000000000004B#64 = .command .u8Decode ∧
  decode true 0x0000000000000053#64 = .command .u16Encode ∧
  decode true 0x00000000000000FF#64 = .reserved 0xFF#8

/-- R80: the meaning of a command word depends only on bits [14:0] and HAS_HEXDUMP. -/
def Obligations.DecodeDependsOnlyOnTheLowFifteenBits : Prop :=
  ∀ (hasHexDump : Bool) (w v : Word), (∀ j, j < 15 → w.getLsbD j = v.getLsbD j) →
    decode hasHexDump w = decode hasHexDump v

/-- R71, R78: exactly the listed opcodes are reserved; every other word selects a command. -/
def Obligations.ReservedOpcodesAreTheListedOnes : Prop :=
  ∀ (hasHexDump : Bool) (w : Word),
    (reservedOp hasHexDump (opOf w).toNat → decode hasHexDump w = .reserved (opOf w)) ∧
      (¬reservedOp hasHexDump (opOf w).toNat →
        ∃ i : Instr, i.wf = true ∧ i.opcode = opOf w ∧ decode hasHexDump w = .command i)

/-- R121, R78: an accepted reserved opcode finishes with InvalidArgument and touches nothing. -/
def Obligations.ReservedOpcodeFinishesInvalidArgument : Prop :=
  ∀ (s : State) (p : Snapshot), s.pending = some p → engineNext s →
    reservedOp s.cfg.hasHexDump (opOf p.word).toNat →
      ∃ t, step s = .next t ∧ FailedCleanly s.tail t .invalidArgument 0

/-! ### The machine's step and its interface -/

/-- R81, R101, R103, R321: when the engine moves and the command's buffers lie in ordinary memory that the
platform serves, the step is `exec` of the command the pending word decodes to; the host's list loses its
`engine` entry, and keeps a WAIT. -/
def Obligations.StepRunsThePendingCommand : Prop :=
  ∀ (s : State) (p : Snapshot) (i : Instr), s.pending = some p →
    decode s.cfg.hasHexDump p.word = .command i →
    (∀ b ∈ usedRanges i p, reachesKind s.cfg .sideEffecting b = false ∧
      reachesKind s.cfg .unserved b = false) →
    (s.host = [] → step s = exec i s) ∧
      (∀ rest, s.host = .engine :: rest → step s = exec i { s with host := rest }) ∧
      (∀ rest, s.host = .wait :: rest → step s = exec i s)

/-- R62, R63, R327: a command with a buffer on side-effecting memory is refused. One with a buffer the platform
cannot serve is stuck: it has no engine step, so the engine's turn changes nothing, BUSY stays 1, and a WAIT on it
stays (log 13: which buffers count, and that the refusal comes first, are the model's). -/
def Obligations.CommandOffOrdinaryMemoryStops : Prop :=
  ∀ (s : State) (p : Snapshot) (i : Instr), s.pending = some p →
    decode s.cfg.hasHexDump p.word = .command i →
    ((∃ b ∈ usedRanges i p, reachesKind s.cfg .sideEffecting b = true) →
        engineNext s ∨ s.host.head? = some .wait → step s = .refused .sideEffectingMemory) ∧
      ((∀ b ∈ usedRanges i p, reachesKind s.cfg .sideEffecting b = false) →
        (∃ b ∈ usedRanges i p, reachesKind s.cfg .unserved b = true) →
        (engineNext s → step s = .next s.tail ∧ s.tail.busy = true ∧ s.tail.pending = some p) ∧
          (s.host.head? = some .wait → step s = .next s ∧ s.busy = true))

/-- R83, R101, R321, R327: with no command pending the engine is not enabled, and its turn changes nothing but
the host's list. A WAIT ends at once while BUSY = 0, and gives the host that STATUS value (logs 6 and 7). While
BUSY = 1 it is held, and the step is the engine's, which clears BUSY unless the command is stuck. -/
def Obligations.IdleEngineAndWaitSteps : Prop :=
  (∀ s : State, s.pending = none → engineNext s → step s = .next s.tail) ∧
  ∀ (s : State) (rest : List HostStep), s.host = .wait :: rest →
    (s.busy = false → step s = .next { s with host := rest, rdata := s.statusWord }) ∧
      (s.busy = true → step s = engineStep s ∧
        ∀ t, step s = .next t → t.host = .wait :: rest ∧
          (t.busy = false ∨ (t = s ∧ reachesUnserved s)))

/-- R26: an accepted CMD write keeps bits [14:0], sets BUSY, clears OVR, takes the snapshot, and leaves
everything else, STATUS.ERR among it. -/
def Obligations.CmdWriteWhileIdleIsAccepted : Prop :=
  ∀ (s : State) (w : Word) (rest : List HostStep), s.busy = false →
    s.host = .regWrite (regAddr s.cfg 0x00#8) 8 w :: rest →
      ∃ t, step s = .next t ∧ t.busy = true ∧
        t = { s with
          host := rest, cmd := w &&& 0x7FFF#64, ovr := false
          pending := some { word := w &&& 0x7FFF#64, regs := s.regs } }

/-- R29: a CMD write while BUSY = 1 only sets OVR. -/
def Obligations.CmdWriteWhileBusyOnlySetsOverrun : Prop :=
  ∀ (s : State) (w : Word) (rest : List HostStep), s.busy = true →
    s.host = .regWrite (regAddr s.cfg 0x00#8) 8 w :: rest → step s = .next { s with host := rest, ovr := true }

/-- R20, R21, R22, R27: an operand register takes a host write while BUSY = 0; a host write is ignored to an
operand register while BUSY = 1, and always to STATUS, RESULT, RESULT2 and the reserved offsets. -/
def Obligations.RegisterWritesAreStoredOrIgnored : Prop :=
  (∀ (s : State) (v : Word) (rest : List HostStep), s.busy = false →
    (s.host = .regWrite (regAddr s.cfg 0x10#8) 8 v :: rest →
      step s = .next { s with host := rest, regs := { s.regs with srcAddr := v } }) ∧
    (s.host = .regWrite (regAddr s.cfg 0x18#8) 8 v :: rest →
      step s = .next { s with host := rest, regs := { s.regs with srcLen := v } }) ∧
    (s.host = .regWrite (regAddr s.cfg 0x20#8) 8 v :: rest →
      step s = .next { s with host := rest, regs := { s.regs with dstAddr := v } }) ∧
    (s.host = .regWrite (regAddr s.cfg 0x28#8) 8 v :: rest →
      step s = .next { s with host := rest, regs := { s.regs with dstLen := v } }) ∧
    (s.host = .regWrite (regAddr s.cfg 0x30#8) 8 v :: rest →
      step s = .next { s with host := rest, regs := { s.regs with alphaAddr := v } }) ∧
    (s.host = .regWrite (regAddr s.cfg 0x38#8) 8 v :: rest →
      step s = .next { s with host := rest, regs := { s.regs with arg := v } }) ∧
    (s.host = .regWrite (regAddr s.cfg 0x40#8) 8 v :: rest →
      step s = .next { s with host := rest, regs := { s.regs with offset := v } })) ∧
  (∀ (s : State) (off : BitVec 8) (v : Word) (rest : List HostStep),
    s.host = .regWrite (regAddr s.cfg off) 8 v :: rest → off.toNat % 8 = 0 →
    (s.busy = true ∧ 0x10 ≤ off.toNat ∧ off.toNat ≤ 0x40) ∨ off = 0x08#8 ∨ 0x48 ≤ off.toNat →
      step s = .next { s with host := rest })

/-- R20, R21, R25, R27, R320: a host read returns the register's current value, 0 at the reserved offsets,
and changes nothing of the block. -/
def Obligations.RegisterReadsReturnCurrentValues : Prop :=
  ∀ (s : State) (off : BitVec 8) (rest : List HostStep),
    s.host = .regRead (regAddr s.cfg off) 8 :: rest → off.toNat % 8 = 0 →
      ∃ v, step s = .next { s with host := rest, rdata := v } ∧
        (off = 0x00#8 → v = s.cmd) ∧ (off = 0x08#8 → v = s.statusWord) ∧
        (off = 0x10#8 → v = s.regs.srcAddr) ∧ (off = 0x18#8 → v = s.regs.srcLen) ∧
        (off = 0x20#8 → v = s.regs.dstAddr) ∧ (off = 0x28#8 → v = s.regs.dstLen) ∧
        (off = 0x30#8 → v = s.regs.alphaAddr) ∧ (off = 0x38#8 → v = s.regs.arg) ∧
        (off = 0x40#8 → v = s.regs.offset) ∧ (off = 0x48#8 → v = s.result) ∧
        (off = 0x50#8 → v = s.result2) ∧ (0x58 ≤ off.toNat → v = 0#64)

/-- R27, R28, R33: the fields of STATUS: BUSY is 1 exactly while a command is pending. -/
def Obligations.StatusWordHasTheStatedFields : Prop :=
  ∀ (s : State) (j : Nat),
    s.statusWord.getLsbD j =
      if j = 0 then s.pending.isSome
      else if j = 1 then s.ovr
      else if 8 ≤ j ∧ j ≤ 10 then
        (match s.err with
          | .ok => 0
          | .invalidNullPointer => 1
          | .invalidArgument => 2
          | .bufferTooSmall => 3
          | .notPowerOfTwo => 4 : Nat).testBit (j - 8)
      else false

/-- R50, R61, R62, R63, R68, R326: which host accesses stop, and what the others do. A register access at an
offset of the window that is not a naturally aligned 64-bit access faults, and so does one outside the window (log
16, the model's choice). A memory access of a byte of the pending command's source, destination or alphabet range,
at their declared sizes (log 12), is a race. With no such byte (nothing pending, a reserved opcode pending, or
another byte), it has its effect in ordinary memory, is refused on memory with side effects, and faults at an
unserved address (log 13). -/
def Obligations.HostAccessFaults : Prop :=
  (∀ (s : State) (addr : Word) (width : Nat) (v : Word) (rest : List HostStep),
    (s.host = .regWrite addr width v :: rest ∨ s.host = .regRead addr width :: rest) →
      (∀ off : BitVec 8, addr = regAddr s.cfg off → width ≠ 8 ∨ off.toNat % 8 ≠ 0 →
        step s = .fault .unsupportedHostAccess) ∧
      ((∀ off : BitVec 8, addr ≠ regAddr s.cfg off) → step s = .fault .outsideWindow)) ∧
  ∀ (s : State) (a : Word) (v : Byte) (rest : List HostStep),
    (s.host = .memWrite a v :: rest ∨ s.host = .memRead a :: rest) →
      (raced s a.toNat → step s = .fault .hostBufferRace) ∧
      (¬raced s a.toNat → inRegion s.cfg .sideEffecting a.toNat →
        step s = .refused .sideEffectingMemory) ∧
      (¬raced s a.toNat → ¬inRegion s.cfg .sideEffecting a.toNat → inRegion s.cfg .unserved a.toNat →
        step s = .fault .unservedAddress) ∧
      (¬raced s a.toNat → ¬inRegion s.cfg .sideEffecting a.toNat → ¬inRegion s.cfg .unserved a.toNat →
        (s.host = .memWrite a v :: rest →
          step s = .next { s with host := rest, mem := s.mem.write a.toNat v }) ∧
        (s.host = .memRead a :: rest →
          step s = .next { s with host := rest, rdata := (s.mem.read a.toNat).setWidth 64 }))

/-- R36, R350: what reset leaves. Memory and the parameters have no value the spec states; this says none of
them. -/
def Obligations.ResetLeavesTheStatedValues : Prop :=
  State.reset.cmd = 0#64 ∧ State.reset.statusWord = 0#64 ∧ State.reset.regs.srcAddr = 0#64 ∧
    State.reset.regs.srcLen = 0#64 ∧ State.reset.regs.dstAddr = 0#64 ∧ State.reset.regs.dstLen = 0#64 ∧
    State.reset.regs.alphaAddr = 0#64 ∧ State.reset.regs.arg = 0#64 ∧ State.reset.regs.offset = 0#64 ∧
    State.reset.result = 0#64 ∧ State.reset.result2 = 0#64 ∧ State.reset.pending = none

/-- R350, R352: the platform's reset gives every register its reset value, abandons a pending command, and
changes no byte outside that command's destination range: none at all where nothing is pending, and none where a
reserved opcode is (R78 touches no memory; DEDUCED, log 4). -/
def Obligations.ResetDuringACommandAbandonsIt : Prop :=
  ∀ (s : State) (rest : List HostStep), s.host = .reset :: rest →
    ∃ t, step s = .next t ∧ t.cmd = 0#64 ∧ t.regs = OpRegs.reset ∧ t.result = 0#64 ∧ t.result2 = 0#64 ∧
      t.statusWord = 0#64 ∧ t.pending = none ∧ t.cfg = s.cfg ∧ t.host = rest ∧
      (s.pending = none → t.mem = s.mem) ∧
      (∀ p, s.pending = some p → (∃ op, decode s.cfg.hasHexDump p.word = .reserved op) → t.mem = s.mem) ∧
      (∀ p i, s.pending = some p → decode s.cfg.hasHexDump p.word = .command i →
        KeptOutside s t (dstRange i p).addr (dstRange i p).size)

/-! ### All commands -/

/-- R102, R114, R116, R326: every command finishes, but for HEX_DECODE on a byte that is no hex digit, and
B32_DECODE and B64_DECODE on a non-pad symbol without a value. -/
def Obligations.EveryCommandFinishesOrMeetsUndefinedInput : Prop :=
  ∀ (i : Instr) (s : State),
    (∃ t, exec i s = .next t ∧ t.busy = false) ∨
      (exec i s = .fault .undefinedInput ∧
        ((i = .hexDecode ∧ s.snap.n % 2 = 0 ∧ ∃ k, k < s.snap.n ∧ isHex (srcByte s k) = false) ∨
          (∃ alpha k, i = .b32Decode alpha ∧ k < s.snap.n - padCount s.srcBytes ∧
            (if alpha = .b32Crockford then crockfordValue (srcByte s k)
              else symbolValue (s.table alpha 32) (srcByte s k)) = none) ∨
          ∃ alpha k, i = .b64Decode alpha ∧ k < s.snap.n - padCount s.srcBytes ∧
            srcByte s k ∉ s.table alpha 64))

/-- R59, R104: the frame of every command: CMD, OVR, the parameters, the host's side and every operand
register but OFFSET are as before, and so is every byte outside the destination range. -/
def Obligations.CommandsKeepEverythingButResultsAndDestination : Prop :=
  ∀ (i : Instr) (s t : State), exec i s = .next t →
    t.pending = none ∧ t.cmd = s.cmd ∧ t.ovr = s.ovr ∧ t.cfg = s.cfg ∧ t.host = s.host ∧
      t.rdata = s.rdata ∧ t.regs = { s.regs with offset := t.regs.offset } ∧
      (i ≠ .hexDeclen → t.draws = s.draws) ∧
      KeptOutside s t (dstRange i s.snap).addr (dstRange i s.snap).size

/-- R59, R250: a command that finishes with a non-OK status writes no byte; only U8_DECODE may, and then
every byte of its destination reads 0. -/
def Obligations.FailedCommandsWriteNothing : Prop :=
  ∀ (i : Instr) (s t : State), s.mem.wf = true → exec i s = .next t → t.err ≠ .ok →
    t.mem = s.mem ∨ (i = .u8Decode ∧ ∀ a, (dstRange i s.snap).has a = true → t.mem.read a = 0#8)

/-- R23: OFFSET is written only by a HEX_DUMP with USE_OFF = 1 that finishes with OK, and then holds the
advanced running address (R306). -/
def Obligations.OnlyASuccessfulDumpWritesOffset : Prop :=
  (∀ (i : Instr) (s t : State), exec i s = .next t →
    (i = .hexDump true ∧ t.err = .ok →
      t.regs.offset = BitVec.ofNat 64 (s.snap.regs.offset.toNat + s.snap.n)) ∧
    (¬(i = .hexDump true ∧ t.err = .ok) → t.regs.offset = s.regs.offset)) ∧
  ∀ s : State, s.reservedOpcode.regs.offset = s.regs.offset

/-- R54: no command, no register and no host step switches NATIVE_ORDER. That the other parameters and the memory
map stand beside it in `cfg`, which no step writes either, is the model's choice (log 2). -/
def Obligations.NoStepChangesTheParameters : Prop :=
  ∀ s t : State, step s = .next t →
    t.cfg.nativeOrder = s.cfg.nativeOrder ∧ t.cfg = s.cfg

/-- R25, R28, R33, R21, 60_exceptions.md R323: every step keeps the invariant `State.inv`: memory in
canonical form, CMD's reserved bits 0, the pending snapshot equal to CMD and the operand registers, and
STATUS.ERR a kind some command produces. -/
def Obligations.EveryStepKeepsTheInvariant : Prop :=
  ∀ s t : State, s.inv = true → step s = .next t → t.inv = true

/-- The reset state meets `State.inv`. -/
def Obligations.ResetMeetsTheInvariant : Prop := State.reset.inv = true

/-- R105: a command's outcome depends only on its snapshot, the bytes of its read ranges and the parameters. Two
states that agree on these get the same status, results and OFFSET, and every byte afterwards is the same in both,
or is in both what it was. HEX_DECLEN with odd n is the one exception R105 names. -/
def Obligations.OutcomeDependsOnlyOnReadRanges : Prop :=
  ∀ (i : Instr) (s s' : State), s.snap = s'.snap → s.cfg = s'.cfg → s.regs = s'.regs →
    s.mem.wf = true → s'.mem.wf = true →
    (∀ a, (srcRange i s.snap).has a = true ∨ (s.snap.alphabet (alphaSel i) (alphaSize i)).has a = true →
      s.mem.read a = s'.mem.read a) →
    (i = .hexDeclen → s.snap.n % 2 = 0) →
    (∀ t, exec i s = .next t → ∃ t', exec i s' = .next t' ∧ t'.err = t.err ∧ t'.result = t.result ∧
      t'.result2 = t.result2 ∧ t'.regs = t.regs ∧
      ∀ a, t.mem.read a = t'.mem.read a ∨
        (t.mem.read a = s.mem.read a ∧ t'.mem.read a = s'.mem.read a)) ∧
    (∀ f, exec i s = .fault f → exec i s' = .fault f)

/-- R106, R107, R112: a null buffer ends a command in phase 1, before every other check; the two code-point
decodes report 0xFFFD. -/
def Obligations.NullBufferFailsFirst : Prop :=
  ∀ (i : Instr) (s : State),
    (srcRange i s.snap).isNull = true ∨ (dstRange i s.snap).isNull = true ∨
        (s.snap.alphabet (alphaSel i) (alphaSize i)).isNull = true →
      ∃ t, exec i s = .next t ∧
        FailedCleanly s t .invalidNullPointer (if i = .u8Cpdec ∨ i = .u16Cpdec then 0xFFFD else 0)

/-- R106, R108, R109, R112: with no null buffer, a buffer that does not fit in memory, or a destination that
shares a byte with the source or the alphabet, gives InvalidArgument. -/
def Obligations.BadRangeOrOverlapIsInvalidArgument : Prop :=
  ∀ (i : Instr) (s : State),
    (srcRange i s.snap).isNull = false → (dstRange i s.snap).isNull = false →
    (s.snap.alphabet (alphaSel i) (alphaSize i)).isNull = false →
    (srcRange i s.snap).outOfRange = true ∨ (dstRange i s.snap).outOfRange = true ∨
        (s.snap.alphabet (alphaSel i) (alphaSize i)).outOfRange = true ∨
        (∃ a, (dstRange i s.snap).has a = true ∧
          ((srcRange i s.snap).has a = true ∨
            (s.snap.alphabet (alphaSel i) (alphaSize i)).has a = true)) →
      ∃ t, exec i s = .next t ∧
        FailedCleanly s t .invalidArgument (if i = .u8Cpdec ∨ i = .u16Cpdec then 0xFFFD else 0)

/-- R77, R79: an ALPHA value a base32 or base64 command does not accept gives InvalidArgument, after the
null check. -/
def Obligations.IllegalAlphabetIsInvalidArgument : Prop :=
  ∀ (i : Instr) (s : State) (alpha : AlphaSel),
    (srcRange i s.snap).isNull = false → (dstRange i s.snap).isNull = false →
    ((i = .b32Encode alpha ∨ i = .b32Valid alpha ∨ i = .b32Decode alpha) ∧
        (alpha = .b64Std ∨ alpha = .b64Url ∨ ∃ code, alpha = .reserved code)) ∨
      ((i = .b64Encode alpha ∨ i = .b64Valid alpha ∨ i = .b64Decode alpha) ∧
        (alpha = .b32Rfc4648 ∨ alpha = .b32Hex ∨ alpha = .b32Crockford ∨
          ∃ code, alpha = .reserved code)) →
      ∃ t, exec i s = .next t ∧ FailedCleanly s t .invalidArgument 0

/-! ### No unit, base16 and hex_dump -/

/-- R120: NOP finishes OK with results 0, whatever the operands; its word's other fields are ignored; an
accepted write clears OVR. -/
def Obligations.NopFinishesOk : Prop :=
  (∀ s : State, ∃ t, exec .nop s = .next t ∧ ReadsOnly s t 0 0) ∧
    (∀ (hasHexDump : Bool) (w : Word), opOf w = 0x00#8 → decode hasHexDump w = .command .nop) ∧
    (∀ (s : State) (w : Word), (s.accept w).ovr = false)

/-- R110, R153, R177, R207, R304, R156: HEX_ENCLEN, B32_ENCLEN, B64_ENCLEN and HEX_DUMPLEN report the encoded
length, or the dump length, of `n` bytes, or InvalidArgument where it does not fit in 64 bits. HEX_DECLEN
reports `n / 2` for even n; for odd n it finishes OK too, with a RESULT nothing is said of (a free value), and
writes nothing. -/
def Obligations.LengthCommandsReportLengths : Prop :=
  ∀ s : State,
    (∃ t, exec .hexEnclen s = .next t ∧
      (2 * s.snap.n < 2 ^ 64 → ReadsOnly s t (2 * s.snap.n) 0) ∧
      (2 ^ 64 ≤ 2 * s.snap.n → FailedCleanly s t .invalidArgument 0)) ∧
    (∃ t, exec .b32Enclen s = .next t ∧
      (8 * ((s.snap.n + 4) / 5) < 2 ^ 64 → ReadsOnly s t (8 * ((s.snap.n + 4) / 5)) 0) ∧
      (2 ^ 64 ≤ 8 * ((s.snap.n + 4) / 5) → FailedCleanly s t .invalidArgument 0)) ∧
    (∃ t, exec .b64Enclen s = .next t ∧
      (4 * ((s.snap.n + 2) / 3) < 2 ^ 64 → ReadsOnly s t (4 * ((s.snap.n + 2) / 3)) 0) ∧
      (2 ^ 64 ≤ 4 * ((s.snap.n + 2) / 3) → FailedCleanly s t .invalidArgument 0)) ∧
    (∃ t, exec .hexDumplen s = .next t ∧
      ∀ r, r = 79 * (s.snap.n / 16) + (if s.snap.n % 16 = 0 then 0 else 63 + s.snap.n % 16) →
        (r < 2 ^ 64 → ReadsOnly s t r 0) ∧ (2 ^ 64 ≤ r → FailedCleanly s t .invalidArgument 0)) ∧
    (s.snap.n % 2 = 0 → ∃ t, exec .hexDeclen s = .next t ∧ ReadsOnly s t (s.snap.n / 2) 0) ∧
    (s.snap.n % 2 = 1 → ∃ t v, exec .hexDeclen s = .next t ∧ Finished s t .ok v 0 ∧ t.regs = s.regs ∧
      t.mem = s.mem)

/-- R110, R111, R150, R154: HEX_ENCODE writes two digits for each byte, high nibble first, in the case HEX_CASE,
exactly `2 * SRC_LEN` bytes; a length of 2^64 or more gives InvalidArgument, then a destination too small
BufferTooSmall, and nothing is written. The first clause is the digit table, as ASCII values. -/
def Obligations.HexEncodeWritesTwoDigitsPerByte : Prop :=
  (∀ v, v < 16 →
    (digit .lower v).toNat = (if v < 10 then 0x30 + v else 0x61 + (v - 10)) ∧
    (digit .upper v).toNat = (if v < 10 then 0x30 + v else 0x41 + (v - 10))) ∧
  ∀ s : State, s.mem.wf = true → BuffersPass .hexEncode s.snap →
    (2 * s.snap.n ≤ s.snap.capacity →
      ∃ t, exec .hexEncode s = .next t ∧ Finished s t .ok 0 0 ∧ OperandsKept s t ∧
        (∀ k, k < s.snap.n →
          t.mem.read (dstAt s + 2 * k) = digit s.cfg.hexCase ((srcByte s k).toNat / 16) ∧
          t.mem.read (dstAt s + 2 * k + 1) = digit s.cfg.hexCase ((srcByte s k).toNat % 16)) ∧
        KeptOutside s t (dstAt s) (2 * s.snap.n)) ∧
    (2 ^ 64 ≤ 2 * s.snap.n → ∃ t, exec .hexEncode s = .next t ∧ FailedCleanly s t .invalidArgument 0) ∧
    (2 * s.snap.n < 2 ^ 64 → s.snap.capacity < 2 * s.snap.n →
      ∃ t, exec .hexEncode s = .next t ∧ FailedCleanly s t .bufferTooSmall 0)

/-- R151, R155: HEX_VALID gives 1 exactly when the length is even and every byte is an ASCII hex digit. -/
def Obligations.HexValidTestsLengthAndDigits : Prop :=
  ∀ s : State, BuffersPass .hexValid s.snap →
    ∃ t r, exec .hexValid s = .next t ∧ ReadsOnly s t r 0 ∧ r ≤ 1 ∧
      (r = 1 ↔ s.snap.n % 2 = 0 ∧ ∀ k, k < s.snap.n →
        (0x30 ≤ (srcByte s k).toNat ∧ (srcByte s k).toNat ≤ 0x39) ∨
        (0x41 ≤ (srcByte s k).toNat ∧ (srcByte s k).toNat ≤ 0x46) ∨
        (0x61 ≤ (srcByte s k).toNat ∧ (srcByte s k).toNat ≤ 0x66))

/-- R111, R114, R151, R157: on an even text of hex digits HEX_DECODE writes one byte for each pair, high nibble first,
exactly `SRC_LEN / 2` bytes; a byte that is no hex digit is UndefinedInput. An odd length gives InvalidArgument
first, whatever the bytes, then too small a destination gives BufferTooSmall. The first clause is the nibble
table, on ASCII values. -/
def Obligations.HexDecodeCombinesPairs : Prop :=
  (∀ c : Byte, isHex c = (nib c).isSome ∧ nib c =
    if 0x30 ≤ c.toNat ∧ c.toNat ≤ 0x39 then some (c.toNat - 0x30)
    else if 0x41 ≤ c.toNat ∧ c.toNat ≤ 0x46 then some (c.toNat - 0x41 + 10)
    else if 0x61 ≤ c.toNat ∧ c.toNat ≤ 0x66 then some (c.toNat - 0x61 + 10)
    else none) ∧
  ∀ s : State, s.mem.wf = true → BuffersPass .hexDecode s.snap →
    (s.snap.n % 2 = 1 → ∃ t, exec .hexDecode s = .next t ∧ FailedCleanly s t .invalidArgument 0) ∧
    (s.snap.n % 2 = 0 → s.snap.capacity < s.snap.n / 2 →
      ∃ t, exec .hexDecode s = .next t ∧ FailedCleanly s t .bufferTooSmall 0) ∧
    (s.snap.n % 2 = 0 → s.snap.n / 2 ≤ s.snap.capacity →
      ((∀ k, k < s.snap.n → isHex (srcByte s k) = true) →
        ∃ t, exec .hexDecode s = .next t ∧ Finished s t .ok 0 0 ∧ OperandsKept s t ∧
          (∀ j, j < s.snap.n / 2 → ∃ h l, nib (srcByte s (2 * j)) = some h ∧
            nib (srcByte s (2 * j + 1)) = some l ∧
            (t.mem.read (dstAt s + j)).toNat = h * 16 + l) ∧
          KeptOutside s t (dstAt s) (s.snap.n / 2)) ∧
      ((∃ k, k < s.snap.n ∧ isHex (srcByte s k) = false) → exec .hexDecode s = .fault .undefinedInput))

/-- R158: HEX_ENCODE of a byte sequence produces twice its length; HEX_VALID of that output gives 1,
HEX_DECODE of it gives back the sequence, HEX_DECLEN of its length the length; for either HEX_CASE. -/
def Obligations.HexRoundTripThroughTheBlock : Prop :=
  ∀ s : State, s.mem.wf = true → BuffersPass .hexEncode s.snap → 2 * s.snap.n ≤ s.snap.capacity →
    ∃ t, exec .hexEncode s = .next t ∧ Finished s t .ok 0 0 ∧
      KeptOutside s t (dstAt s) (2 * s.snap.n) ∧
      ∀ u : State, u.mem = t.mem → u.snap.regs.srcAddr = s.snap.regs.dstAddr →
        u.snap.n = 2 * s.snap.n →
        (∃ v, exec .hexValid u = .next v ∧ ReadsOnly u v 1 0) ∧
        (∃ v, exec .hexDeclen u = .next v ∧ ReadsOnly u v s.snap.n 0) ∧
        (BuffersPass .hexDecode u.snap → s.snap.n ≤ u.snap.capacity →
          ∃ v, exec .hexDecode u = .next v ∧ Finished u v .ok 0 0 ∧
            v.mem.readBytes (dstAt u) s.snap.n = s.mem.readBytes s.snap.regs.srcAddr.toNat s.snap.n)

/-- R305, R306: HEX_DUMP finishes OK when its checks pass, writes exactly the `dump_length(SRC_LEN)` bytes of the
dump, and writes OFFSET with USE_OFF = 1 only. An address overflow, and a dump length that does not fit in 64
bits, give InvalidArgument; too small a destination gives BufferTooSmall; OFFSET and memory are as before. -/
def Obligations.HexDumpWritesItsTextAndOffset : Prop :=
  ∀ (s : State) (useOff : Bool) (start : Nat), s.mem.wf = true → BuffersPass (.hexDump useOff) s.snap →
    start = (if useOff then s.snap.regs.offset.toNat else 0) →
    (start + s.snap.n < 2 ^ 64 → dumpLength s.snap.n ≤ s.snap.capacity →
      ∃ t, exec (.hexDump useOff) s = .next t ∧ Finished s t .ok 0 0 ∧ t.draws = s.draws ∧
        t.regs = (if useOff then { s.regs with offset := BitVec.ofNat 64 (start + s.snap.n) } else s.regs) ∧
        WroteAt s t (dstAt s) (dumpText start s.srcBytes) ∧
        (dumpText start s.srcBytes).length = dumpLength s.snap.n) ∧
    (2 ^ 64 ≤ start + s.snap.n ∨ 2 ^ 64 ≤ dumpLength s.snap.n →
      ∃ t, exec (.hexDump useOff) s = .next t ∧ FailedCleanly s t .invalidArgument 0) ∧
    (start + s.snap.n < 2 ^ 64 → dumpLength s.snap.n < 2 ^ 64 → s.snap.capacity < dumpLength s.snap.n →
      ∃ t, exec (.hexDump useOff) s = .next t ∧ FailedCleanly s t .bufferTooSmall 0)

/-- R300, R301, R302, R303: the layout of a dump. Line `j` starts `79 * j` bytes in; its running address is
`start + 16 * j`; `c` is a column of it, `k = 16 * j + c` the byte that column shows, `r` the number of bytes
the line has. The first clause gives the digits' ASCII values (R150). -/
def Obligations.HexDumpTextHasTheStatedLayout : Prop :=
  (∀ v, v < 16 → (digit .lower v).toNat = if v < 10 then 0x30 + v else 0x61 + (v - 10)) ∧
  ∀ (s t : State) (useOff : Bool) (start j r : Nat), s.mem.wf = true →
    exec (.hexDump useOff) s = .next t → t.err = .ok →
    start = (if useOff then s.snap.regs.offset.toNat else 0) →
    16 * j < s.snap.n → r = min 16 (s.snap.n - 16 * j) →
    ∃ at_, at_ = dstAt s + 79 * j ∧
      (∀ d, d < 8 → t.mem.read (at_ + d) = digit .lower ((start + 16 * j) / 16 ^ (7 - d) % 16)) ∧
      (∀ d ∈ [8, 9, 34, 59], t.mem.read (at_ + d) = 0x20#8) ∧
      (∀ c x, c < 16 → x = at_ + 10 + 3 * c + (if 8 ≤ c then 1 else 0) →
        t.mem.read (x + 2) = 0x20#8 ∧
        (c < r → t.mem.read x = digit .lower ((srcByte s (16 * j + c)).toNat / 16) ∧
          t.mem.read (x + 1) = digit .lower ((srcByte s (16 * j + c)).toNat % 16)) ∧
        (r ≤ c → t.mem.read x = 0x20#8 ∧ t.mem.read (x + 1) = 0x20#8)) ∧
      t.mem.read (at_ + 60) = 0x7C#8 ∧
      (∀ c, c < r → t.mem.read (at_ + 61 + c) =
        if 0x1F < (srcByte s (16 * j + c)).toNat ∧ (srcByte s (16 * j + c)).toNat < 0x7F then
          srcByte s (16 * j + c) else 0x2E#8) ∧
      t.mem.read (at_ + 61 + r) = 0x7C#8 ∧ t.mem.read (at_ + 62 + r) = 0x0A#8

/-! ### base32 and base64 -/

/-- R174, R176, R178, R203, R205, R208: encode packs the source's bits MSB-first into 5-bit (6-bit) groups,
symbol `m` being the alphabet's entry at the number the bits from `5 * m` (`6 * m`) make, and fills the final
block with pad symbols; it writes exactly the encoded length. -/
def Obligations.RadixEncodePacksBitsIntoSymbols : Prop :=
  ∀ (s : State) (alpha : AlphaSel), s.mem.wf = true →
    (BuffersPass (.b32Encode alpha) s.snap →
      alpha ∈ [.custom, .b32Rfc4648, .b32Hex, .b32Crockford] →
      8 * ((s.snap.n + 4) / 5) ≤ s.snap.capacity →
      ∃ t, exec (.b32Encode alpha) s = .next t ∧ Finished s t .ok 0 0 ∧ OperandsKept s t ∧
        (∀ m, m < 8 * ((s.snap.n + 4) / 5) → t.mem.read (dstAt s + m) =
          if 5 * m < 8 * s.snap.n then (s.table alpha 32).getD (bitsFrom (srcBit s) (5 * m) 5) 0#8
          else 0x3D#8) ∧
        KeptOutside s t (dstAt s) (8 * ((s.snap.n + 4) / 5))) ∧
    (BuffersPass (.b64Encode alpha) s.snap → alpha ∈ [.custom, .b64Std, .b64Url] →
      4 * ((s.snap.n + 2) / 3) ≤ s.snap.capacity →
      ∃ t, exec (.b64Encode alpha) s = .next t ∧ Finished s t .ok 0 0 ∧ OperandsKept s t ∧
        (∀ m, m < 4 * ((s.snap.n + 2) / 3) → t.mem.read (dstAt s + m) =
          if 6 * m < 8 * s.snap.n then (s.table alpha 64).getD (bitsFrom (srcBit s) (6 * m) 6) 0#8
          else 0x3D#8) ∧
        KeptOutside s t (dstAt s) (4 * ((s.snap.n + 2) / 3)))

/-- R173, R179, R202, R209: VALID gives 1 exactly for the empty text, and for a text of whole blocks whose
trailing run of `'='` is within the format's maximum and whose other symbols lie in the alphabet. -/
def Obligations.RadixValidIsTheGenericTest : Prop :=
  ∀ (s : State) (alpha : AlphaSel) (pad : Nat),
    (pad ≤ s.snap.n ∧ (∀ k, s.snap.n - pad ≤ k → k < s.snap.n → srcByte s k = 0x3D#8) ∧
      (pad < s.snap.n → srcByte s (s.snap.n - pad - 1) ≠ 0x3D#8)) →
    (BuffersPass (.b32Valid alpha) s.snap → alpha ∈ [.custom, .b32Rfc4648, .b32Hex, .b32Crockford] →
      ∃ t r, exec (.b32Valid alpha) s = .next t ∧ ReadsOnly s t r 0 ∧ r ≤ 1 ∧
        (r = 1 ↔ s.snap.n = 0 ∨ (s.snap.n % 8 = 0 ∧ pad ≤ 6 ∧
          ∀ k, k < s.snap.n - pad → srcByte s k ∈ s.table alpha 32))) ∧
    (BuffersPass (.b64Valid alpha) s.snap → alpha ∈ [.custom, .b64Std, .b64Url] →
      ∃ t r, exec (.b64Valid alpha) s = .next t ∧ ReadsOnly s t r 0 ∧ r ≤ 1 ∧
        (r = 1 ↔ s.snap.n = 0 ∨ (s.snap.n % 4 = 0 ∧ pad ≤ 2 ∧
          ∀ k, k < s.snap.n - pad → srcByte s k ∈ s.table alpha 64)))

/-- R175, R180, R204, R210: the decoded lengths, with 5, 4, 3, 3, 2, 1, 1 bytes in a final base32 block of
0 to 6 pads; pure padding has length 0; a length that is no whole number of blocks, and more pads than the
maximum, give InvalidArgument. -/
def Obligations.RadixDecodedLengths : Prop :=
  ∀ (s : State) (pad : Nat),
    (pad ≤ s.snap.n ∧ (∀ k, s.snap.n - pad ≤ k → k < s.snap.n → srcByte s k = 0x3D#8) ∧
      (pad < s.snap.n → srcByte s (s.snap.n - pad - 1) ≠ 0x3D#8)) →
    (BuffersPass .b32Declen s.snap →
      ∃ t, exec .b32Declen s = .next t ∧
        (s.snap.n % 8 ≠ 0 → FailedCleanly s t .invalidArgument 0) ∧
        (s.snap.n % 8 = 0 → pad = s.snap.n → ReadsOnly s t 0 0) ∧
        (s.snap.n % 8 = 0 → pad < s.snap.n → 6 < pad → FailedCleanly s t .invalidArgument 0) ∧
        (s.snap.n % 8 = 0 → pad < s.snap.n → pad ≤ 6 →
          ReadsOnly s t ((s.snap.n / 8 - 1) * 5 + [5, 4, 3, 3, 2, 1, 1].getD pad 0) 0)) ∧
    (BuffersPass .b64Declen s.snap →
      ∃ t, exec .b64Declen s = .next t ∧
        (s.snap.n % 4 ≠ 0 → FailedCleanly s t .invalidArgument 0) ∧
        (s.snap.n % 4 = 0 → pad = s.snap.n → ReadsOnly s t 0 0) ∧
        (s.snap.n % 4 = 0 → pad < s.snap.n → 2 < pad → FailedCleanly s t .invalidArgument 0) ∧
        (s.snap.n % 4 = 0 → pad < s.snap.n → pad ≤ 2 →
          ReadsOnly s t (s.snap.n / 4 * 3 - pad) 0))

/-- R114, R171, R172, R173, R176, R181: B32_DECODE of a text that is no pure padding, with a decoded length
`need` that fits: if each non-pad symbol has a value it writes the first `need` bytes of the values' bits, pad
symbols valued 0; if one has none it is UndefinedInput. Pure padding finishes OK and writes nothing. The first
clause is `crock_val` on ASCII values: `u` is the byte with a letter in upper case; digits, then I and L, O, A to
H, J and K, M and N, P to T, V to Z; U, '-' and every other byte have none. The second is the least index. -/
def Obligations.B32DecodeUnpacksSymbols : Prop :=
  (∀ c : Byte, ∀ u, u = (if 0x61 ≤ c.toNat ∧ c.toNat ≤ 0x7A then c.toNat - 0x20 else c.toNat) →
    crockfordValue c =
      if 0x30 ≤ u ∧ u ≤ 0x39 then some (u - 0x30)
      else if u = 0x49 ∨ u = 0x4C then some 1
      else if u = 0x4F then some 0
      else if 0x41 ≤ u ∧ u ≤ 0x48 then some (u - 0x41 + 10)
      else if u = 0x4A ∨ u = 0x4B then some (u - 0x4A + 18)
      else if u = 0x4D ∨ u = 0x4E then some (u - 0x4D + 20)
      else if 0x50 ≤ u ∧ u ≤ 0x54 then some (u - 0x50 + 22)
      else if 0x56 ≤ u ∧ u ≤ 0x5A then some (u - 0x56 + 27)
      else none) ∧
  (∀ (table : List Byte) (c : Byte),
    symbolValue table c = if c ∈ table then some (table.idxOf c) else none) ∧
  ∀ (s : State) (alpha : AlphaSel) (need : Nat), s.mem.wf = true →
    BuffersPass (.b32Decode alpha) s.snap → alpha ∈ [.custom, .b32Rfc4648, .b32Hex, .b32Crockford] →
    decodedLength32 s.srcBytes = some need → need ≤ s.snap.capacity →
    (need = 0 → ∃ t, exec (.b32Decode alpha) s = .next t ∧ ReadsOnly s t 0 0) ∧
    (0 < need → ∀ value : Byte → Option Nat,
      (value = if alpha = .b32Crockford then crockfordValue else symbolValue (s.table alpha 32)) →
      ((∀ k, k < s.snap.n - padCount s.srcBytes → (value (srcByte s k)).isSome = true) →
        ∃ t, exec (.b32Decode alpha) s = .next t ∧ Finished s t .ok 0 0 ∧ OperandsKept s t ∧
          (∀ m, m < need → (t.mem.read (dstAt s + m)).toNat = bitsFrom (symbolBit 5 fun k =>
            if k < s.snap.n - padCount s.srcBytes then (value (srcByte s k)).getD 0 else 0) (8 * m) 8) ∧
          KeptOutside s t (dstAt s) need) ∧
      ((∃ k, k < s.snap.n - padCount s.srcBytes ∧ value (srcByte s k) = none) →
        exec (.b32Decode alpha) s = .fault .undefinedInput))

/-- R114, R201, R202, R205, R211: B64_DECODE, as B32_DECODE, with every alphabet's own values. -/
def Obligations.B64DecodeUnpacksSymbols : Prop :=
  ∀ (s : State) (alpha : AlphaSel) (need : Nat), s.mem.wf = true →
    BuffersPass (.b64Decode alpha) s.snap → alpha ∈ [.custom, .b64Std, .b64Url] →
    decodedLength64 s.srcBytes = some need → need ≤ s.snap.capacity →
    (need = 0 → ∃ t, exec (.b64Decode alpha) s = .next t ∧ ReadsOnly s t 0 0) ∧
    (0 < need →
      ((∀ k, k < s.snap.n - padCount s.srcBytes → srcByte s k ∈ s.table alpha 64) →
        ∃ t, exec (.b64Decode alpha) s = .next t ∧ Finished s t .ok 0 0 ∧ OperandsKept s t ∧
          (∀ m, m < need → (t.mem.read (dstAt s + m)).toNat = bitsFrom (symbolBit 6 fun k =>
            if k < s.snap.n - padCount s.srcBytes then (s.table alpha 64).idxOf (srcByte s k) else 0)
              (8 * m) 8) ∧
          KeptOutside s t (dstAt s) need) ∧
      ((∃ k, k < s.snap.n - padCount s.srcBytes ∧ srcByte s k ∉ s.table alpha 64) →
        exec (.b64Decode alpha) s = .fault .undefinedInput))

/-- R110, R111, R178, R181, R208, R211: the shape and capacity failures of encode and decode, in their order: an
encoded length that does not fit in 64 bits; a text that has no decoded length (a partial block, or too many
pads); then a destination too small. Nothing is written. -/
def Obligations.RadixShapeAndCapacityFailures : Prop :=
  ∀ (s : State) (enc dec : Instr) (len : Nat) (decLen : Option Nat),
    ((enc, dec, len, decLen) ∈ [AlphaSel.custom, .b32Rfc4648, .b32Hex, .b32Crockford].map (fun alpha =>
          (Instr.b32Encode alpha, Instr.b32Decode alpha, 8 * ((s.snap.n + 4) / 5),
            decodedLength32 s.srcBytes)) ∨
      (enc, dec, len, decLen) ∈ [AlphaSel.custom, .b64Std, .b64Url].map (fun alpha =>
          (Instr.b64Encode alpha, Instr.b64Decode alpha, 4 * ((s.snap.n + 2) / 3),
            decodedLength64 s.srcBytes))) →
    (BuffersPass enc s.snap → 2 ^ 64 ≤ len →
      ∃ t, exec enc s = .next t ∧ FailedCleanly s t .invalidArgument 0) ∧
    (BuffersPass enc s.snap → len < 2 ^ 64 → s.snap.capacity < len →
      ∃ t, exec enc s = .next t ∧ FailedCleanly s t .bufferTooSmall 0) ∧
    (BuffersPass dec s.snap → decLen = none →
      ∃ t, exec dec s = .next t ∧ FailedCleanly s t .invalidArgument 0) ∧
    (BuffersPass dec s.snap → ∀ need, decLen = some need → s.snap.capacity < need →
      ∃ t, exec dec s = .next t ∧ FailedCleanly s t .bufferTooSmall 0)

/-- R170, R182: the symbols of the built-in base32 tables, and the bytes a CUSTOM one has. For a distinct 32-byte
table without '=' (the three built-in ones are such), the text B32_ENCODE writes for `bs` is valid, has the decoded
length of `bs`, and decodes to `bs`; with the Crockford table by `crock_val` too. -/
def Obligations.Base32RoundTrip : Prop :=
  (∀ row ∈ [(AlphaSel.b32Rfc4648, "ABCDEFGHIJKLMNOPQRSTUVWXYZ234567"),
      (.b32Hex, "0123456789ABCDEFGHIJKLMNOPQRSTUV"),
      (.b32Crockford, "0123456789ABCDEFGHJKMNPQRSTVWXYZ")],
    (builtinTable row.1).map BitVec.toNat = row.2.toList.map Char.toNat ∧
      ∀ s : State, s.table row.1 32 = builtinTable row.1) ∧
  (∀ s : State, s.table .custom 32 = s.mem.readBytes s.snap.regs.alphaAddr.toNat 32) ∧
  (∀ alpha ∈ [AlphaSel.b32Rfc4648, .b32Hex, .b32Crockford],
    (builtinTable alpha).length = 32 ∧ (builtinTable alpha).Nodup ∧ padSymbol ∉ builtinTable alpha) ∧
  ∀ (table bs : List Byte), table.length = 32 → table.Nodup → padSymbol ∉ table →
    (encodeText base32 table bs).length = 8 * ((bs.length + 4) / 5) ∧
    padCount (encodeText base32 table bs) = [0, 6, 4, 3, 1].getD (bs.length % 5) 0 ∧
    radixValid base32 table (encodeText base32 table bs) = true ∧
    decodedLength32 (encodeText base32 table bs) = some bs.length ∧
    decodeText base32 (symbolValue table) (encodeText base32 table bs) bs.length = some bs ∧
    (table = builtinTable .b32Crockford →
      decodeText base32 crockfordValue (encodeText base32 table bs) bs.length = some bs)

/-- R200, R212: the symbols of the built-in base64 tables, and the bytes a CUSTOM one has; the laws of R182 for
base64. -/
def Obligations.Base64RoundTrip : Prop :=
  (∀ row ∈ [(AlphaSel.b64Std, "ABCDEFGHIJKLMNOPQRSTUVWXYZabcdefghijklmnopqrstuvwxyz0123456789+/"),
      (.b64Url, "ABCDEFGHIJKLMNOPQRSTUVWXYZabcdefghijklmnopqrstuvwxyz0123456789-_")],
    (builtinTable row.1).map BitVec.toNat = row.2.toList.map Char.toNat ∧
      ∀ s : State, s.table row.1 64 = builtinTable row.1) ∧
  (∀ s : State, s.table .custom 64 = s.mem.readBytes s.snap.regs.alphaAddr.toNat 64) ∧
  (∀ alpha ∈ [AlphaSel.b64Std, .b64Url],
    (builtinTable alpha).length = 64 ∧ (builtinTable alpha).Nodup ∧ padSymbol ∉ builtinTable alpha) ∧
  ∀ (table bs : List Byte), table.length = 64 → table.Nodup → padSymbol ∉ table →
    (encodeText base64 table bs).length = 4 * ((bs.length + 2) / 3) ∧
    padCount (encodeText base64 table bs) = [0, 2, 1].getD (bs.length % 3) 0 ∧
    radixValid base64 table (encodeText base64 table bs) = true ∧
    decodedLength64 (encodeText base64 table bs) = some bs.length ∧
    decodeText base64 (symbolValue table) (encodeText base64 table bs) bs.length = some bs

/-! ### UTF-8 -/

/-- R238, R240, R241: U8_CPSIZE reports the size of ARG[31:0] by the source's thresholds, or InvalidArgument
above 0x10FFFF; U8_ENCLEN reports the sum of the source's sizes, 3 for an invalid code point. -/
def Obligations.Utf8SizeCommands : Prop :=
  ∀ s : State,
    (∃ t, exec .u8Cpsize s = .next t ∧
      (s.snap.arg32 ≤ 0x7F → ReadsOnly s t 1 0) ∧
      (0x80 ≤ s.snap.arg32 → s.snap.arg32 ≤ 0x7FF → ReadsOnly s t 2 0) ∧
      (0x800 ≤ s.snap.arg32 → s.snap.arg32 ≤ 0xFFFF → ReadsOnly s t 3 0) ∧
      (0x10000 ≤ s.snap.arg32 → s.snap.arg32 ≤ 0x10FFFF → ReadsOnly s t 4 0) ∧
      (0x10FFFF < s.snap.arg32 → FailedCleanly s t .invalidArgument 0)) ∧
    (BuffersPass .u8Enclen s.snap → ∃ t, exec .u8Enclen s = .next t ∧
      ReadsOnly s t ((s.srcElems 4).map fun cp =>
        if cp ≤ 0x7F then 1 else if cp ≤ 0x7FF then 2 else if cp ≤ 0xFFFF then 3
        else if cp ≤ 0x10FFFF then 4 else 3).sum 0)

/-- R239, R242, R243: U8_CPENC and U8_ENCODE write the layout of each code point, and U8_CPENC reports the byte
count; too small a destination gives BufferTooSmall. The layout itself, as arithmetic, is the last clause: EF BF
BD for a surrogate and above 0x10FFFF. -/
def Obligations.Utf8EncodeCommands : Prop :=
  (∀ s : State, s.mem.wf = true →
    (BuffersPass .u8Cpenc s.snap →
      ((u8Encode s.snap.arg32).length ≤ s.snap.capacity →
        ∃ t, exec .u8Cpenc s = .next t ∧
          Stored s t (u8Encode s.snap.arg32) (u8Encode s.snap.arg32).length) ∧
      (s.snap.capacity < (u8Encode s.snap.arg32).length →
        ∃ t, exec .u8Cpenc s = .next t ∧ FailedCleanly s t .bufferTooSmall 0)) ∧
    (BuffersPass .u8Encode s.snap →
      (((s.srcElems 4).flatMap u8Encode).length ≤ s.snap.capacity →
        ∃ t, exec .u8Encode s = .next t ∧ Stored s t ((s.srcElems 4).flatMap u8Encode) 0) ∧
      (s.snap.capacity < ((s.srcElems 4).flatMap u8Encode).length →
        ∃ t, exec .u8Encode s = .next t ∧ FailedCleanly s t .bufferTooSmall 0))) ∧
  ∀ cp : Nat,
    (cp ≤ 0x7F → (u8Encode cp).map BitVec.toNat = [cp]) ∧
    (0x80 ≤ cp → cp ≤ 0x7FF → (u8Encode cp).map BitVec.toNat = [0xC0 + cp / 64, 0x80 + cp % 64]) ∧
    (0x800 ≤ cp → cp ≤ 0xFFFF → ¬(0xD800 ≤ cp ∧ cp ≤ 0xDFFF) →
      (u8Encode cp).map BitVec.toNat = [0xE0 + cp / 4096, 0x80 + cp / 64 % 64, 0x80 + cp % 64]) ∧
    (0x10000 ≤ cp → cp ≤ 0x10FFFF → (u8Encode cp).map BitVec.toNat =
      [0xF0 + cp / 262144, 0x80 + cp / 4096 % 64, 0x80 + cp / 64 % 64, 0x80 + cp % 64]) ∧
    ((0xD800 ≤ cp ∧ cp ≤ 0xDFFF) ∨ 0x10FFFF < cp → (u8Encode cp).map BitVec.toNat = [0xEF, 0xBF, 0xBD])

/-- R237, R246, R251: U8_VALID gives 1 exactly when the source is the encoding of some sequence of scalar
values: no overlong form, no surrogate, nothing above U+10FFFF, no truncation. -/
def Obligations.Utf8ValidIsAnEncodingOfScalars : Prop :=
  ∀ s : State, BuffersPass .u8Valid s.snap →
    ∃ t r, exec .u8Valid s = .next t ∧ ReadsOnly s t r 0 ∧ r ≤ 1 ∧
      (r = 1 ↔ ∃ cps : List Nat, (∀ cp ∈ cps, cp ≤ 0x10FFFF ∧ ¬(0xD800 ≤ cp ∧ cp ≤ 0xDFFF)) ∧
        s.srcBytes = cps.flatMap u8Encode)

/-- R249: the steps of a text start where the last one ended, until the input is exhausted; their number is
DL8; only the last one can be truncated. -/
def Obligations.Utf8StepsCoverTheText : Prop :=
  ∀ t : List Byte,
    (∀ k (h : k < (u8Steps t).length),
      (u8Steps t)[k] = u8Step (t.drop (((u8Steps t).take k).map (·.consumed)).sum)) ∧
    ((u8Steps t).map (·.consumed)).sum = t.length ∧ u8DecodedLength t = (u8Steps t).length ∧
    ∀ k (h : k < (u8Steps t).length), (u8Steps t)[k].kind = .truncated → k + 1 = (u8Steps t).length

/-- R234, R235, R236, R247, R248: U8_DECLEN reports the number of decode steps, and U8_CPDEC the step at
offset ARG, with the bytes it consumed; an offset at or past the end is InvalidArgument with RESULT 0xFFFD. A
step: after the `k` bytes that neither accept nor reject, a byte that rejects ends it with 0xFFFD and `max 1 k`
consumed, one that accepts is consumed too; where no byte of the text does either it is truncated and consumes
all. The automaton rejects exactly the texts that no text after them makes valid. -/
def Obligations.Utf8DecodeStepCommands : Prop :=
  (∀ s : State,
    (BuffersPass .u8Declen s.snap → ∃ t, exec .u8Declen s = .next t ∧
      ReadsOnly s t (u8Steps s.srcBytes).length 0 ∧ (u8Steps s.srcBytes).length ≤ s.snap.n) ∧
    (BuffersPass .u8Cpdec s.snap →
      (s.snap.regs.arg.toNat < s.snap.n → ∃ t step, exec .u8Cpdec s = .next t ∧
        step = u8Step (s.srcBytes.drop s.snap.regs.arg.toNat) ∧
        ReadsOnly s t step.cp step.consumed ∧ 1 ≤ step.consumed ∧ step.consumed ≤ 4 ∧
        (step.kind ≠ .accepted → step.cp = 0xFFFD)) ∧
      (s.snap.n ≤ s.snap.regs.arg.toNat →
        ∃ t, exec .u8Cpdec s = .next t ∧ FailedCleanly s t .invalidArgument 0xFFFD))) ∧
  (∀ t : List Byte, t ≠ [] →
    (∀ k, k < t.length →
      (∀ j, 1 ≤ j → j ≤ k → u8Run .accept (t.take j) ≠ .accept ∧ u8Run .accept (t.take j) ≠ .reject) →
      (u8Run .accept (t.take (k + 1)) = .reject →
        u8Step t = { cp := 0xFFFD, consumed := max 1 k, kind := .rejected }) ∧
      (u8Run .accept (t.take (k + 1)) = .accept →
        (u8Step t).kind = .accepted ∧ (u8Step t).consumed = k + 1)) ∧
    ((∀ j, 1 ≤ j → j ≤ t.length →
        u8Run .accept (t.take j) ≠ .accept ∧ u8Run .accept (t.take j) ≠ .reject) →
      u8Step t = { cp := 0xFFFD, consumed := t.length, kind := .truncated })) ∧
  ∀ t : List Byte, u8Run .accept t = .reject ↔ ∀ more : List Byte, u8Valid (t ++ more) = false

/-- R250: U8_DECODE: capacity first, then truncation, and both zero the whole destination; otherwise the
code points of the steps are stored, and the elements after them are as before. -/
def Obligations.Utf8DecodeStoresOrZeroes : Prop :=
  ∀ s : State, s.mem.wf = true → BuffersPass .u8Decode s.snap →
    (s.snap.capacity < (u8Steps s.srcBytes).length → ∃ t, exec .u8Decode s = .next t ∧
      Finished s t .bufferTooSmall 0 0 ∧ OperandsKept s t ∧
      WroteAt s t (dstAt s) (List.replicate (4 * s.snap.capacity) 0#8)) ∧
    ((u8Steps s.srcBytes).length ≤ s.snap.capacity →
      (∃ step ∈ u8Steps s.srcBytes, step.kind = .truncated) → ∃ t, exec .u8Decode s = .next t ∧
        Finished s t .invalidArgument 0 0 ∧ OperandsKept s t ∧
        WroteAt s t (dstAt s) (List.replicate (4 * s.snap.capacity) 0#8)) ∧
    ((u8Steps s.srcBytes).length ≤ s.snap.capacity →
      (∀ step ∈ u8Steps s.srcBytes, step.kind ≠ .truncated) → ∃ t, exec .u8Decode s = .next t ∧
        Finished s t .ok 0 0 ∧ OperandsKept s t ∧
        (∀ k (h : k < (u8Steps s.srcBytes).length),
          ofBytes s.cfg.nativeOrder (t.mem.readBytes (dstAt s + 4 * k) 4) = (u8Steps s.srcBytes)[k].cp) ∧
        KeptOutside s t (dstAt s) (4 * (u8Steps s.srcBytes).length))

/-- R234, R237, R251: the validator and the decoder agree: a text is valid exactly when every step is accepted,
and then encoding the decoded code points gives it back; a step that meets the encoding of a scalar value
yields it and consumes exactly its bytes. -/
def Obligations.Utf8ValidatorAndDecoderAgree : Prop :=
  (∀ t : List Byte,
    (u8Valid t = true ↔ ∀ step ∈ u8Steps t, step.kind = .accepted) ∧
    (u8Valid t = true → ((u8Steps t).map (·.cp)).flatMap u8Encode = t)) ∧
  ∀ (cp : Nat) (rest : List Byte), cp ≤ 0x10FFFF → ¬(0xD800 ≤ cp ∧ cp ≤ 0xDFFF) →
    u8Step (u8Encode cp ++ rest) = { cp := cp, consumed := (u8Encode cp).length, kind := .accepted }

/-! ### UTF-16 -/

/-- R274, R275, R280, R281, R282: U16_ENCLEN reports the units of the source's code points; U16_CPENC and
U16_ENCODE store them in NATIVE_ORDER, and U16_CPENC reports the unit count; too small a destination gives
BufferTooSmall. The units of one value, as arithmetic, are the last clause. -/
def Obligations.Utf16EncodeCommands : Prop :=
  (∀ s : State, s.mem.wf = true →
    (BuffersPass .u16Enclen s.snap → ∃ t, exec .u16Enclen s = .next t ∧
      ReadsOnly s t ((s.srcElems 4).flatMap u16Encode).length 0) ∧
    (BuffersPass .u16Cpenc s.snap →
      ((u16Encode s.snap.arg32).length ≤ s.snap.capacity → ∃ t, exec .u16Cpenc s = .next t ∧
        Stored s t (elemBytes s.cfg.nativeOrder 2 (u16Encode s.snap.arg32))
          (u16Encode s.snap.arg32).length) ∧
      (s.snap.capacity < (u16Encode s.snap.arg32).length →
        ∃ t, exec .u16Cpenc s = .next t ∧ FailedCleanly s t .bufferTooSmall 0)) ∧
    (BuffersPass .u16Encode s.snap →
      (((s.srcElems 4).flatMap u16Encode).length ≤ s.snap.capacity →
        ∃ t, exec .u16Encode s = .next t ∧
          Stored s t (elemBytes s.cfg.nativeOrder 2 ((s.srcElems 4).flatMap u16Encode)) 0) ∧
      (s.snap.capacity < ((s.srcElems 4).flatMap u16Encode).length →
        ∃ t, exec .u16Encode s = .next t ∧ FailedCleanly s t .bufferTooSmall 0))) ∧
  ∀ cp : Nat,
    (cp < 0xFFFE → ¬(0xD800 ≤ cp ∧ cp ≤ 0xDFFF) → u16Encode cp = [cp]) ∧
    (0x10000 ≤ cp → cp ≤ 0x10FFFF →
      u16Encode cp = [0xD800 + (cp - 0x10000) / 1024, 0xDC00 + (cp - 0x10000) % 1024]) ∧
    ((0xD800 ≤ cp ∧ cp ≤ 0xDFFF) ∨ cp = 0xFFFE ∨ cp = 0xFFFF ∨ 0x10FFFF < cp → u16Encode cp = [0xFFFD])

/-- R272, R273, R284, R285, R286: U16_VALID gives the test of R271, U16_DECLEN the number of decode steps,
U16_CPDEC the step at offset ARG with the units it consumed; an offset at or past the end is InvalidArgument
with RESULT 0xFFFD. -/
def Obligations.Utf16ReadCommands : Prop :=
  ∀ s : State,
    (BuffersPass .u16Valid s.snap → ∃ t, exec .u16Valid s = .next t ∧
      ReadsOnly s t (if u16Valid (s.srcElems 2) then 1 else 0) 0) ∧
    (BuffersPass .u16Declen s.snap → ∃ t, exec .u16Declen s = .next t ∧
      ReadsOnly s t (u16Steps (s.srcElems 2)).length 0 ∧ (u16Steps (s.srcElems 2)).length ≤ s.snap.n) ∧
    (BuffersPass .u16Cpdec s.snap →
      (∀ u rest, (s.srcElems 2).drop s.snap.regs.arg.toNat = u :: rest →
        ∃ t cp k, exec .u16Cpdec s = .next t ∧ ReadsOnly s t cp k ∧
          (¬(0xD800 ≤ u ∧ u ≤ 0xDFFF) → cp = u ∧ k = 1) ∧
          (∀ l more, rest = l :: more → 0xD800 ≤ u → u ≤ 0xDBFF → 0xDC00 ≤ l → l ≤ 0xDFFF →
            cp = (u - 0xD800) * 1024 + (l - 0xDC00) + 0x10000 ∧ k = 2) ∧
          ((0xDC00 ≤ u ∧ u ≤ 0xDFFF) ∨ ((0xD800 ≤ u ∧ u ≤ 0xDBFF) ∧
            ∀ l more, rest = l :: more → ¬(0xDC00 ≤ l ∧ l ≤ 0xDFFF)) → cp = 0xFFFD ∧ k = 1)) ∧
      (s.snap.n ≤ s.snap.regs.arg.toNat →
        ∃ t, exec .u16Cpdec s = .next t ∧ FailedCleanly s t .invalidArgument 0xFFFD))

/-- R271, R284, R289: a text is valid exactly when it is made of plain units and of surrogate pairs. So the
validator rejects a text with 0xFFFE or 0xFFFF in it, while a decode step returns such a unit as a code point. -/
def Obligations.Utf16ValidityIsPairing : Prop :=
  (∀ t : List Nat,
    u16Valid t = true ↔
      ∃ pieces : List (List Nat), t = pieces.flatten ∧ ∀ piece ∈ pieces,
        (∃ u, piece = [u] ∧ ¬(0xD800 ≤ u ∧ u ≤ 0xDFFF) ∧ u ≠ 0xFFFE ∧ u ≠ 0xFFFF) ∨
        (∃ h l, piece = [h, l] ∧ 0xD800 ≤ h ∧ h ≤ 0xDBFF ∧ 0xDC00 ≤ l ∧ l ≤ 0xDFFF)) ∧
  (∀ (t rest : List Nat) (u : Nat), u = 0xFFFE ∨ u = 0xFFFF →
    (u ∈ t → u16Valid t = false) ∧ u16Step (u :: rest) = { cp := u, consumed := 1 })

/-- R287: U16_DECODE stores the code points of the steps; too small a destination gives BufferTooSmall and
leaves it unchanged. -/
def Obligations.Utf16DecodeStoresTheSteps : Prop :=
  ∀ s : State, s.mem.wf = true → BuffersPass .u16Decode s.snap →
    (s.snap.capacity < (u16Steps (s.srcElems 2)).length →
      ∃ t, exec .u16Decode s = .next t ∧ FailedCleanly s t .bufferTooSmall 0) ∧
    ((u16Steps (s.srcElems 2)).length ≤ s.snap.capacity → ∃ t, exec .u16Decode s = .next t ∧
      Finished s t .ok 0 0 ∧ OperandsKept s t ∧
      (∀ k (h : k < (u16Steps (s.srcElems 2)).length),
        ofBytes s.cfg.nativeOrder (t.mem.readBytes (dstAt s + 4 * k) 4) = (u16Steps (s.srcElems 2))[k].cp) ∧
      KeptOutside s t (dstAt s) (4 * (u16Steps (s.srcElems 2)).length))

/-- R273: the steps of a text start where the last one ended until the text is exhausted, each consumes 1 or
2 units, and there are at most as many as units. -/
def Obligations.Utf16StepsCoverTheText : Prop :=
  ∀ t : List Nat,
    (∀ k (h : k < (u16Steps t).length),
      (u16Steps t)[k] = u16Step (t.drop (((u16Steps t).take k).map (·.consumed)).sum) ∧
      ((u16Steps t)[k].consumed = 1 ∨ (u16Steps t)[k].consumed = 2)) ∧
    ((u16Steps t).map (·.consumed)).sum = t.length ∧ u16DecodedLength t = (u16Steps t).length ∧
    u16DecodedLength t ≤ t.length

/-- R288: encoding the decoded code points of a valid text of 16-bit units gives it back; decoding the units
of scalar values other than 0xFFFE and 0xFFFF gives them back. -/
def Obligations.Utf16RoundTrip : Prop :=
  (∀ t : List Nat, (∀ u ∈ t, u < 0x10000) → u16Valid t = true →
    (∀ step ∈ u16Steps t, step.cp ≤ 0x10FFFF ∧ ¬(0xD800 ≤ step.cp ∧ step.cp ≤ 0xDFFF) ∧
      step.cp ≠ 0xFFFE ∧ step.cp ≠ 0xFFFF) ∧
    ((u16Steps t).map (·.cp)).flatMap u16Encode = t) ∧
  (∀ cps : List Nat, (∀ cp ∈ cps, cp ≤ 0x10FFFF ∧ ¬(0xD800 ≤ cp ∧ cp ≤ 0xDFFF) ∧ cp ≠ 0xFFFE ∧
      cp ≠ 0xFFFF) →
    u16Valid (cps.flatMap u16Encode) = true ∧
    (u16Steps (cps.flatMap u16Encode)).map (·.cp) = cps)

/-! ### Endian integers -/

/-- R130 to R136: ENC_U16, ENC_U32 and ENC_U64 write the low 2, 4 or 8 bytes of ARG at DST_ADDR in the order
BO names, and nothing else. `byte k` of the value is `ARG / 256^k mod 256`. -/
def Obligations.EndianEncodeWritesTheBytes : Prop :=
  ∀ (s : State) (i : Instr) (big : Bool) (size : Nat), s.mem.wf = true →
    (i, size) ∈ [(Instr.encU16 (if big then .big else .little), 2),
      (.encU32 (if big then .big else .little), 4), (.encU64 (if big then .big else .little), 8)] →
    s.snap.regs.dstAddr ≠ 0#64 → (s.snap.dst 1).outOfRange = false → size ≤ s.snap.capacity →
      ∃ t, exec i s = .next t ∧ Finished s t .ok 0 0 ∧ OperandsKept s t ∧
        (∀ k, k < size → (t.mem.read (dstAt s + (if big then size - 1 - k else k))).toNat =
          s.snap.regs.arg.toNat / 256 ^ k % 256) ∧
        KeptOutside s t (dstAt s) size

/-- R130 to R133, R137 to R139: DEC_U16, DEC_U32 and DEC_U64 report the value of the first 2, 4 or 8 source
bytes in the order BO names, zero-extended. -/
def Obligations.EndianDecodeReadsTheValue : Prop :=
  ∀ (s : State) (i : Instr) (big : Bool) (size : Nat),
    (i, size) ∈ [(Instr.decU16 (if big then .big else .little), 2),
      (.decU32 (if big then .big else .little), 4), (.decU64 (if big then .big else .little), 8)] →
    s.snap.regs.srcAddr ≠ 0#64 → (s.snap.src 1).outOfRange = false → size ≤ s.snap.n →
      ∃ t r, exec i s = .next t ∧ ReadsOnly s t r 0 ∧ r < 256 ^ size ∧
        ∀ k, k < size → r / 256 ^ k % 256 =
          (srcByte s (if big then size - 1 - k else k)).toNat

/-- R131, R132, R133: the failures of the endian commands, in their order: address 0 whatever the length, a
byte-order tag that is neither big nor little, a buffer that does not fit in memory, one shorter than the
integer. Nothing is written. -/
def Obligations.EndianFailures : Prop :=
  ∀ (s : State) (i : Instr) (bo : BoTag) (size len : Nat) (addr : Word) (buf : Buf),
    ((i, size) ∈ [(Instr.encU16 bo, 2), (.encU32 bo, 4), (.encU64 bo, 8)] ∧
        addr = s.snap.regs.dstAddr ∧ len = s.snap.capacity ∧ buf = s.snap.dst 1) ∨
      ((i, size) ∈ [(Instr.decU16 bo, 2), (.decU32 bo, 4), (.decU64 bo, 8)] ∧
        addr = s.snap.regs.srcAddr ∧ len = s.snap.n ∧ buf = s.snap.src 1) →
    (addr = 0#64 → ∃ t, exec i s = .next t ∧ FailedCleanly s t .invalidNullPointer 0) ∧
    (addr ≠ 0#64 → (∃ code, bo = .unsupported code) →
      ∃ t, exec i s = .next t ∧ FailedCleanly s t .invalidArgument 0) ∧
    (addr ≠ 0#64 → buf.outOfRange = true →
      ∃ t, exec i s = .next t ∧ FailedCleanly s t .invalidArgument 0) ∧
    (addr ≠ 0#64 → (bo = .big ∨ bo = .little) → buf.outOfRange = false → len < size →
      ∃ t, exec i s = .next t ∧ FailedCleanly s t .bufferTooSmall 0)

/-- R140: ENC_UN of a value followed by DEC_UN of the bytes written, with the same BO, gives the value. -/
def Obligations.EndianRoundTripThroughTheBlock : Prop :=
  ∀ (s u : State) (enc dec : Instr) (bo : BoTag) (size : Nat), s.mem.wf = true →
    (enc, dec, size) ∈ [(Instr.encU16 bo, Instr.decU16 bo, 2), (.encU32 bo, .decU32 bo, 4),
      (.encU64 bo, .decU64 bo, 8)] →
    (bo = .big ∨ bo = .little) → s.snap.regs.arg.toNat < 256 ^ size →
    ∀ t, exec enc s = .next t → t.err = .ok → u.mem = t.mem →
      u.snap.regs.srcAddr = s.snap.regs.dstAddr → (u.snap.src 1).outOfRange = false → size ≤ u.snap.n →
      ∃ v, exec dec u = .next v ∧ ReadsOnly u v s.snap.regs.arg.toNat 0
end

