-- ==== Sys2Proof/Laws/Codec.lean ====
section
/-! SUPPORT. The lengths of what the codecs write, the pieces of a list, and the walks of the two Unicode
decoders. -/

namespace Sys2Proof.Machine

/-! ### Bytes of numbers -/

@[simp] theorem length_toBytesLittle (n v : Nat) : (toBytesLittle n v).length = n := by
  induction n generalizing v with
  | zero => rfl
  | succ n ih => rw [toBytesLittle, List.length_cons, ih]

@[simp] theorem length_toBytes (order : ByteOrder) (n v : Nat) : (toBytes order n v).length = n := by
  cases order <;> simp [toBytes]

theorem ofBytesLittle_lt (bs : List Byte) : ofBytesLittle bs < 256 ^ bs.length := by
  induction bs with
  | nil => simp [ofBytesLittle]
  | cons b bs ih =>
    have := b.isLt
    rw [ofBytesLittle, List.length_cons, Nat.pow_succ]
    omega

theorem ofBytes_lt (order : ByteOrder) (bs : List Byte) : ofBytes order bs < 256 ^ bs.length := by
  cases order
  · simpa [ofBytes] using ofBytesLittle_lt bs.reverse
  · exact ofBytesLittle_lt bs

/-- `val_little(bytes_little(v, n)) = v` (R130). -/
theorem ofBytesLittle_toBytesLittle {n v : Nat} (h : v < 256 ^ n) :
    ofBytesLittle (toBytesLittle n v) = v := by
  induction n generalizing v with
  | zero =>
    rw [Nat.pow_zero] at h
    simp [toBytesLittle, ofBytesLittle]
    omega
  | succ n ih =>
    rw [Nat.pow_succ] at h
    rw [toBytesLittle, ofBytesLittle, ih (by omega), BitVec.toNat_ofNat]
    omega

/-- Bytes of a value read back as the value, in either order (R55, R130). -/
theorem ofBytes_toBytes (order : ByteOrder) {n v : Nat} (h : v < 256 ^ n) :
    ofBytes order (toBytes order n v) = v := by
  cases order <;> simp [ofBytes, toBytes, ofBytesLittle_toBytesLittle h]

/-! ### Pieces of a list -/

theorem chunksUpTo_eq {α : Type} {n : Nat} (hn : 0 < n) :
    ∀ (fuel fuel' : Nat) (xs : List α), xs.length ≤ fuel → xs.length ≤ fuel' →
      chunksUpTo n fuel xs = chunksUpTo n fuel' xs := by
  intro fuel
  induction fuel with
  | zero =>
    intro fuel' xs h _
    obtain rfl : xs = [] := List.length_eq_zero_iff.mp (by omega)
    cases fuel' <;> rfl
  | succ fuel ih =>
    intro fuel' xs h h'
    cases xs with
    | nil => cases fuel' <;> rfl
    | cons x xs =>
      cases fuel' with
      | zero => simp at h'
      | succ fuel' =>
        rw [chunksUpTo, chunksUpTo]
        congr 1
        apply ih
        · simp only [List.length_drop, List.length_cons] at h ⊢
          omega
        · simp only [List.length_drop, List.length_cons] at h' ⊢
          omega

@[simp] theorem chunks_nil {α : Type} (n : Nat) : chunks n ([] : List α) = [] := rfl

/-- The first piece of a nonempty list, and the pieces of the rest. -/
theorem chunks_cons {α : Type} {n : Nat} (hn : 0 < n) {xs : List α} (h : xs ≠ []) :
    chunks n xs = xs.take n :: chunks n (xs.drop n) := by
  cases xs with
  | nil => exact absurd rfl h
  | cons x xs =>
    rw [chunks, List.length_cons, chunksUpTo, chunks]
    congr 1
    apply chunksUpTo_eq hn
    · simp only [List.length_drop, List.length_cons]
      omega
    · exact le_refl _

/-- Induction over the pieces of a list. -/
theorem chunks_induction {α : Type} {n : Nat} (hn : 0 < n) {P : List α → Prop} (hnil : P [])
    (hcons : ∀ xs, xs ≠ [] → P (xs.drop n) → P xs) : ∀ xs, P xs := by
  intro xs
  generalize hk : xs.length = k
  induction k using Nat.strong_induction_on generalizing xs with
  | _ k ih =>
    by_cases hx : xs = []
    · exact hx ▸ hnil
    · have hpos : 0 < xs.length := List.length_pos_iff.mpr hx
      exact hcons xs hx (ih (xs.drop n).length (by rw [List.length_drop]; omega) _ rfl)

/-- The pieces put together are the list. -/
theorem flatten_chunks {α : Type} {n : Nat} (hn : 0 < n) (xs : List α) : (chunks n xs).flatten = xs := by
  induction xs using chunks_induction hn with
  | hnil => rfl
  | hcons xs hx ih => rw [chunks_cons hn hx, List.flatten_cons, ih, List.take_append_drop]

/-- There are `ceil(len / n)` pieces. -/
theorem length_chunks {α : Type} {n : Nat} (hn : 0 < n) (xs : List α) :
    (chunks n xs).length = (xs.length + n - 1) / n := by
  induction xs using chunks_induction hn with
  | hnil => rw [chunks_nil, List.length_nil, List.length_nil, Nat.div_eq_of_lt (by omega)]
  | hcons xs hx ih =>
    have hpos : 0 < xs.length := List.length_pos_iff.mpr hx
    rw [chunks_cons hn hx, List.length_cons, ih, List.length_drop]
    rcases Nat.lt_or_ge xs.length n with h | h
    · rw [Nat.sub_eq_zero_of_le h.le, Nat.zero_add, Nat.div_eq_of_lt (by omega : n - 1 < n),
        Nat.div_eq_of_lt_le (k := 1) (by omega) (by omega)]
    · rw [show xs.length + n - 1 = (xs.length - n + n - 1) + n by omega, Nat.add_div_right _ hn]

/-! ### base16 and hex_dump -/

@[simp] theorem length_hexText (case_ : HexCase) (bs : List Byte) :
    (hexText case_ bs).length = 2 * bs.length := by
  induction bs with
  | nil => rfl
  | cons b bs ih =>
    rw [hexText, List.flatMap_cons, List.length_append, ← hexText, ih, List.length_cons]
    simp only [hexByte, List.length_cons, List.length_nil]
    omega

theorem length_valuesOf {value : Byte → Option Nat} {cs : List Byte} {vs : List Nat}
    (h : valuesOf value cs = some vs) : vs.length = cs.length := by
  induction cs generalizing vs with
  | nil =>
    rw [valuesOf, Option.some.injEq] at h
    simp [← h]
  | cons c cs ih =>
    rw [valuesOf] at h
    split at h
    · next v ws _ hws =>
      rw [Option.some.injEq] at h
      rw [← h, List.length_cons, List.length_cons, ih hws]
    · simp at h

/-- A text has values exactly when each of its symbols has one. -/
theorem valuesOf_isSome (value : Byte → Option Nat) (cs : List Byte) :
    (valuesOf value cs).isSome = cs.all fun c => (value c).isSome := by
  induction cs with
  | nil => rfl
  | cons c cs ih =>
    rw [valuesOf, List.all_cons, ← ih]
    cases value c <;> cases valuesOf value cs <;> rfl

theorem length_hexBytes {t out : List Byte} (h : hexBytes t = some out) :
    out.length = (t.length + 1) / 2 := by
  rw [hexBytes, Option.map_eq_some_iff] at h
  obtain ⟨vs, hvs, rfl⟩ := h
  rw [List.length_map, length_chunks (by omega), length_valuesOf hvs, Nat.add_sub_assoc (by omega)]

theorem length_dumpColumn (c : List Byte) (j : Nat) : (dumpColumn c j).length = 3 := by
  rw [dumpColumn]
  split <;> rfl

theorem length_flatMap_dumpColumn (c : List Byte) (js : List Nat) :
    (js.flatMap (dumpColumn c)).length = 3 * js.length := by
  induction js with
  | nil => rfl
  | cons j js ih => rw [List.flatMap_cons, List.length_append, ih, length_dumpColumn, List.length_cons]; omega

/-- A line of `r` bytes is `63 + r` bytes long (R302). -/
theorem length_dumpLine (a : Nat) (c : List Byte) : (dumpLine a c).length = 63 + c.length := by
  have h1 : (ascii " ").length = 1 := rfl
  have h2 : (ascii "  ").length = 2 := rfl
  have h3 : (ascii "|").length = 1 := rfl
  simp only [dumpLine, List.length_append, length_flatMap_dumpColumn, List.length_range,
    List.length_map, dumpGutter, dumpAddress, length_hexText, length_toBytes, List.length_cons,
    List.length_nil, h1, h2, h3]
  omega

/-- HEX_DUMP writes `dump_length(n)` bytes (R304, R305). -/
theorem length_dumpText (start : Nat) (bs : List Byte) :
    (dumpText start bs).length = dumpLength bs.length := by
  rw [dumpText]
  induction bs using chunks_induction (n := 16) (by omega) generalizing start with
  | hnil => rfl
  | hcons bs hx ih =>
    have hpos : 0 < bs.length := List.length_pos_iff.mpr hx
    rw [chunks_cons (by omega) hx, dumpLines, List.length_append, ih, length_dumpLine,
      List.length_take, List.length_drop]
    simp only [dumpLength]
    split <;> split <;> omega

/-! ### base32 and base64 -/

theorem ceilDiv_le {a b c : Nat} (hb : 0 < b) (h : a ≤ b * c) : ceilDiv a b ≤ c := by
  rw [ceilDiv]
  have : (a + b - 1) / b < c + 1 := by
    rw [Nat.div_lt_iff_lt_mul hb]
    calc a + b - 1 < b * c + b := by omega
      _ = (c + 1) * b := by ring
  omega

theorem length_encodeGroup (r : Radix) (table g : List Byte)
    (h : ceilDiv (8 * g.length) r.bits ≤ r.symbols) : (encodeGroup r table g).length = r.symbols := by
  simp only [encodeGroup, List.length_append, List.length_map, List.length_range, List.length_replicate]
  omega

/-- encode writes `B * ceil(n / D)` bytes (R178, R208). -/
theorem length_encodeText {r : Radix} (hD : 0 < r.bytes) (hk : 0 < r.bits)
    (hfit : 8 * r.bytes ≤ r.bits * r.symbols) (table bs : List Byte) :
    (encodeText r table bs).length = encodedLength r bs.length := by
  rw [encodeText]
  induction bs using chunks_induction hD with
  | hnil =>
    rw [chunks_nil, List.flatMap_nil, List.length_nil, encodedLength, ceilDiv,
      Nat.div_eq_of_lt (by omega), Nat.mul_zero]
  | hcons bs hx ih =>
    have hpos : 0 < bs.length := List.length_pos_iff.mpr hx
    rw [chunks_cons hD hx, List.flatMap_cons, List.length_append, ih, length_encodeGroup,
      encodedLength, encodedLength, ceilDiv, ceilDiv, List.length_drop]
    · rcases Nat.lt_or_ge bs.length r.bytes with h | h
      · rw [Nat.sub_eq_zero_of_le h.le, Nat.zero_add, Nat.div_eq_of_lt (by omega : r.bytes - 1 < r.bytes),
          Nat.div_eq_of_lt_le (k := 1) (by omega) (by omega)]
        omega
      · rw [show bs.length + r.bytes - 1 = (bs.length - r.bytes + r.bytes - 1) + r.bytes by omega,
          Nat.add_div_right _ hD]
        ring
    · apply ceilDiv_le hk
      refine le_trans ?_ hfit
      have := List.length_take_le r.bytes bs
      omega

theorem length_encodeText_base32 (table bs : List Byte) :
    (encodeText base32 table bs).length = encodedLength base32 bs.length :=
  length_encodeText (by decide) (by decide) (by decide) table bs

theorem length_encodeText_base64 (table bs : List Byte) :
    (encodeText base64 table bs).length = encodedLength base64 bs.length :=
  length_encodeText (by decide) (by decide) (by decide) table bs

/-- decode writes at most the decoded length (R181, R211). -/
theorem length_decodeText_le {r : Radix} {value : Byte → Option Nat} {t out : List Byte} {length : Nat}
    (h : decodeText r value t length = some out) : out.length ≤ length := by
  rw [decodeText, Option.map_eq_some_iff] at h
  obtain ⟨vs, _, rfl⟩ := h
  exact List.length_take_le _ _

/-! ### UTF-8 and UTF-16 -/

/-- `size8(cp)` is the number of bytes of `enc8(cp)` (R238, R239). -/
@[simp] theorem length_u8Encode (cp : Nat) : (u8Encode cp).length = u8Size cp := by
  simp only [u8Encode, u8Size, List.length_map]
  split_ifs <;> simp_all <;> omega

@[simp] theorem length_u8Text (cps : List Nat) : (u8Text cps).length = u8EncodedLength cps := by
  simp [u8Text, u8EncodedLength, List.length_flatMap]

@[simp] theorem length_u16Text (cps : List Nat) : (u16Text cps).length = u16EncodedLength cps := by
  rw [u16Text, u16EncodedLength, List.length_flatMap]
  rfl

theorem length_elemBytes (order : ByteOrder) (esz : Nat) (vs : List Nat) :
    (elemBytes order esz vs).length = esz * vs.length := by
  induction vs with
  | nil => simp [elemBytes]
  | cons v vs ih =>
    rw [elemBytes, List.flatMap_cons, List.length_append, length_toBytes, ← elemBytes, ih,
      List.length_cons]
    ring

/-- Every UTF-8 decode step on a nonempty rest consumes a byte (R234, R235). -/
theorem u8Loop_consumed_pos (q : U8State) (cp count : Nat) (t : List Byte) (h : 0 < count ∨ t ≠ []) :
    0 < (u8Loop q cp count t).consumed := by
  induction t generalizing q cp count with
  | nil => simpa [u8Loop] using h
  | cons b t ih =>
    rw [u8Loop]
    split
    · simp
    · split
      · simp
      · exact ih _ _ _ (.inl (by omega))

theorem u8Step_consumed_pos {t : List Byte} (h : t ≠ []) : 0 < (u8Step t).consumed :=
  u8Loop_consumed_pos _ _ _ _ (.inr h)

theorem u8StepsUpTo_eq : ∀ (fuel fuel' : Nat) (t : List Byte), t.length ≤ fuel → t.length ≤ fuel' →
    u8StepsUpTo fuel t = u8StepsUpTo fuel' t := by
  intro fuel
  induction fuel with
  | zero =>
    intro fuel' t h _
    obtain rfl : t = [] := List.length_eq_zero_iff.mp (by omega)
    cases fuel' <;> rfl
  | succ fuel ih =>
    intro fuel' t h h'
    cases t with
    | nil => cases fuel' <;> rfl
    | cons b t =>
      cases fuel' with
      | zero => simp at h'
      | succ fuel' =>
        have hpos := u8Step_consumed_pos (t := b :: t) (by simp)
        rw [u8StepsUpTo, u8StepsUpTo]
        congr 1
        apply ih
        · simp only [List.length_drop, List.length_cons] at h ⊢
          omega
        · simp only [List.length_drop, List.length_cons] at h' ⊢
          omega

@[simp] theorem u8Steps_nil : u8Steps [] = [] := rfl

/-- The first step of a nonempty text, and the steps of the rest (R249). -/
theorem u8Steps_cons {t : List Byte} (h : t ≠ []) :
    u8Steps t = u8Step t :: u8Steps (t.drop (u8Step t).consumed) := by
  cases t with
  | nil => exact absurd rfl h
  | cons b t =>
    have hpos := u8Step_consumed_pos (t := b :: t) (by simp)
    rw [u8Steps, List.length_cons, u8StepsUpTo, u8Steps]
    congr 1
    apply u8StepsUpTo_eq
    · simp only [List.length_drop, List.length_cons]
      omega
    · exact le_refl _

/-- Every UTF-16 decode step on a nonempty rest consumes 1 or 2 units (R272). -/
theorem u16Step_consumed {t : List Nat} (h : t ≠ []) :
    (u16Step t).consumed = 1 ∨ (u16Step t).consumed = 2 := by
  cases t with
  | nil => exact absurd rfl h
  | cons u t =>
    cases t <;> simp only [u16Step] <;> split_ifs <;> simp

theorem u16StepsUpTo_eq : ∀ (fuel fuel' : Nat) (t : List Nat), t.length ≤ fuel → t.length ≤ fuel' →
    u16StepsUpTo fuel t = u16StepsUpTo fuel' t := by
  intro fuel
  induction fuel with
  | zero =>
    intro fuel' t h _
    obtain rfl : t = [] := List.length_eq_zero_iff.mp (by omega)
    cases fuel' <;> rfl
  | succ fuel ih =>
    intro fuel' t h h'
    cases t with
    | nil => cases fuel' <;> rfl
    | cons u t =>
      cases fuel' with
      | zero => simp at h'
      | succ fuel' =>
        have hpos := u16Step_consumed (t := u :: t) (by simp)
        rw [u16StepsUpTo, u16StepsUpTo]
        congr 1
        apply ih
        · simp only [List.length_drop, List.length_cons] at h ⊢
          omega
        · simp only [List.length_drop, List.length_cons] at h' ⊢
          omega

@[simp] theorem u16Steps_nil : u16Steps [] = [] := rfl

/-- The first step of a nonempty text, and the steps of the rest (R273). -/
theorem u16Steps_cons {t : List Nat} (h : t ≠ []) :
    u16Steps t = u16Step t :: u16Steps (t.drop (u16Step t).consumed) := by
  cases t with
  | nil => exact absurd rfl h
  | cons u t =>
    have hpos := u16Step_consumed (t := u :: t) (by simp)
    rw [u16Steps, List.length_cons, u16StepsUpTo, u16Steps]
    congr 1
    apply u16StepsUpTo_eq
    · simp only [List.length_drop, List.length_cons]
      omega
    · exact le_refl _

end Sys2Proof.Machine
end

