-- ==== Sys2Proof/Laws/State.lean ====
section
/-! SUPPORT. One lemma per field per update of the state, true by definition, so that no later proof
unfolds a record update. -/

namespace Sys2Proof.Machine

/-! ### `State.finish` -/

@[simp] theorem State.finish_cmd (s : State) (st : Status) (r r2 : Nat) :
    (s.finish st r r2).cmd = s.cmd := rfl

@[simp] theorem State.finish_regs (s : State) (st : Status) (r r2 : Nat) :
    (s.finish st r r2).regs = s.regs := rfl

@[simp] theorem State.finish_result (s : State) (st : Status) (r r2 : Nat) :
    (s.finish st r r2).result = BitVec.ofNat 64 r := rfl

@[simp] theorem State.finish_result2 (s : State) (st : Status) (r r2 : Nat) :
    (s.finish st r r2).result2 = BitVec.ofNat 64 r2 := rfl

@[simp] theorem State.finish_ovr (s : State) (st : Status) (r r2 : Nat) :
    (s.finish st r r2).ovr = s.ovr := rfl

@[simp] theorem State.finish_err (s : State) (st : Status) (r r2 : Nat) :
    (s.finish st r r2).err = st := rfl

@[simp] theorem State.finish_pending (s : State) (st : Status) (r r2 : Nat) :
    (s.finish st r r2).pending = none := rfl

@[simp] theorem State.finish_mem (s : State) (st : Status) (r r2 : Nat) :
    (s.finish st r r2).mem = s.mem := rfl

@[simp] theorem State.finish_cfg (s : State) (st : Status) (r r2 : Nat) :
    (s.finish st r r2).cfg = s.cfg := rfl

@[simp] theorem State.finish_draws (s : State) (st : Status) (r r2 : Nat) :
    (s.finish st r r2).draws = s.draws := rfl

@[simp] theorem State.finish_host (s : State) (st : Status) (r r2 : Nat) :
    (s.finish st r r2).host = s.host := rfl

@[simp] theorem State.finish_rdata (s : State) (st : Status) (r r2 : Nat) :
    (s.finish st r r2).rdata = s.rdata := rfl

/-! ### `State.fail` -/

@[simp] theorem State.fail_cmd (s : State) (st : Status) :
    (s.fail st).cmd = s.cmd := rfl

@[simp] theorem State.fail_regs (s : State) (st : Status) :
    (s.fail st).regs = s.regs := rfl

@[simp] theorem State.fail_result (s : State) (st : Status) :
    (s.fail st).result = 0#64 := rfl

@[simp] theorem State.fail_result2 (s : State) (st : Status) :
    (s.fail st).result2 = 0#64 := rfl

@[simp] theorem State.fail_ovr (s : State) (st : Status) :
    (s.fail st).ovr = s.ovr := rfl

@[simp] theorem State.fail_err (s : State) (st : Status) :
    (s.fail st).err = st := rfl

@[simp] theorem State.fail_pending (s : State) (st : Status) :
    (s.fail st).pending = none := rfl

@[simp] theorem State.fail_mem (s : State) (st : Status) :
    (s.fail st).mem = s.mem := rfl

@[simp] theorem State.fail_cfg (s : State) (st : Status) :
    (s.fail st).cfg = s.cfg := rfl

@[simp] theorem State.fail_draws (s : State) (st : Status) :
    (s.fail st).draws = s.draws := rfl

@[simp] theorem State.fail_host (s : State) (st : Status) :
    (s.fail st).host = s.host := rfl

@[simp] theorem State.fail_rdata (s : State) (st : Status) :
    (s.fail st).rdata = s.rdata := rfl

/-! ### `State.failReplacement` -/

@[simp] theorem State.failReplacement_cmd (s : State) (st : Status) :
    (s.failReplacement st).cmd = s.cmd := rfl

@[simp] theorem State.failReplacement_regs (s : State) (st : Status) :
    (s.failReplacement st).regs = s.regs := rfl

@[simp] theorem State.failReplacement_result (s : State) (st : Status) :
    (s.failReplacement st).result = 0xFFFD#64 := rfl

@[simp] theorem State.failReplacement_result2 (s : State) (st : Status) :
    (s.failReplacement st).result2 = 0#64 := rfl

@[simp] theorem State.failReplacement_ovr (s : State) (st : Status) :
    (s.failReplacement st).ovr = s.ovr := rfl

@[simp] theorem State.failReplacement_err (s : State) (st : Status) :
    (s.failReplacement st).err = st := rfl

@[simp] theorem State.failReplacement_pending (s : State) (st : Status) :
    (s.failReplacement st).pending = none := rfl

@[simp] theorem State.failReplacement_mem (s : State) (st : Status) :
    (s.failReplacement st).mem = s.mem := rfl

@[simp] theorem State.failReplacement_cfg (s : State) (st : Status) :
    (s.failReplacement st).cfg = s.cfg := rfl

@[simp] theorem State.failReplacement_draws (s : State) (st : Status) :
    (s.failReplacement st).draws = s.draws := rfl

@[simp] theorem State.failReplacement_host (s : State) (st : Status) :
    (s.failReplacement st).host = s.host := rfl

@[simp] theorem State.failReplacement_rdata (s : State) (st : Status) :
    (s.failReplacement st).rdata = s.rdata := rfl

/-! ### `State.putBytes` -/

@[simp] theorem State.putBytes_cmd (s : State) (a : Nat) (bs : List Byte) :
    (s.putBytes a bs).cmd = s.cmd := rfl

@[simp] theorem State.putBytes_regs (s : State) (a : Nat) (bs : List Byte) :
    (s.putBytes a bs).regs = s.regs := rfl

@[simp] theorem State.putBytes_result (s : State) (a : Nat) (bs : List Byte) :
    (s.putBytes a bs).result = s.result := rfl

@[simp] theorem State.putBytes_result2 (s : State) (a : Nat) (bs : List Byte) :
    (s.putBytes a bs).result2 = s.result2 := rfl

@[simp] theorem State.putBytes_ovr (s : State) (a : Nat) (bs : List Byte) :
    (s.putBytes a bs).ovr = s.ovr := rfl

@[simp] theorem State.putBytes_err (s : State) (a : Nat) (bs : List Byte) :
    (s.putBytes a bs).err = s.err := rfl

@[simp] theorem State.putBytes_pending (s : State) (a : Nat) (bs : List Byte) :
    (s.putBytes a bs).pending = s.pending := rfl

@[simp] theorem State.putBytes_mem (s : State) (a : Nat) (bs : List Byte) :
    (s.putBytes a bs).mem = s.mem.writeBytes a bs := rfl

@[simp] theorem State.putBytes_cfg (s : State) (a : Nat) (bs : List Byte) :
    (s.putBytes a bs).cfg = s.cfg := rfl

@[simp] theorem State.putBytes_draws (s : State) (a : Nat) (bs : List Byte) :
    (s.putBytes a bs).draws = s.draws := rfl

@[simp] theorem State.putBytes_host (s : State) (a : Nat) (bs : List Byte) :
    (s.putBytes a bs).host = s.host := rfl

@[simp] theorem State.putBytes_rdata (s : State) (a : Nat) (bs : List Byte) :
    (s.putBytes a bs).rdata = s.rdata := rfl

/-! ### `State.putDst` -/

@[simp] theorem State.putDst_cmd (s : State) (bs : List Byte) :
    (s.putDst bs).cmd = s.cmd := rfl

@[simp] theorem State.putDst_regs (s : State) (bs : List Byte) :
    (s.putDst bs).regs = s.regs := rfl

@[simp] theorem State.putDst_result (s : State) (bs : List Byte) :
    (s.putDst bs).result = s.result := rfl

@[simp] theorem State.putDst_result2 (s : State) (bs : List Byte) :
    (s.putDst bs).result2 = s.result2 := rfl

@[simp] theorem State.putDst_ovr (s : State) (bs : List Byte) :
    (s.putDst bs).ovr = s.ovr := rfl

@[simp] theorem State.putDst_err (s : State) (bs : List Byte) :
    (s.putDst bs).err = s.err := rfl

@[simp] theorem State.putDst_pending (s : State) (bs : List Byte) :
    (s.putDst bs).pending = s.pending := rfl

@[simp] theorem State.putDst_mem (s : State) (bs : List Byte) :
    (s.putDst bs).mem = s.mem.writeBytes s.snap.regs.dstAddr.toNat bs := rfl

@[simp] theorem State.putDst_cfg (s : State) (bs : List Byte) :
    (s.putDst bs).cfg = s.cfg := rfl

@[simp] theorem State.putDst_draws (s : State) (bs : List Byte) :
    (s.putDst bs).draws = s.draws := rfl

@[simp] theorem State.putDst_host (s : State) (bs : List Byte) :
    (s.putDst bs).host = s.host := rfl

@[simp] theorem State.putDst_rdata (s : State) (bs : List Byte) :
    (s.putDst bs).rdata = s.rdata := rfl

/-! ### `State.putElems` -/

@[simp] theorem State.putElems_cmd (s : State) (esz : Nat) (vs : List Nat) :
    (s.putElems esz vs).cmd = s.cmd := rfl

@[simp] theorem State.putElems_regs (s : State) (esz : Nat) (vs : List Nat) :
    (s.putElems esz vs).regs = s.regs := rfl

@[simp] theorem State.putElems_result (s : State) (esz : Nat) (vs : List Nat) :
    (s.putElems esz vs).result = s.result := rfl

@[simp] theorem State.putElems_result2 (s : State) (esz : Nat) (vs : List Nat) :
    (s.putElems esz vs).result2 = s.result2 := rfl

@[simp] theorem State.putElems_ovr (s : State) (esz : Nat) (vs : List Nat) :
    (s.putElems esz vs).ovr = s.ovr := rfl

@[simp] theorem State.putElems_err (s : State) (esz : Nat) (vs : List Nat) :
    (s.putElems esz vs).err = s.err := rfl

@[simp] theorem State.putElems_pending (s : State) (esz : Nat) (vs : List Nat) :
    (s.putElems esz vs).pending = s.pending := rfl

@[simp] theorem State.putElems_mem (s : State) (esz : Nat) (vs : List Nat) :
    (s.putElems esz vs).mem = s.mem.writeBytes s.snap.regs.dstAddr.toNat (elemBytes s.cfg.nativeOrder esz vs) := rfl

@[simp] theorem State.putElems_cfg (s : State) (esz : Nat) (vs : List Nat) :
    (s.putElems esz vs).cfg = s.cfg := rfl

@[simp] theorem State.putElems_draws (s : State) (esz : Nat) (vs : List Nat) :
    (s.putElems esz vs).draws = s.draws := rfl

@[simp] theorem State.putElems_host (s : State) (esz : Nat) (vs : List Nat) :
    (s.putElems esz vs).host = s.host := rfl

@[simp] theorem State.putElems_rdata (s : State) (esz : Nat) (vs : List Nat) :
    (s.putElems esz vs).rdata = s.rdata := rfl

/-! ### `State.zeroDst` -/

@[simp] theorem State.zeroDst_cmd (s : State) :
    (s.zeroDst).cmd = s.cmd := rfl

@[simp] theorem State.zeroDst_regs (s : State) :
    (s.zeroDst).regs = s.regs := rfl

@[simp] theorem State.zeroDst_result (s : State) :
    (s.zeroDst).result = s.result := rfl

@[simp] theorem State.zeroDst_result2 (s : State) :
    (s.zeroDst).result2 = s.result2 := rfl

@[simp] theorem State.zeroDst_ovr (s : State) :
    (s.zeroDst).ovr = s.ovr := rfl

@[simp] theorem State.zeroDst_err (s : State) :
    (s.zeroDst).err = s.err := rfl

@[simp] theorem State.zeroDst_pending (s : State) :
    (s.zeroDst).pending = s.pending := rfl

@[simp] theorem State.zeroDst_mem (s : State) :
    (s.zeroDst).mem = s.mem.writeBytes s.snap.regs.dstAddr.toNat (List.replicate (4 * s.snap.capacity) 0#8) := rfl

@[simp] theorem State.zeroDst_cfg (s : State) :
    (s.zeroDst).cfg = s.cfg := rfl

@[simp] theorem State.zeroDst_draws (s : State) :
    (s.zeroDst).draws = s.draws := rfl

@[simp] theorem State.zeroDst_host (s : State) :
    (s.zeroDst).host = s.host := rfl

@[simp] theorem State.zeroDst_rdata (s : State) :
    (s.zeroDst).rdata = s.rdata := rfl

/-! ### `State.setOffset` -/

@[simp] theorem State.setOffset_cmd (s : State) (v : Nat) :
    (s.setOffset v).cmd = s.cmd := rfl

@[simp] theorem State.setOffset_regs (s : State) (v : Nat) :
    (s.setOffset v).regs = { s.regs with offset := BitVec.ofNat 64 v } := rfl

@[simp] theorem State.setOffset_result (s : State) (v : Nat) :
    (s.setOffset v).result = s.result := rfl

@[simp] theorem State.setOffset_result2 (s : State) (v : Nat) :
    (s.setOffset v).result2 = s.result2 := rfl

@[simp] theorem State.setOffset_ovr (s : State) (v : Nat) :
    (s.setOffset v).ovr = s.ovr := rfl

@[simp] theorem State.setOffset_err (s : State) (v : Nat) :
    (s.setOffset v).err = s.err := rfl

@[simp] theorem State.setOffset_pending (s : State) (v : Nat) :
    (s.setOffset v).pending = s.pending := rfl

@[simp] theorem State.setOffset_mem (s : State) (v : Nat) :
    (s.setOffset v).mem = s.mem := rfl

@[simp] theorem State.setOffset_cfg (s : State) (v : Nat) :
    (s.setOffset v).cfg = s.cfg := rfl

@[simp] theorem State.setOffset_draws (s : State) (v : Nat) :
    (s.setOffset v).draws = s.draws := rfl

@[simp] theorem State.setOffset_host (s : State) (v : Nat) :
    (s.setOffset v).host = s.host := rfl

@[simp] theorem State.setOffset_rdata (s : State) (v : Nat) :
    (s.setOffset v).rdata = s.rdata := rfl

/-! ### `State.useDraws` -/

@[simp] theorem State.useDraws_cmd (s : State) (count : Nat) :
    (s.useDraws count).cmd = s.cmd := rfl

@[simp] theorem State.useDraws_regs (s : State) (count : Nat) :
    (s.useDraws count).regs = s.regs := rfl

@[simp] theorem State.useDraws_result (s : State) (count : Nat) :
    (s.useDraws count).result = s.result := rfl

@[simp] theorem State.useDraws_result2 (s : State) (count : Nat) :
    (s.useDraws count).result2 = s.result2 := rfl

@[simp] theorem State.useDraws_ovr (s : State) (count : Nat) :
    (s.useDraws count).ovr = s.ovr := rfl

@[simp] theorem State.useDraws_err (s : State) (count : Nat) :
    (s.useDraws count).err = s.err := rfl

@[simp] theorem State.useDraws_pending (s : State) (count : Nat) :
    (s.useDraws count).pending = s.pending := rfl

@[simp] theorem State.useDraws_mem (s : State) (count : Nat) :
    (s.useDraws count).mem = s.mem := rfl

@[simp] theorem State.useDraws_cfg (s : State) (count : Nat) :
    (s.useDraws count).cfg = s.cfg := rfl

@[simp] theorem State.useDraws_draws (s : State) (count : Nat) :
    (s.useDraws count).draws = s.draws + count := rfl

@[simp] theorem State.useDraws_host (s : State) (count : Nat) :
    (s.useDraws count).host = s.host := rfl

@[simp] theorem State.useDraws_rdata (s : State) (count : Nat) :
    (s.useDraws count).rdata = s.rdata := rfl

/-! ### `State.accept` -/

@[simp] theorem State.accept_cmd (s : State) (w : Word) :
    (s.accept w).cmd = w &&& cmdMask := rfl

@[simp] theorem State.accept_regs (s : State) (w : Word) :
    (s.accept w).regs = s.regs := rfl

@[simp] theorem State.accept_result (s : State) (w : Word) :
    (s.accept w).result = s.result := rfl

@[simp] theorem State.accept_result2 (s : State) (w : Word) :
    (s.accept w).result2 = s.result2 := rfl

@[simp] theorem State.accept_ovr (s : State) (w : Word) :
    (s.accept w).ovr = false := rfl

@[simp] theorem State.accept_err (s : State) (w : Word) :
    (s.accept w).err = s.err := rfl

@[simp] theorem State.accept_pending (s : State) (w : Word) :
    (s.accept w).pending = some (s.snapshotOf w) := rfl

@[simp] theorem State.accept_mem (s : State) (w : Word) :
    (s.accept w).mem = s.mem := rfl

@[simp] theorem State.accept_cfg (s : State) (w : Word) :
    (s.accept w).cfg = s.cfg := rfl

@[simp] theorem State.accept_draws (s : State) (w : Word) :
    (s.accept w).draws = s.draws := rfl

@[simp] theorem State.accept_host (s : State) (w : Word) :
    (s.accept w).host = s.host := rfl

@[simp] theorem State.accept_rdata (s : State) (w : Word) :
    (s.accept w).rdata = s.rdata := rfl

/-! ### `State.tail` -/

@[simp] theorem State.tail_cmd (s : State) :
    (s.tail).cmd = s.cmd := rfl

@[simp] theorem State.tail_regs (s : State) :
    (s.tail).regs = s.regs := rfl

@[simp] theorem State.tail_result (s : State) :
    (s.tail).result = s.result := rfl

@[simp] theorem State.tail_result2 (s : State) :
    (s.tail).result2 = s.result2 := rfl

@[simp] theorem State.tail_ovr (s : State) :
    (s.tail).ovr = s.ovr := rfl

@[simp] theorem State.tail_err (s : State) :
    (s.tail).err = s.err := rfl

@[simp] theorem State.tail_pending (s : State) :
    (s.tail).pending = s.pending := rfl

@[simp] theorem State.tail_mem (s : State) :
    (s.tail).mem = s.mem := rfl

@[simp] theorem State.tail_cfg (s : State) :
    (s.tail).cfg = s.cfg := rfl

@[simp] theorem State.tail_draws (s : State) :
    (s.tail).draws = s.draws := rfl

@[simp] theorem State.tail_host (s : State) :
    (s.tail).host = s.host.tail := rfl

@[simp] theorem State.tail_rdata (s : State) :
    (s.tail).rdata = s.rdata := rfl

/-- `State.putBytes` leaves the running command its operands. -/
@[simp] theorem State.putBytes_snap (s : State) (a : Nat) (bs : List Byte) : (s.putBytes a bs).snap = s.snap := rfl

/-- `State.putDst` leaves the running command its operands. -/
@[simp] theorem State.putDst_snap (s : State) (bs : List Byte) : (s.putDst bs).snap = s.snap := rfl

/-- `State.putElems` leaves the running command its operands. -/
@[simp] theorem State.putElems_snap (s : State) (esz : Nat) (vs : List Nat) : (s.putElems esz vs).snap = s.snap := rfl

/-- `State.useDraws` leaves the running command its operands. -/
@[simp] theorem State.useDraws_snap (s : State) (count : Nat) : (s.useDraws count).snap = s.snap := rfl

/-- `State.tail` leaves the running command its operands. -/
@[simp] theorem State.tail_snap (s : State) : (s.tail).snap = s.snap := rfl

end Sys2Proof.Machine
end

