-- ==== Sys2Proof/Laws/Engine.lean ====
section
/-! SUPPORT. What the agents' shared operations can do: the register window (20_memory.md R50), the memory map
(R62, R63), the engine's turn (40_common.md R101, R103) and the host's accesses (60_exceptions.md R320). -/

namespace Sys2Proof.Machine

/-! ### The register window -/

/-- An address has an offset exactly when it is the address of that offset. -/
theorem windowOffset_eq_some {cfg : Params} {addr : Word} {off : BitVec 8} :
    windowOffset cfg addr = some off ↔ addr = regAddr cfg off := by
  have ho := off.isLt
  constructor
  · intro h
    rw [windowOffset] at h
    split at h
    · next hlt =>
      rw [regAddr, ← Option.some.inj h]
      apply BitVec.eq_of_toNat_eq
      simp only [BitVec.toNat_add, BitVec.toNat_sub, BitVec.toNat_setWidth] at hlt ⊢
      omega
    · cases h
  · rintro rfl
    have hd : regAddr cfg off - cfg.regBase = off.setWidth 64 := by
      rw [regAddr, BitVec.add_comm, BitVec.add_sub_cancel]
    rw [windowOffset, hd, if_pos (by simp only [BitVec.toNat_setWidth]; omega)]
    congr 1
    apply BitVec.eq_of_toNat_eq
    simp only [BitVec.toNat_setWidth]
    omega

@[simp] theorem windowOffset_regAddr (cfg : Params) (off : BitVec 8) :
    windowOffset cfg (regAddr cfg off) = some off := windowOffset_eq_some.mpr rfl

/-- An address has no offset exactly when it is the address of none. -/
theorem windowOffset_eq_none {cfg : Params} {addr : Word} :
    windowOffset cfg addr = none ↔ ∀ off, addr ≠ regAddr cfg off := by
  rw [Option.eq_none_iff_forall_ne_some]
  exact forall_congr' fun off => not_congr windowOffset_eq_some

/-- All that a host register access can do. -/
theorem hostRegAccess_cases (addr : Word) (width : Nat) (s : State) (effect : Option Reg → State) :
    ((∀ off, addr ≠ regAddr s.cfg off) ∧ hostRegAccess addr width s effect = .fault .outsideWindow) ∨
      ∃ off, addr = regAddr s.cfg off ∧
        ((supportedAccess off width = true ∧ hostRegAccess addr width s effect = .next (effect (regAt off))) ∨
          (supportedAccess off width = false ∧
            hostRegAccess addr width s effect = .fault .unsupportedHostAccess)) := by
  cases h : windowOffset s.cfg addr with
  | none => exact .inl ⟨windowOffset_eq_none.mp h, by rw [hostRegAccess, h]⟩
  | some off =>
    refine .inr ⟨off, windowOffset_eq_some.mp h, ?_⟩
    cases hs : supportedAccess off width with
    | true => exact .inl ⟨rfl, by simp only [hostRegAccess, h, hs, if_true]⟩
    | false => exact .inr ⟨rfl, by simp [hostRegAccess, h, hs]⟩

/-! ### The memory map -/

/-- All that the memory map can do to an access of `ranges`. -/
theorem guarded_cases (cfg : Params) (ranges : List Buf) (unserved next : Result) :
    ((∃ b ∈ ranges, reachesKind cfg .sideEffecting b = true) ∧
        guarded cfg ranges unserved next = .refused .sideEffectingMemory) ∨
      ((∀ b ∈ ranges, reachesKind cfg .sideEffecting b = false) ∧
        (((∃ b ∈ ranges, reachesKind cfg .unserved b = true) ∧ guarded cfg ranges unserved next = unserved) ∨
          ((∀ b ∈ ranges, reachesKind cfg .unserved b = false) ∧
            guarded cfg ranges unserved next = next))) := by
  cases h : ranges.any (reachesKind cfg .sideEffecting) with
  | true => exact .inl ⟨List.any_eq_true.mp h, by rw [guarded, if_pos h]⟩
  | false =>
    refine .inr ⟨fun b hb => by simpa using List.any_eq_false.mp h b hb, ?_⟩
    cases h' : ranges.any (reachesKind cfg .unserved) with
    | true => exact .inl ⟨List.any_eq_true.mp h', by simp [guarded, h, h']⟩
    | false =>
      exact .inr ⟨fun b hb => by simpa using List.any_eq_false.mp h' b hb, by simp [guarded, h, h']⟩

/-- One byte reaches a kind of memory exactly when it lies in a region of it. -/
theorem reachesKind_byte {cfg : Params} {kind : RegionKind} {a : Nat} :
    reachesKind cfg kind { addr := a, size := 1 } = true ↔ inRegion cfg kind a := by
  simp only [inRegion, reachesKind, Buf.overlaps, regionBuf, List.any_eq_true, Bool.and_eq_true,
    decide_eq_true_eq, Nat.zero_lt_one, true_and]
  refine exists_congr fun r => and_congr_right fun _ => and_congr_right fun _ => ?_
  constructor
  · rintro ⟨⟨-, h⟩, h'⟩
    have := of_decide_eq_true h
    have := of_decide_eq_true h'
    omega
  · rintro ⟨h, h'⟩
    exact ⟨⟨decide_eq_true (by omega), decide_eq_true h'⟩, decide_eq_true (by omega)⟩

/-! ### The engine and the host's memory accesses -/

/-- The pending ranges hold exactly the bytes an access races on. -/
theorem pendingRanges_any {s : State} {a : Nat} : s.pendingRanges.any (·.has a) = true ↔ raced s a := by
  constructor
  · intro h
    rw [State.pendingRanges] at h
    split at h
    · simp at h
    · next p hp =>
      split at h
      · simp at h
      · next i hd => exact ⟨p, i, hp, hd, by simpa [raceRanges] using h⟩
  · rintro ⟨p, i, hp, hd, h⟩
    simpa [State.pendingRanges, hp, hd, raceRanges] using h

/-- All that a host memory access can do. -/
theorem hostMemAccess_cases (a : Word) (s : State) (next : Result) :
    (raced s a.toNat ∧ hostMemAccess a s next = .fault .hostBufferRace) ∨
      (¬raced s a.toNat ∧
        hostMemAccess a s next =
          guarded s.cfg [{ addr := a.toNat, size := 1 }] (.fault .unservedAddress) next) := by
  cases h : s.pendingRanges.any (·.has a.toNat) with
  | true => exact .inl ⟨pendingRanges_any.mp h, by rw [hostMemAccess, if_pos h]⟩
  | false =>
    exact .inr ⟨fun hr => by simp [pendingRanges_any.mpr hr] at h, by rw [hostMemAccess, h]; rfl⟩

/-- All that the engine's turn can do: nothing (idle or stuck), finish a reserved opcode, refuse, or run the
command. -/
theorem engineStep_cases (s : State) :
    (engineStep s = .next s) ∨
      (∃ p op, s.pending = some p ∧ decode s.cfg.hasHexDump p.word = .reserved op ∧
        engineStep s = .next s.reservedOpcode) ∨
      (engineStep s = .refused .sideEffectingMemory) ∨
      ∃ p i, s.pending = some p ∧ decode s.cfg.hasHexDump p.word = .command i ∧ engineStep s = exec i s := by
  cases hp : s.pending with
  | none => exact .inl (by rw [engineStep, hp])
  | some p =>
    cases hd : decode s.cfg.hasHexDump p.word with
    | reserved op => exact .inr (.inl ⟨p, op, rfl, hd, by simp only [engineStep, hp, hd]⟩)
    | command i =>
      have he : engineStep s = guarded s.cfg (usedRanges i p) (.next s) (exec i s) := by
        simp only [engineStep, hp, hd]
      rcases guarded_cases s.cfg (usedRanges i p) (.next s) (exec i s) with ⟨-, h⟩ | ⟨-, ⟨-, h⟩ | ⟨-, h⟩⟩
      · exact .inr (.inr (.inl (he.trans h)))
      · exact .inl (he.trans h)
      · exact .inr (.inr (.inr ⟨p, i, rfl, hd, he.trans h⟩))

end Sys2Proof.Machine
end

