-- ==== Sys2Proof/Laws/Memory.lean ====
section
/-! SUPPORT. What the memory operations do: a byte written reads back, every other byte is left alone, the
canonical form is kept (20_memory.md R52, R59). -/

namespace Sys2Proof.Machine

/-! ### The canonical form -/

theorem Memory.wfFrom_cons {lo a : Nat} {v : Byte} {rest : Memory} :
    Memory.wfFrom lo ((a, v) :: rest) = true ↔
      lo ≤ a ∧ a < memSize ∧ v ≠ Memory.unlisted ∧ Memory.wfFrom (a + 1) rest = true := by
  simp only [Memory.wfFrom, Bool.and_eq_true, decide_eq_true_eq, and_assoc]

theorem Memory.wfFrom_mono {lo lo' : Nat} {m : Memory} (h : Memory.wfFrom lo m = true) (hle : lo' ≤ lo) :
    Memory.wfFrom lo' m = true := by
  cases m with
  | nil => rfl
  | cons e rest =>
    obtain ⟨a, v⟩ := e
    rw [Memory.wfFrom_cons] at h ⊢
    exact ⟨hle.trans h.1, h.2⟩

/-- Below a canonical memory's bound nothing is listed. -/
theorem Memory.read_below {lo a : Nat} {m : Memory} (h : Memory.wfFrom lo m = true) (ha : a < lo) :
    Memory.read m a = Memory.unlisted := by
  induction m generalizing lo with
  | nil => rfl
  | cons e rest ih =>
    obtain ⟨b, v⟩ := e
    rw [Memory.wfFrom_cons] at h
    have hne : b ≠ a := by omega
    rw [Memory.read, if_neg hne]
    exact ih h.2.2.2 (by omega)

theorem Memory.insert_wfFrom {lo a : Nat} {v : Byte} {m : Memory} (h : Memory.wfFrom lo m = true)
    (ha : a < memSize) : Memory.wfFrom (min lo a) (Memory.insert m a v) = true := by
  induction m generalizing lo with
  | nil =>
    by_cases hv : v = Memory.unlisted
    · simp [Memory.insert, hv, Memory.wfFrom]
    · rw [Memory.insert, if_neg hv, Memory.wfFrom_cons]
      exact ⟨by omega, ha, hv, rfl⟩
  | cons e rest ih =>
    obtain ⟨b, w⟩ := e
    have hc := Memory.wfFrom_cons.mp h
    rw [Memory.insert]
    by_cases hlt : a < b
    · by_cases hv : v = Memory.unlisted
      · rw [if_pos hlt, if_pos hv]
        exact Memory.wfFrom_mono h (by omega)
      · rw [if_pos hlt, if_neg hv, Memory.wfFrom_cons, Memory.wfFrom_cons]
        exact ⟨by omega, ha, hv, by omega, hc.2.1, hc.2.2.1, hc.2.2.2⟩
    · by_cases heq : a = b
      · by_cases hv : v = Memory.unlisted
        · rw [if_neg hlt, if_pos heq, if_pos hv]
          exact Memory.wfFrom_mono hc.2.2.2 (by omega)
        · rw [if_neg hlt, if_pos heq, if_neg hv, Memory.wfFrom_cons]
          exact ⟨by omega, ha, hv, heq ▸ hc.2.2.2⟩
      · rw [if_neg hlt, if_neg heq, Memory.wfFrom_cons]
        have := ih hc.2.2.2
        rw [show min (b + 1) a = b + 1 by omega] at this
        exact ⟨by omega, hc.2.1, hc.2.2.1, this⟩

/-- A write keeps the canonical form. -/
theorem Memory.write_wf {m : Memory} (h : m.wf = true) (a : Nat) (v : Byte) : (m.write a v).wf = true := by
  by_cases ha : a < memSize
  · rw [Memory.write, if_pos ha]
    have := Memory.insert_wfFrom (v := v) h ha
    rwa [Nat.zero_min] at this
  · rwa [Memory.write, if_neg ha]

/-- `MemWrite` keeps the canonical form. -/
theorem Memory.writeBytes_wf {m : Memory} (h : m.wf = true) (a : Nat) (bs : List Byte) :
    (m.writeBytes a bs).wf = true := by
  induction bs generalizing m a with
  | nil => exact h
  | cons b bs ih => exact ih (Memory.write_wf h a b) (a + 1)

/-! ### Read after write -/

theorem Memory.read_insert_same {lo a : Nat} {v : Byte} {m : Memory} (h : Memory.wfFrom lo m = true) :
    Memory.read (Memory.insert m a v) a = v := by
  induction m generalizing lo with
  | nil =>
    by_cases hv : v = Memory.unlisted
    · simp [Memory.insert, hv, Memory.read]
    · simp [Memory.insert, hv, Memory.read]
  | cons e rest ih =>
    obtain ⟨b, w⟩ := e
    have hc := Memory.wfFrom_cons.mp h
    rw [Memory.insert]
    by_cases hlt : a < b
    · by_cases hv : v = Memory.unlisted
      · rw [if_pos hlt, if_pos hv, Memory.read, if_neg (by omega), hv]
        exact Memory.read_below hc.2.2.2 (by omega)
      · rw [if_pos hlt, if_neg hv, Memory.read, if_pos rfl]
    · by_cases heq : a = b
      · by_cases hv : v = Memory.unlisted
        · rw [if_neg hlt, if_pos heq, if_pos hv, hv]
          exact Memory.read_below hc.2.2.2 (by omega)
        · rw [if_neg hlt, if_pos heq, if_neg hv, Memory.read, if_pos rfl]
      · rw [if_neg hlt, if_neg heq, Memory.read, if_neg (fun e => heq e.symm)]
        exact ih hc.2.2.2

theorem Memory.read_insert_other {a c : Nat} {v : Byte} {m : Memory} (hne : a ≠ c) :
    Memory.read (Memory.insert m a v) c = Memory.read m c := by
  induction m with
  | nil =>
    by_cases hv : v = Memory.unlisted
    · simp [Memory.insert, hv]
    · simp [Memory.insert, hv, Memory.read, hne]
  | cons e rest ih =>
    obtain ⟨b, w⟩ := e
    rw [Memory.insert]
    by_cases hlt : a < b
    · by_cases hv : v = Memory.unlisted
      · rw [if_pos hlt, if_pos hv]
      · rw [if_pos hlt, if_neg hv, Memory.read, if_neg hne]
    · by_cases heq : a = b
      · by_cases hv : v = Memory.unlisted
        · rw [if_neg hlt, if_pos heq, if_pos hv]
          conv_rhs => rw [Memory.read]
          rw [if_neg (by omega)]
        · rw [if_neg hlt, if_pos heq, if_neg hv]
          conv_lhs => rw [Memory.read]
          conv_rhs => rw [Memory.read]
          rw [if_neg hne, if_neg (by omega)]
      · rw [if_neg hlt, if_neg heq]
        conv_lhs => rw [Memory.read]
        conv_rhs => rw [Memory.read]
        rw [ih]

/-- A byte written inside the address space reads back. -/
theorem Memory.read_write_same {m : Memory} (h : m.wf = true) {a : Nat} (ha : a < memSize) (v : Byte) :
    (m.write a v).read a = v := by
  rw [Memory.write, if_pos ha]
  exact Memory.read_insert_same h

/-- A write leaves every other byte alone. -/
theorem Memory.read_write_other (m : Memory) {a c : Nat} (hne : a ≠ c) (v : Byte) :
    (m.write a v).read c = m.read c := by
  by_cases ha : a < memSize
  · rw [Memory.write, if_pos ha]
    exact Memory.read_insert_other hne
  · rw [Memory.write, if_neg ha]

/-- `MemWrite` leaves every byte outside the bytes written alone. -/
theorem Memory.read_writeBytes_outside (m : Memory) {a c : Nat} {bs : List Byte}
    (h : ¬(a ≤ c ∧ c < a + bs.length)) : (m.writeBytes a bs).read c = m.read c := by
  induction bs generalizing m a with
  | nil => rfl
  | cons b bs ih =>
    rw [List.length_cons] at h
    rw [Memory.writeBytes, ih _ (by omega), Memory.read_write_other _ (by omega)]

/-- `MemWrite` stores its bytes. -/
theorem Memory.read_writeBytes_inside {m : Memory} (hm : m.wf = true) {a k : Nat} {bs : List Byte}
    (hfit : a + bs.length ≤ memSize) (hk : k < bs.length) :
    (m.writeBytes a bs).read (a + k) = bs[k] := by
  induction bs generalizing m a k with
  | nil => simp at hk
  | cons b bs ih =>
    rw [List.length_cons] at hfit hk
    rw [Memory.writeBytes]
    cases k with
    | zero =>
      rw [Memory.read_writeBytes_outside _ (by omega), Nat.add_zero,
        Memory.read_write_same hm (by omega)]
      rfl
    | succ k =>
      have := ih (Memory.write_wf hm a b) (a := a + 1) (k := k) (by omega) (by omega)
      rw [show a + (k + 1) = a + 1 + k by omega, this]
      rfl

/-! ### Reading several bytes -/

@[simp] theorem Memory.length_readBytes (m : Memory) (a n : Nat) : (m.readBytes a n).length = n := by
  induction n generalizing a with
  | zero => rfl
  | succ n ih => rw [Memory.readBytes, List.length_cons, ih]

/-- `MemRead` reads in increasing address order (R52). -/
@[simp] theorem Memory.getElem_readBytes (m : Memory) (a n k : Nat) (h : k < (m.readBytes a n).length) :
    (m.readBytes a n)[k] = m.read (a + k) := by
  induction n generalizing a k with
  | zero => simp at h
  | succ n ih =>
    cases k with
    | zero => simp [Memory.readBytes]
    | succ k =>
      simp only [Memory.readBytes, List.getElem_cons_succ]
      rw [ih]
      congr 1
      omega

/-- Two memories that agree on the bytes read give the same bytes. -/
theorem Memory.readBytes_congr {m m' : Memory} {a n : Nat}
    (h : ∀ c, a ≤ c → c < a + n → m.read c = m'.read c) : m.readBytes a n = m'.readBytes a n := by
  apply List.ext_getElem (by simp)
  intro k h1 h2
  rw [Memory.length_readBytes] at h1
  rw [Memory.getElem_readBytes, Memory.getElem_readBytes]
  exact h _ (by omega) (by omega)

/-- What `MemWrite` stored reads back. -/
theorem Memory.readBytes_writeBytes {m : Memory} (hm : m.wf = true) {a : Nat} {bs : List Byte}
    (hfit : a + bs.length ≤ memSize) : (m.writeBytes a bs).readBytes a bs.length = bs := by
  apply List.ext_getElem (by simp)
  intro k h1 h2
  rw [Memory.getElem_readBytes]
  exact Memory.read_writeBytes_inside hm hfit h2

/-! ### Equal memories, and reset -/

/-- Memories in canonical form that read alike are equal data. -/
theorem Memory.eq_of_read {lo : Nat} {m m' : Memory} (h : Memory.wfFrom lo m = true)
    (h' : Memory.wfFrom lo m' = true) (hr : ∀ a, m.read a = m'.read a) : m = m' := by
  induction m generalizing lo m' with
  | nil =>
    cases m' with
    | nil => rfl
    | cons c rest =>
      rw [Memory.wfFrom_cons] at h'
      exact absurd (by simpa [Memory.read] using (hr c.1).symm) h'.2.2.1
  | cons c rest ih =>
    cases m' with
    | nil =>
      rw [Memory.wfFrom_cons] at h
      exact absurd (by simpa [Memory.read] using hr c.1) h.2.2.1
    | cons c' rest' =>
      obtain ⟨a, v⟩ := c
      obtain ⟨a', v'⟩ := c'
      have hh := h
      have hh' := h'
      rw [Memory.wfFrom_cons] at h h'
      have haa : a = a' := by
        rcases Nat.lt_trichotomy a a' with hlt | heq | hlt
        · have h1 := hr a
          have h2 := Memory.read_below (a := a) h'.2.2.2 (by omega)
          simp [Memory.read, Nat.ne_of_gt hlt, h2] at h1
          exact absurd h1 h.2.2.1
        · exact heq
        · have h1 := hr a'
          have h2 := Memory.read_below (a := a') h.2.2.2 (by omega)
          simp [Memory.read, Nat.ne_of_gt hlt, h2] at h1
          exact absurd h1.symm h'.2.2.1
      subst haa
      have hv : v = v' := by simpa [Memory.read] using hr a
      subst hv
      rw [ih h.2.2.2 h'.2.2.2 fun b => ?_]
      by_cases hb : a = b
      · subst hb
        rw [Memory.read_below h.2.2.2 (by omega), Memory.read_below h'.2.2.2 (by omega)]
      · simpa [Memory.read, hb] using hr b

/-- The reset memory is in canonical form. -/
theorem State.reset_mem_wf : State.reset.mem.wf = true := rfl

end Sys2Proof.Machine
end

