-- ==== Sys2Proof/Laws/Ops.lean ====
section
/-! SUPPORT. What the shared operations can do: the check list (40_common.md R106), the checked command,
and the buffers' checks in terms of addresses (R107 to R109). -/

namespace Sys2Proof.Machine

@[simp] theorem firstFailure_nil : firstFailure [] = none := rfl

@[simp] theorem firstFailure_cons (failed : Bool) (st : Status) (rest : List (Bool × Status)) :
    firstFailure ((failed, st) :: rest) = if failed then some st else firstFailure rest := rfl

/-- No check fails exactly when each of them passes. -/
theorem firstFailure_eq_none {cs : List (Bool × Status)} :
    firstFailure cs = none ↔ ∀ c ∈ cs, c.1 = false := by
  induction cs with
  | nil => simp
  | cons c cs ih =>
    obtain ⟨failed, st⟩ := c
    cases failed <;> simp [ih]

/-- The status of a failing list is that of one of its failing checks. -/
theorem firstFailure_eq_some {cs : List (Bool × Status)} {st : Status} (h : firstFailure cs = some st) :
    ∃ c ∈ cs, c.1 = true ∧ c.2 = st := by
  induction cs with
  | nil => simp at h
  | cons c cs ih =>
    obtain ⟨failed, st'⟩ := c
    cases failed with
    | true =>
      simp only [firstFailure_cons, if_true, Option.some.injEq] at h
      exact ⟨_, List.mem_cons_self, rfl, h⟩
    | false =>
      obtain ⟨c, hc, h1, h2⟩ := ih (by simpa using h)
      exact ⟨c, List.mem_cons_of_mem _ hc, h1, h2⟩

/-- A checked command whose checks pass executes. -/
theorem checked_of_pass {onFail : Status → State} {cs : List (Bool × Status)} {e : Result}
    (h : firstFailure cs = none) : checked onFail cs e = e := by
  rw [checked, h]

/-- A checked command whose first failing check has status `st` ends with it. -/
theorem checked_of_fail {onFail : Status → State} {cs : List (Bool × Status)} {e : Result} {st : Status}
    (h : firstFailure cs = some st) : checked onFail cs e = .next (onFail st) := by
  rw [checked, h]

/-- All that a checked command can do: fail with the status of a failing check, or execute. -/
theorem checked_cases {onFail : Status → State} {cs : List (Bool × Status)} {e o : Result}
    (h : checked onFail cs e = o) :
    (∃ st, firstFailure cs = some st ∧ o = .next (onFail st)) ∨ (firstFailure cs = none ∧ o = e) := by
  cases hf : firstFailure cs with
  | none => exact .inr ⟨rfl, by rw [← h, checked_of_pass hf]⟩
  | some st => exact .inl ⟨st, rfl, by rw [← h, checked_of_fail hf]⟩

/-! ### Buffers -/

theorem Buf.isNull_eq_false {b : Buf} : b.isNull = false ↔ (b.size = 0 ∨ b.addr ≠ 0) := by
  simp only [Buf.isNull, Bool.and_eq_false_iff, decide_eq_false_iff_not]
  omega

theorem Buf.outOfRange_eq_false {b : Buf} :
    b.outOfRange = false ↔ (b.size = 0 ∨ b.addr + b.size ≤ memSize) := by
  simp only [Buf.outOfRange, Bool.and_eq_false_iff, decide_eq_false_iff_not]
  omega

/-- Two buffers overlap exactly when they share a byte (R109). -/
theorem Buf.overlaps_iff {b c : Buf} : b.overlaps c = true ↔ ∃ a, b.has a = true ∧ c.has a = true := by
  simp only [Buf.overlaps, Buf.has, Bool.and_eq_true, decide_eq_true_eq]
  constructor
  · rintro ⟨⟨⟨h1, h2⟩, h3⟩, h4⟩
    exact ⟨max b.addr c.addr, by omega, by omega⟩
  · rintro ⟨a, h1, h2⟩
    omega

@[simp] theorem nullCheck_fst (b : Buf) : (nullCheck b).1 = b.isNull := rfl
@[simp] theorem rangeCheck_fst (b : Buf) : (rangeCheck b).1 = b.outOfRange := rfl
@[simp] theorem overlapCheck_fst (b c : Buf) : (overlapCheck b c).1 = b.overlaps c := rfl
@[simp] theorem argumentCheck_fst (bad : Bool) : (argumentCheck bad).1 = bad := rfl
@[simp] theorem overflowCheck_fst (n : Nat) : (overflowCheck n).1 = decide (lenLimit ≤ n) := rfl
@[simp] theorem capacityCheck_fst (c n : Nat) : (capacityCheck c n).1 = decide (c < n) := rfl
@[simp] theorem nullCheck_snd (b : Buf) : (nullCheck b).2 = .invalidNullPointer := rfl
@[simp] theorem rangeCheck_snd (b : Buf) : (rangeCheck b).2 = .invalidArgument := rfl
@[simp] theorem overlapCheck_snd (b c : Buf) : (overlapCheck b c).2 = .invalidArgument := rfl
@[simp] theorem argumentCheck_snd (bad : Bool) : (argumentCheck bad).2 = .invalidArgument := rfl
@[simp] theorem overflowCheck_snd (n : Nat) : (overflowCheck n).2 = .invalidArgument := rfl
@[simp] theorem capacityCheck_snd (c n : Nat) : (capacityCheck c n).2 = .bufferTooSmall := rfl

/-! ### Writing at the destination -/

/-- A destination write that fits in memory wrote exactly its bytes (R59). -/
theorem putDst_wroteAt {s : State} (hm : s.mem.wf = true) {bs : List Byte}
    (hfit : s.snap.regs.dstAddr.toNat + bs.length ≤ memSize) :
    WroteAt s (s.putDst bs) s.snap.regs.dstAddr.toNat bs :=
  ⟨Memory.readBytes_writeBytes hm hfit, fun _ hb => Memory.read_writeBytes_outside _ hb⟩

end Sys2Proof.Machine
end

