-- ==== Sys2Proof/Laws/Exec.lean ====
section
/-! SUPPORT. All that a command can do when it answers a next state, said once (40_common.md R103, R104;
20_memory.md R59): it finishes, after writing some bytes at its destination, or using a free value, or
advancing OFFSET. Every frame follows from this. -/

namespace Sys2Proof.Machine

/-- What a command that answers `t` did: it wrote `bs` at its destination, inside the destination's bytes
and only if it finished OK or is U8_DECODE; used a free value (HEX_DECLEN); or wrote OFFSET as well
(HEX_DUMP with USE_OFF = 1 that finished OK); then it finished. -/
def ExecEffect (i : Instr) (s t : State) : Prop :=
  ∃ (bs : List Byte) (u : State) (st : Status) (r r2 : Nat),
    t = u.finish st r r2 ∧ st ≠ .notPowerOfTwo ∧
    bs.length ≤ (dstRange i s.snap).size ∧
    ((dstRange i s.snap).outOfRange = false ∨ bs = []) ∧
    (bs = [] ∨ st = .ok ∨ i = .u8Decode) ∧
    (u = s.putDst bs ∨ (u = s.useDraws 1 ∧ bs = [] ∧ i = .hexDeclen) ∨
      (∃ v, u = (s.putDst bs).setOffset v ∧ i = .hexDump true ∧ st = .ok))

theorem execEffect_finish {i : Instr} {s : State} {st : Status} (hst : st ≠ .notPowerOfTwo) (r r2 : Nat) :
    ExecEffect i s (s.finish st r r2) :=
  ⟨[], s, st, r, r2, rfl, hst, by simp, .inr rfl, .inl rfl, .inl rfl⟩

theorem execEffect_put {i : Instr} {s : State} {bs : List Byte} {st : Status} {r r2 : Nat}
    (hlen : bs.length ≤ (dstRange i s.snap).size) (hfit : (dstRange i s.snap).outOfRange = false)
    (hst : st ≠ .notPowerOfTwo) (hok : st = .ok ∨ i = .u8Decode) :
    ExecEffect i s ((s.putDst bs).finish st r r2) :=
  ⟨bs, _, st, r, r2, rfl, hst, hlen, .inl hfit, .inr hok, .inl rfl⟩

/-- A checked command: if each way to execute has the effect, so has the command. -/
theorem execEffect_checked {i : Instr} {s t : State} {onFail : Status → State}
    {cs : List (Bool × Status)} {e : Result} (h : checked onFail cs e = .next t)
    (hf : onFail = s.fail ∨ onFail = s.failReplacement) (hcs : ∀ c ∈ cs, c.2 ≠ .notPowerOfTwo)
    (he : firstFailure cs = none → e = .next t → ExecEffect i s t) : ExecEffect i s t := by
  rcases checked_cases h with ⟨st, hst, ht⟩ | ⟨hp, ht⟩
  · obtain ⟨c, hc, -, rfl⟩ := firstFailure_eq_some hst
    rw [Host.Outcome.next.injEq] at ht
    rcases hf with rfl | rfl <;> rw [ht] <;> exact execEffect_finish (hcs c hc) _ _
  · exact he hp ht.symm

/-- A command that writes nothing. -/
theorem execEffect_of_next {i : Instr} {s t : State} {r r2 : Nat}
    (h : (Host.Outcome.next (s.finish .ok r r2) : Result) = .next t) : ExecEffect i s t := by
  rw [Host.Outcome.next.injEq] at h
  exact h ▸ execEffect_finish (by decide) r r2

/-- A command that writes `bs` and finishes OK. -/
theorem execEffect_of_put {i : Instr} {s t : State} {bs : List Byte} {r r2 : Nat}
    (h : (Host.Outcome.next ((s.putDst bs).finish .ok r r2) : Result) = .next t)
    (hlen : bs.length ≤ (dstRange i s.snap).size) (hfit : (dstRange i s.snap).outOfRange = false) :
    ExecEffect i s t := by
  rw [Host.Outcome.next.injEq] at h
  exact h ▸ execEffect_put hlen hfit (by decide) (.inl rfl)

@[simp] theorem State.length_srcBytes (s : State) : s.srcBytes.length = s.snap.n := by
  simp [State.srcBytes]

@[simp] theorem State.length_srcElems (s : State) (esz : Nat) : (s.srcElems esz).length = s.snap.n := by
  simp [State.srcElems, State.readElems]

theorem Snapshot.size_dst (p : Snapshot) (esz : Nat) : (p.dst esz).size = p.capacity * esz := rfl

/-! ### The shared bodies -/

theorem radixEncode_effect {i : Instr} {r : Radix} {alpha : AlphaSel} {legal : Bool} {s t : State}
    (hD : 0 < r.bytes) (hk : 0 < r.bits) (hfit : 8 * r.bytes ≤ r.bits * r.symbols)
    (hi : dstRange i s.snap = s.snap.dst 1) (h : radixEncode r alpha legal s = .next t) :
    ExecEffect i s t := by
  refine execEffect_checked h (.inl rfl) (by simp) fun hp he => ?_
  rw [firstFailure_eq_none] at hp
  simp at hp
  refine execEffect_of_put he ?_ (hi ▸ hp.2.2.2.2.2.1)
  rw [length_encodeText hD hk hfit, hi, Snapshot.size_dst, State.length_srcBytes]
  omega

theorem radixDecode_effect {i : Instr} {r : Radix} {alpha : AlphaSel} {legal : Bool}
    {value : Byte → Option Nat} {length : List Byte → Option Nat} {s t : State}
    (hi : dstRange i s.snap = s.snap.dst 1) (h : radixDecode r alpha legal value length s = .next t) :
    ExecEffect i s t := by
  refine execEffect_checked h (.inl rfl) (by simp) fun hp he => ?_
  rw [firstFailure_eq_none] at hp
  simp at hp
  split at he
  · exact execEffect_of_next he
  · split at he
    · cases he
    · next out hout =>
      refine execEffect_of_put he ?_ (hi ▸ hp.2.2.2.2.2.1)
      have := length_decodeText_le hout
      rw [hi, Snapshot.size_dst]
      omega

theorem encodeInt_effect {i : Instr} {n : Nat} {bo : BoTag} {s t : State}
    (hi : dstRange i s.snap = s.snap.dst 1) (h : encodeInt n bo s = .next t) : ExecEffect i s t := by
  refine execEffect_checked h (.inl rfl) (by simp [endianNullCheck]) fun hp he => ?_
  rw [firstFailure_eq_none] at hp
  simp at hp
  refine execEffect_of_put he ?_ (hi ▸ hp.2.2.1)
  rw [length_toBytes, hi, Snapshot.size_dst]
  omega

theorem decodeInt_effect {i : Instr} {n : Nat} {bo : BoTag} {s t : State} (h : decodeInt n bo s = .next t) :
    ExecEffect i s t :=
  execEffect_checked h (.inl rfl) (by simp [endianNullCheck]) fun _ he => execEffect_of_next he

/-! ### The commands that write -/

theorem execHexEncode_effect {s t : State} (h : execHexEncode s = .next t) : ExecEffect .hexEncode s t := by
  refine execEffect_checked h (.inl rfl) (by simp) fun hp he => ?_
  rw [firstFailure_eq_none] at hp
  simp at hp
  refine execEffect_of_put he ?_ hp.2.2.2.1
  rw [length_hexText, State.length_srcBytes]
  show _ ≤ s.snap.capacity * 1
  omega

theorem execHexDeclen_effect {s t : State} (h : execHexDeclen s = .next t) :
    ExecEffect .hexDeclen s t := by
  rw [execHexDeclen] at h
  split at h
  · exact execEffect_of_next h
  · rw [Host.Outcome.next.injEq] at h
    exact ⟨[], _, .ok, _, _, h.symm, by decide, by simp, .inr rfl, .inl rfl, .inr (.inl ⟨rfl, rfl, rfl⟩)⟩

theorem execHexDecode_effect {s t : State} (h : execHexDecode s = .next t) : ExecEffect .hexDecode s t := by
  refine execEffect_checked h (.inl rfl) (by simp) fun hp he => ?_
  rw [firstFailure_eq_none] at hp
  simp at hp
  split at he
  · cases he
  · next out hout =>
    refine execEffect_of_put he ?_ hp.2.2.2.1
    have := length_hexBytes hout
    rw [State.length_srcBytes] at this
    show _ ≤ s.snap.capacity * 1
    omega

theorem execHexDump_effect {useOff : Bool} {s t : State} (h : execHexDump useOff s = .next t) :
    ExecEffect (.hexDump useOff) s t := by
  refine execEffect_checked h (.inl rfl) (by simp) fun hp he => ?_
  rw [firstFailure_eq_none] at hp
  simp at hp
  have hlen : (dumpText (dumpStart useOff s.snap) s.srcBytes).length ≤
      (dstRange (.hexDump useOff) s.snap).size := by
    rw [length_dumpText, State.length_srcBytes]
    show _ ≤ s.snap.capacity * 1
    omega
  cases useOff with
  | false => exact execEffect_of_put he hlen hp.2.2.2.1
  | true =>
    rw [Host.Outcome.next.injEq] at he
    exact ⟨_, _, .ok, _, _, he.symm, by decide, hlen, .inl hp.2.2.2.1, .inr (.inl rfl),
      .inr (.inr ⟨_, rfl, rfl, rfl⟩)⟩

theorem execU8Cpenc_effect {s t : State} (h : execU8Cpenc s = .next t) : ExecEffect .u8Cpenc s t := by
  refine execEffect_checked h (.inl rfl) (by simp) fun hp he => ?_
  rw [firstFailure_eq_none] at hp
  simp at hp
  refine execEffect_of_put he ?_ hp.2.1
  rw [length_u8Encode]
  show _ ≤ s.snap.capacity * 1
  omega

theorem execU8Encode_effect {s t : State} (h : execU8Encode s = .next t) : ExecEffect .u8Encode s t := by
  refine execEffect_checked h (.inl rfl) (by simp) fun hp he => ?_
  rw [firstFailure_eq_none] at hp
  simp at hp
  refine execEffect_of_put he ?_ hp.2.2.2.1
  rw [length_u8Text]
  show _ ≤ s.snap.capacity * 1
  omega

theorem execU8Decode_effect {s t : State} (h : execU8Decode s = .next t) : ExecEffect .u8Decode s t := by
  refine execEffect_checked h (.inl rfl) (by simp) fun hp he => ?_
  rw [firstFailure_eq_none] at hp
  simp at hp
  have hzero : (List.replicate (4 * s.snap.capacity) 0#8).length ≤ (dstRange .u8Decode s.snap).size := by
    rw [List.length_replicate]
    show _ ≤ s.snap.capacity * 4
    omega
  split at he
  · rw [Host.Outcome.next.injEq] at he
    exact he ▸ execEffect_put hzero hp.2.2.2.1 (by decide) (.inr rfl)
  · split at he
    · rw [Host.Outcome.next.injEq] at he
      exact he ▸ execEffect_put hzero hp.2.2.2.1 (by decide) (.inr rfl)
    · next hcap _ =>
      refine execEffect_of_put he ?_ hp.2.2.2.1
      rw [length_elemBytes, List.length_map, ← u8DecodedLength]
      show _ ≤ s.snap.capacity * 4
      omega

theorem execU16Cpenc_effect {s t : State} (h : execU16Cpenc s = .next t) : ExecEffect .u16Cpenc s t := by
  refine execEffect_checked h (.inl rfl) (by simp) fun hp he => ?_
  rw [firstFailure_eq_none] at hp
  simp at hp
  refine execEffect_of_put he ?_ hp.2.1
  rw [length_elemBytes]
  show _ ≤ s.snap.capacity * 2
  omega

theorem execU16Encode_effect {s t : State} (h : execU16Encode s = .next t) : ExecEffect .u16Encode s t := by
  refine execEffect_checked h (.inl rfl) (by simp) fun hp he => ?_
  rw [firstFailure_eq_none] at hp
  simp at hp
  refine execEffect_of_put he ?_ hp.2.2.2.1
  rw [length_elemBytes, length_u16Text]
  show _ ≤ s.snap.capacity * 2
  omega

theorem execU16Decode_effect {s t : State} (h : execU16Decode s = .next t) : ExecEffect .u16Decode s t := by
  refine execEffect_checked h (.inl rfl) (by simp) fun hp he => ?_
  rw [firstFailure_eq_none] at hp
  simp at hp
  refine execEffect_of_put he ?_ hp.2.2.2.1
  rw [length_elemBytes, List.length_map, ← u16DecodedLength]
  show _ ≤ s.snap.capacity * 4
  omega

/-! ### All commands -/

/-- All that `exec` can do when it answers a next state. -/
theorem exec_effect {i : Instr} {s t : State} (h : exec i s = .next t) : ExecEffect i s t := by
  cases i with
  | nop => exact execEffect_of_next h
  | hexEnclen => exact execEffect_checked h (.inl rfl) (by simp) fun _ he => execEffect_of_next he
  | hexEncode => exact execHexEncode_effect h
  | hexValid => exact execEffect_checked h (.inl rfl) (by simp) fun _ he => execEffect_of_next he
  | hexDeclen => exact execHexDeclen_effect h
  | hexDecode => exact execHexDecode_effect h
  | hexDumplen => exact execEffect_checked h (.inl rfl) (by simp) fun _ he => execEffect_of_next he
  | hexDump useOff => exact execHexDump_effect h
  | b32Enclen => exact execEffect_checked h (.inl rfl) (by simp) fun _ he => execEffect_of_next he
  | b32Encode alpha => exact radixEncode_effect (by decide) (by decide) (by decide) rfl h
  | b32Valid alpha => exact execEffect_checked h (.inl rfl) (by simp) fun _ he => execEffect_of_next he
  | b32Declen => exact execEffect_checked h (.inl rfl) (by simp) fun _ he => execEffect_of_next he
  | b32Decode alpha => exact radixDecode_effect rfl h
  | b64Enclen => exact execEffect_checked h (.inl rfl) (by simp) fun _ he => execEffect_of_next he
  | b64Encode alpha => exact radixEncode_effect (by decide) (by decide) (by decide) rfl h
  | b64Valid alpha => exact execEffect_checked h (.inl rfl) (by simp) fun _ he => execEffect_of_next he
  | b64Declen => exact execEffect_checked h (.inl rfl) (by simp) fun _ he => execEffect_of_next he
  | b64Decode alpha => exact radixDecode_effect rfl h
  | u8Cpsize => exact execEffect_checked h (.inl rfl) (by simp) fun _ he => execEffect_of_next he
  | u8Enclen => exact execEffect_checked h (.inl rfl) (by simp) fun _ he => execEffect_of_next he
  | u8Cpenc => exact execU8Cpenc_effect h
  | u8Encode => exact execU8Encode_effect h
  | u8Valid => exact execEffect_checked h (.inl rfl) (by simp) fun _ he => execEffect_of_next he
  | u8Declen => exact execEffect_checked h (.inl rfl) (by simp) fun _ he => execEffect_of_next he
  | u8Cpdec => exact execEffect_checked h (.inr rfl) (by simp) fun _ he => execEffect_of_next he
  | u8Decode => exact execU8Decode_effect h
  | u16Enclen => exact execEffect_checked h (.inl rfl) (by simp) fun _ he => execEffect_of_next he
  | u16Cpenc => exact execU16Cpenc_effect h
  | u16Encode => exact execU16Encode_effect h
  | u16Valid => exact execEffect_checked h (.inl rfl) (by simp) fun _ he => execEffect_of_next he
  | u16Declen => exact execEffect_checked h (.inl rfl) (by simp) fun _ he => execEffect_of_next he
  | u16Cpdec => exact execEffect_checked h (.inr rfl) (by simp) fun _ he => execEffect_of_next he
  | u16Decode => exact execU16Decode_effect h
  | encU16 bo => exact encodeInt_effect rfl h
  | encU32 bo => exact encodeInt_effect rfl h
  | encU64 bo => exact encodeInt_effect rfl h
  | decU16 bo => exact decodeInt_effect h
  | decU32 bo => exact decodeInt_effect h
  | decU64 bo => exact decodeInt_effect h

end Sys2Proof.Machine
end

