-- ==== Sys2Proof/Laws/PerInstr.lean ====
section
/-! SUPPORT. Statements about every instruction as syntax, one lemma per constructor (30_encoding.md R70,
R82): where the encoder puts each field of the command word. -/

namespace Sys2Proof.Laws

/-- The encoded word has the opcode in bits [7:0], ALPHA in [11:8], BO in [13:12], USE_OFF in [14], and
nothing above (R70, R82). -/
def EncodeShape.Statement (i : Instr) : Prop :=
  opOf (encode i) = i.opcode ∧ (encode i).extractLsb' 8 4 = i.alphaField ∧
    (encode i).extractLsb' 12 2 = i.boField ∧ useOffOf (encode i) = i.useOffField ∧
    (encode i).toNat < 2 ^ 15

/-- The number an encoded word is. -/
theorem toNat_fields (u : Bool) (b : BitVec 2) (a : BitVec 4) (o : BitVec 8) :
    (0#49 ++ BitVec.ofBool u ++ b ++ a ++ o : BitVec (49 + 1 + 2 + 4 + 8)).toNat =
      o.toNat + 2 ^ 8 * a.toNat + 2 ^ 12 * b.toNat + 2 ^ 14 * u.toNat := by
  simp only [BitVec.toNat_append, BitVec.toNat_ofBool, BitVec.toNat_ofNat, Nat.zero_mod, Nat.zero_shiftLeft,
    Nat.zero_or]
  rw [← Nat.shiftLeft_add_eq_or_of_lt (by omega), ← Nat.shiftLeft_add_eq_or_of_lt (by omega),
    ← Nat.shiftLeft_add_eq_or_of_lt (by omega)]
  simp only [Nat.shiftLeft_eq]
  omega

/-- The fields of a word put together from its fields. -/
theorem fields_of_word {u : Bool} {b : BitVec 2} {a : BitVec 4} {o : BitVec 8} {w : Word}
    (h : w.toNat = o.toNat + 2 ^ 8 * a.toNat + 2 ^ 12 * b.toNat + 2 ^ 14 * u.toNat) :
    opOf w = o ∧ w.extractLsb' 8 4 = a ∧ w.extractLsb' 12 2 = b ∧ useOffOf w = u ∧ w.toNat < 2 ^ 15 := by
  have hu : u.toNat ≤ 1 := Bool.toNat_le u
  refine ⟨?_, ?_, ?_, ?_, by omega⟩
  · apply BitVec.eq_of_toNat_eq
    rw [opOf, BitVec.extractLsb'_toNat, Nat.shiftRight_eq_div_pow]
    omega
  · apply BitVec.eq_of_toNat_eq
    rw [BitVec.extractLsb'_toNat, Nat.shiftRight_eq_div_pow]
    omega
  · apply BitVec.eq_of_toNat_eq
    rw [BitVec.extractLsb'_toNat, Nat.shiftRight_eq_div_pow]
    omega
  · rw [useOffOf, BitVec.getLsbD, Nat.testBit_eq_decide_div_mod_eq]
    cases u <;> simp only [Bool.toNat_true, Bool.toNat_false] at h <;> simp <;> omega

/-- The shape of any encoded word. -/
theorem encode_shape (i : Instr) : EncodeShape.Statement i := fields_of_word (toNat_fields _ _ _ _)

theorem EncodeShape.nop : EncodeShape.Statement .nop := encode_shape _
theorem EncodeShape.hexEnclen : EncodeShape.Statement .hexEnclen := encode_shape _
theorem EncodeShape.hexEncode : EncodeShape.Statement .hexEncode := encode_shape _
theorem EncodeShape.hexValid : EncodeShape.Statement .hexValid := encode_shape _
theorem EncodeShape.hexDeclen : EncodeShape.Statement .hexDeclen := encode_shape _
theorem EncodeShape.hexDecode : EncodeShape.Statement .hexDecode := encode_shape _
theorem EncodeShape.hexDumplen : EncodeShape.Statement .hexDumplen := encode_shape _
theorem EncodeShape.hexDump (useOff : Bool) : EncodeShape.Statement (.hexDump useOff) := encode_shape _
theorem EncodeShape.b32Enclen : EncodeShape.Statement .b32Enclen := encode_shape _
theorem EncodeShape.b32Encode (alpha : AlphaSel) : EncodeShape.Statement (.b32Encode alpha) := encode_shape _
theorem EncodeShape.b32Valid (alpha : AlphaSel) : EncodeShape.Statement (.b32Valid alpha) := encode_shape _
theorem EncodeShape.b32Declen : EncodeShape.Statement .b32Declen := encode_shape _
theorem EncodeShape.b32Decode (alpha : AlphaSel) : EncodeShape.Statement (.b32Decode alpha) := encode_shape _
theorem EncodeShape.b64Enclen : EncodeShape.Statement .b64Enclen := encode_shape _
theorem EncodeShape.b64Encode (alpha : AlphaSel) : EncodeShape.Statement (.b64Encode alpha) := encode_shape _
theorem EncodeShape.b64Valid (alpha : AlphaSel) : EncodeShape.Statement (.b64Valid alpha) := encode_shape _
theorem EncodeShape.b64Declen : EncodeShape.Statement .b64Declen := encode_shape _
theorem EncodeShape.b64Decode (alpha : AlphaSel) : EncodeShape.Statement (.b64Decode alpha) := encode_shape _
theorem EncodeShape.u8Cpsize : EncodeShape.Statement .u8Cpsize := encode_shape _
theorem EncodeShape.u8Enclen : EncodeShape.Statement .u8Enclen := encode_shape _
theorem EncodeShape.u8Cpenc : EncodeShape.Statement .u8Cpenc := encode_shape _
theorem EncodeShape.u8Encode : EncodeShape.Statement .u8Encode := encode_shape _
theorem EncodeShape.u8Valid : EncodeShape.Statement .u8Valid := encode_shape _
theorem EncodeShape.u8Declen : EncodeShape.Statement .u8Declen := encode_shape _
theorem EncodeShape.u8Cpdec : EncodeShape.Statement .u8Cpdec := encode_shape _
theorem EncodeShape.u8Decode : EncodeShape.Statement .u8Decode := encode_shape _
theorem EncodeShape.u16Enclen : EncodeShape.Statement .u16Enclen := encode_shape _
theorem EncodeShape.u16Cpenc : EncodeShape.Statement .u16Cpenc := encode_shape _
theorem EncodeShape.u16Encode : EncodeShape.Statement .u16Encode := encode_shape _
theorem EncodeShape.u16Valid : EncodeShape.Statement .u16Valid := encode_shape _
theorem EncodeShape.u16Declen : EncodeShape.Statement .u16Declen := encode_shape _
theorem EncodeShape.u16Cpdec : EncodeShape.Statement .u16Cpdec := encode_shape _
theorem EncodeShape.u16Decode : EncodeShape.Statement .u16Decode := encode_shape _
theorem EncodeShape.encU16 (bo : BoTag) : EncodeShape.Statement (.encU16 bo) := encode_shape _
theorem EncodeShape.encU32 (bo : BoTag) : EncodeShape.Statement (.encU32 bo) := encode_shape _
theorem EncodeShape.encU64 (bo : BoTag) : EncodeShape.Statement (.encU64 bo) := encode_shape _
theorem EncodeShape.decU16 (bo : BoTag) : EncodeShape.Statement (.decU16 bo) := encode_shape _
theorem EncodeShape.decU32 (bo : BoTag) : EncodeShape.Statement (.decU32 bo) := encode_shape _
theorem EncodeShape.decU64 (bo : BoTag) : EncodeShape.Statement (.decU64 bo) := encode_shape _

end Sys2Proof.Laws
end

