-- ==== Sys2Proof/Tests/Slice0.lean ====
section
/-! SUPPORT. Tests: ill-formed terms that WellFormed refuses, decoding of words written out from
30_encoding.md, one-command vectors of 95_test_vectors.md (each name or comment gives the vector's id), and
for every obligation with hypotheses a witness that meets them, at boundary values where clauses meet. -/

namespace Sys2Proof.Tests

open Sys2Proof.Machine

/-! ### Small states -/

/-- The parameters of 95_test_vectors.md, with a register window at an address of this file's own. -/
def params : Params :=
  { regBase := 0x40000000#64, nativeOrder := .little, hexCase := .lower, hasHexDump := true, regions := [] }

def regsOf (srcAddr srcLen dstAddr dstLen alphaAddr arg offset : Nat) : OpRegs :=
  { srcAddr := BitVec.ofNat 64 srcAddr, srcLen := BitVec.ofNat 64 srcLen, dstAddr := BitVec.ofNat 64 dstAddr,
    dstLen := BitVec.ofNat 64 dstLen, alphaAddr := BitVec.ofNat 64 alphaAddr, arg := BitVec.ofNat 64 arg,
    offset := BitVec.ofNat 64 offset }

def bytesOf (bs : List Nat) : List Byte := bs.map (BitVec.ofNat 8)

/-- An idle block with these registers and memory. -/
def idle (regs : OpRegs) (mem : Memory) (host : List HostStep) : State :=
  { State.resetWith params with regs := regs, mem := mem, host := host }

/-- The block with the command word `w` accepted and the engine to move. -/
def load (w : Nat) (regs : OpRegs) (mem : Memory) : State := (idle regs mem []).accept (BitVec.ofNat 64 w)

/-- Command `w` on the bytes `src` at 0x1000, `count` elements of them, and a destination of `dstLen` elements
at 0x2000. -/
def run (w : Nat) (src : List Byte) (count dstLen arg offset : Nat) : State :=
  load w (regsOf 0x1000 count 0x2000 dstLen 0 arg offset) (Memory.writeBytes [] 0x1000 src)

/-- Command `w` on the whole of `src`. -/
def runBytes (w : Nat) (src : List Byte) (dstLen : Nat) : State := run w src src.length dstLen 0 0

/-- Status, RESULT, RESULT2 and the first `k` destination bytes after one step; none if it does not answer a
next state. -/
def after (s : State) (k : Nat) : Option (Nat × Nat × Nat × List Byte) :=
  match step s with
  | .next t => some (t.err.code.toNat, t.result.toNat, t.result2.toNat,
      t.mem.readBytes s.snap.regs.dstAddr.toNat k)
  | .fault _ => none
  | .refused _ => none

/-- The step ends in the fault UndefinedInput. -/
def undefinedInput (s : State) : Bool :=
  match step s with
  | .fault .undefinedInput => true
  | .fault _ => false
  | .next _ => false
  | .refused _ => false

/-! ### WellFormed refuses ill-formed terms (R72, R73) -/

theorem test_wf_refuses_assigned_alpha_code : (Instr.b32Encode (.reserved 4#4)).wf = false := by decide
theorem test_wf_refuses_alpha_code_five : (Instr.b64Decode (.reserved 5#4)).wf = false := by decide
theorem test_wf_accepts_alpha_code_six : (Instr.b32Valid (.reserved 6#4)).wf = true := by decide
theorem test_wf_refuses_assigned_bo_code : (Instr.encU16 (.unsupported 1#2)).wf = false := by decide
theorem test_wf_refuses_bo_code_zero : (Instr.decU64 (.unsupported 0#2)).wf = false := by decide
theorem test_wf_accepts_bo_code_two : (Instr.decU32 (.unsupported 2#2)).wf = true := by decide

/-! ### Decoding of written-out words (R70 to R74, R82) -/

theorem test_decode_common_and_hex :
    [0x0000#64, 0x0011#64, 0x0013#64, 0x0018#64, 0x0019#64, 0x001B#64, 0x001C#64, 0x001D#64, 0x401D#64].map
        (decode true) =
      [.command .nop, .command .hexEnclen, .command .hexEncode, .command .hexValid, .command .hexDeclen,
        .command .hexDecode, .command .hexDumplen, .command (.hexDump false), .command (.hexDump true)] := by
  decide

theorem test_decode_base32 :
    [0x0021#64, 0x0023#64, 0x0123#64, 0x0223#64, 0x0328#64, 0x0029#64, 0x032B#64, 0x0723#64].map
        (decode true) =
      [.command .b32Enclen, .command (.b32Encode .custom), .command (.b32Encode .b32Rfc4648),
        .command (.b32Encode .b32Hex), .command (.b32Valid .b32Crockford), .command .b32Declen,
        .command (.b32Decode .b32Crockford), .command (.b32Encode (.reserved 7#4))] := by decide

theorem test_decode_base64 :
    [0x0031#64, 0x0433#64, 0x0538#64, 0x0039#64, 0x053B#64, 0x0F3B#64].map (decode true) =
      [.command .b64Enclen, .command (.b64Encode .b64Std), .command (.b64Valid .b64Url),
        .command .b64Declen, .command (.b64Decode .b64Url), .command (.b64Decode (.reserved 15#4))] := by
  decide

theorem test_decode_utf8 :
    [0x40#64, 0x41#64, 0x42#64, 0x43#64, 0x48#64, 0x49#64, 0x4A#64, 0x4B#64].map (decode true) =
      [.command .u8Cpsize, .command .u8Enclen, .command .u8Cpenc, .command .u8Encode, .command .u8Valid,
        .command .u8Declen, .command .u8Cpdec, .command .u8Decode] := by decide

theorem test_decode_utf16 :
    [0x51#64, 0x52#64, 0x53#64, 0x58#64, 0x59#64, 0x5A#64, 0x5B#64].map (decode true) =
      [.command .u16Enclen, .command .u16Cpenc, .command .u16Encode, .command .u16Valid,
        .command .u16Declen, .command .u16Cpdec, .command .u16Decode] := by decide

theorem test_decode_endian :
    [0x0060#64, 0x1061#64, 0x3062#64, 0x1068#64, 0x0069#64, 0x206A#64].map (decode true) =
      [.command (.encU16 .big), .command (.encU32 .little), .command (.encU64 (.unsupported 3#2)),
        .command (.decU16 .little), .command (.decU32 .big), .command (.decU64 (.unsupported 2#2))] := by
  decide

/-- V-C2, V-C4, V-D13. -/
theorem test_decode_reserved_words :
    [0x12#64, 0x3F#64, 0x44#64, 0x6B#64, 0xFFFFFFFFFFFF0000#64].map (decode true) =
        [.reserved 0x12#8, .reserved 0x3F#8, .reserved 0x44#8, .reserved 0x6B#8, .command .nop] ∧
      decode false 0x1C#64 = .reserved 0x1C#8 := by decide

/-! ### The host interface and the shared checks (95_test_vectors.md 2.1) -/

/-- V-C3: a reserved opcode. -/
theorem test_reserved_opcode_fails : after (runBytes 0xFF [0x55#8] 1) 1 = some (2, 0, 0, [0#8]) := by decide

/-- V-C5: the second CMD write sets OVR and changes nothing else. -/
theorem test_cmd_write_while_busy_sets_ovr :
    step { runBytes 0x13 [0xDE#8] 2 with host := [.regWrite 0x40000000#64 8 0x11#64] } =
      .next { runBytes 0x13 [0xDE#8] 2 with ovr := true } := by rfl

/-- V-C8: a reserved offset reads 0. -/
theorem test_reserved_offset_reads_zero :
    step { idle (regsOf 1 2 3 4 5 6 7) [] [.regRead 0x400000F8#64 8] with rdata := 9#64 } =
      .next (idle (regsOf 1 2 3 4 5 6 7) [] []) := by rfl

/-- V-C11: the null check comes before the range check. -/
theorem test_null_before_range :
    after (load 0x13 (regsOf 0 1 0xFFFFFFFFFFFFFFFF 4 0 0 0) []) 0 = some (1, 0, 0, []) := by decide

/-- V-C12, V-C13: the last byte of memory is in range, the one after it is not. -/
theorem test_range_check_at_the_top :
    after (load 0x13 (regsOf 0xFFFFFFFFFFFFFFFF 1 0x2000 2 0 0 0) []) 2 = some (0, 0, 0, [0x30#8, 0x30#8]) ∧
      after (load 0x13 (regsOf 0xFFFFFFFFFFFFFFFF 2 0x2000 4 0 0 0) []) 0 = some (2, 0, 0, []) := by decide

/-- V-C14, V-C15: one shared byte is an overlap, adjacent buffers are none. -/
theorem test_overlap_check :
    after (load 0x13 (regsOf 0x1000 2 0x1001 4 0 0 0) []) 0 = some (2, 0, 0, []) ∧
      after (load 0x13 (regsOf 0x1000 2 0x1002 4 0 0 0) []) 4 =
        some (0, 0, 0, [0x30#8, 0x30#8, 0x30#8, 0x30#8]) := by decide

/-- An access below the window, and one that is not aligned in it (R50). -/
theorem test_register_access_faults :
    step (idle (regsOf 1 2 3 4 5 6 7) [] [.regRead 0x3FFFFFFF#64 8]) = .fault .outsideWindow ∧
      step (idle (regsOf 1 2 3 4 5 6 7) [] [.regRead 0x40000004#64 8]) = .fault .unsupportedHostAccess :=
  ⟨rfl, rfl⟩

/-- R327 (a): a command that reaches an unserved address has no step; the WAIT on it stays. -/
theorem test_stuck_command :
    step { runBytes 0x13 [0xDE#8] 2 with
        host := [.wait]
        cfg := { params with regions := [{ base := 0x2001, size := 1, kind := .unserved }] } } =
      .next { runBytes 0x13 [0xDE#8] 2 with
        host := [.wait]
        cfg := { params with regions := [{ base := 0x2001, size := 1, kind := .unserved }] } } := by rfl

/-- R83: the read that ends a WAIT gives the host STATUS, here ERR = BufferTooSmall. -/
theorem test_wait_ends_with_status :
    step { idle (regsOf 0 0 0 0 0 0 0) [] [.wait] with err := .bufferTooSmall } =
      .next { idle (regsOf 0 0 0 0 0 0 0) [] [] with err := .bufferTooSmall, rdata := 0x300#64 } := by rfl

/-- A host read of an unserved address (R63; log 13). -/
theorem test_memory_map_stops :
    step { idle (regsOf 0 0 0 0 0 0 0) [] [.memRead 0x10#64] with
        cfg := { params with regions := [{ base := 0x10, size := 1, kind := .unserved }] } } =
      .fault .unservedAddress := by rfl

/-! ### One command at a time -/

theorem test_nop : after (runBytes 0x00 [1#8] 1) 1 = some (0, 0, 0, [0#8]) := by decide

/-- V-X3, V-X4. -/
theorem test_hexEnclen :
    after (run 0x11 [] 0x7FFFFFFFFFFFFFFF 0 0 0) 0 = some (0, 0xFFFFFFFFFFFFFFFE, 0, []) ∧
      after (run 0x11 [] 0x8000000000000000 0 0 0) 0 = some (2, 0, 0, []) := by decide

/-- V-X5. -/
theorem test_hexEncode :
    after (runBytes 0x13 (bytesOf [0x00, 0xFF, 0x4A]) 6) 6 = some (0, 0, 0, ascii "00ff4a") := by decide

/-- V-X9, V-X11. -/
theorem test_hexValid :
    after (runBytes 0x18 (ascii "aF09") 0) 0 = some (0, 1, 0, []) ∧
      after (runBytes 0x18 (ascii "G0") 0) 0 = some (0, 0, 0, []) := by decide

/-- V-X12. -/
theorem test_hexDeclen : after (run 0x19 [] 6 0 0 0) 0 = some (0, 3, 0, []) := by decide

/-- V-X13: an odd length finishes OK. -/
theorem test_hexDeclen_odd : (after (run 0x19 [] 7 0 0 0) 0).map (·.1) = some 0 := by rfl

/-- V-X14, V-X17. -/
theorem test_hexDecode :
    after (runBytes 0x1B (ascii "00ff4A") 3) 3 = some (0, 0, 0, bytesOf [0x00, 0xFF, 0x4A]) ∧
      after (runBytes 0x1B (ascii "zzz") 3) 3 = some (2, 0, 0, [0#8, 0#8, 0#8]) := by decide

/-- V-X16. -/
theorem test_hexDecode_undefined_input : undefinedInput (runBytes 0x1B (ascii "zz") 1) = true := by decide

/-- V-D1, V-D2, V-D3. -/
theorem test_hexDumplen :
    after (run 0x1C [] 15 0 0 0) 0 = some (0, 78, 0, []) ∧
      after (run 0x1C [] 0x33D91D2A2067B230 0 0 0) 0 = some (0, 0xFFFFFFFFFFFFFFCD, 0, []) ∧
      after (run 0x1C [] 0x33D91D2A2067B231 0 0 0) 0 = some (2, 0, 0, []) := by decide

set_option maxRecDepth 4000 in
/-- V-D4. -/
theorem test_hexDump :
    after (runBytes 0x1D (ascii "Hello, world!" ++ [0x0A#8]) 77) 77 = some (0, 0, 0,
      ascii "00000000  48 65 6c 6c 6f 2c 20 77  6f 72 6c 64 21 0a        |Hello, world!.|" ++ [0x0A#8]) := by
  decide

/-- V-D6: the running address, and OFFSET after it. -/
theorem test_hexDump_offset :
    after (run 0x401D [0x41#8] 1 64 0 0xFFFFFFF0) 12 = some (0, 0, 0, ascii "fffffff0  41") ∧
      (match step (run 0x401D [0x41#8] 1 64 0 0xFFFFFFF0) with
        | .next t => t.regs.offset
        | .fault _ => 0#64
        | .refused _ => 0#64) = 0xFFFFFFF1#64 := by decide

/-- V-B32-2, V-B32-3. -/
theorem test_b32Enclen :
    after (run 0x21 [] 11529215046068469755 0 0 0) 0 = some (0, 0xFFFFFFFFFFFFFFF8, 0, []) ∧
      after (run 0x21 [] 11529215046068469756 0 0 0) 0 = some (2, 0, 0, []) := by decide

/-- V-B32-4, V-B32-7. -/
theorem test_b32Encode :
    after (runBytes 0x223 (ascii "foobar") 16) 16 = some (0, 0, 0, ascii "CPNMUOJ1E8======") ∧
      after (runBytes 0x123 (bytesOf [0x00, 0x44, 0x32, 0x14, 0xC7]) 8) 8 =
        some (0, 0, 0, ascii "ABCDEFGH") := by decide

/-- V-B32-27: the caller's table. -/
theorem test_b32Encode_custom :
    after (load 0x023 (regsOf 0x1000 1 0x2000 8 0x3000 0 0)
      (Memory.writeBytes [(0x1000, 0x66#8)] 0x3000 (ascii "abcdefghijklmnopqrstuvwxyz234567"))) 8 =
        some (0, 0, 0, ascii "my======") := by decide

/-- V-B32-9, V-B32-10. -/
theorem test_b32Valid :
    after (runBytes 0x128 (ascii "MZXW6Y==") 0) 0 = some (0, 1, 0, []) ∧
      after (runBytes 0x128 (ascii "MZ=W6===") 0) 0 = some (0, 0, 0, []) := by decide

/-- V-B32-13, V-B32-14. -/
theorem test_b32Declen :
    after (runBytes 0x29 (ascii "MZXW6Y==") 0) 0 = some (0, 3, 0, []) ∧
      after (runBytes 0x29 (ascii "========") 0) 0 = some (0, 0, 0, []) := by decide

/-- V-B32-15. -/
theorem test_b32Declen_too_many_pads : after (runBytes 0x29 (ascii "A=======") 0) 0 = some (2, 0, 0, []) := by
  decide

/-- V-B32-23: Crockford folding. -/
theorem test_b32Decode_crockford :
    after (runBytes 0x32B (ascii "csqpyrkl") 5) 5 = some (0, 0, 0, ascii "fooba") := by decide

/-- V-B32-18, V-B32-21. -/
theorem test_b32Decode :
    after (runBytes 0x12B (ascii "MZ======") 1) 1 = some (0, 0, 0, ascii "f") ∧
      undefinedInput (runBytes 0x12B (ascii "mzxw6ytb") 5) = true := by decide

/-- V-B64-2, V-B64-3. -/
theorem test_b64Enclen :
    after (run 0x31 [] 13835058055282163709 0 0 0) 0 = some (0, 0xFFFFFFFFFFFFFFFC, 0, []) ∧
      after (run 0x31 [] 13835058055282163710 0 0 0) 0 = some (2, 0, 0, []) := by decide

/-- V-B64-4. -/
theorem test_b64Encode :
    after (runBytes 0x433 (bytesOf [0xFB, 0xFF]) 4) 4 = some (0, 0, 0, ascii "+/8=") ∧
      after (runBytes 0x533 (bytesOf [0xFB, 0xFF]) 4) 4 = some (0, 0, 0, ascii "-_8=") := by decide

/-- V-B64-7, V-B64-8. -/
theorem test_b64Valid :
    after (runBytes 0x438 (ascii "Zh==") 0) 0 = some (0, 1, 0, []) ∧
      after (runBytes 0x438 (ascii "Zm=v") 0) 0 = some (0, 0, 0, []) := by decide

/-- V-B64-10, V-B64-11. -/
theorem test_b64Declen :
    after (runBytes 0x39 (ascii "Zm9vYmE=") 0) 0 = some (0, 5, 0, []) ∧
      after (runBytes 0x39 (ascii "Zg=") 0) 0 = some (2, 0, 0, []) := by decide

/-- V-B64-13, V-B64-15. -/
theorem test_b64Decode :
    after (runBytes 0x43B (ascii "Zh==") 1) 1 = some (0, 0, 0, [0x66#8]) ∧
      after (runBytes 0x53B (ascii "-_8=") 2) 2 = some (0, 0, 0, bytesOf [0xFB, 0xFF]) := by decide

/-- V-B64-17. -/
theorem test_b64Decode_undefined_input : undefinedInput (runBytes 0x43B (ascii "Zm=v") 3) = true := by decide

/-- V-U8-41, V-U8-42. -/
theorem test_u8Cpsize :
    after (run 0x40 [] 0 0 0xFFFFFFFF00000041 0) 0 = some (0, 1, 0, []) ∧
      after (run 0x40 [] 0 0 0x110000 0) 0 = some (2, 0, 0, []) := by decide

/-- V-U8-44. -/
theorem test_u8Enclen :
    after (run 0x41 (bytesOf [0x00, 0x00, 0x11, 0x00, 0x00, 0xD8, 0x00, 0x00, 0xFF, 0xFF, 0xFF, 0xFF]) 3 0 0 0)
      0 = some (0, 9, 0, []) := by decide

/-- V-U8-45, V-U8-46. -/
theorem test_u8Cpenc :
    after (run 0x42 [] 0 4 0x10348 0) 4 = some (0, 4, 0, bytesOf [0xF0, 0x90, 0x8D, 0x88]) ∧
      after (run 0x42 [] 0 4 0xD800 0) 3 = some (0, 3, 0, bytesOf [0xEF, 0xBF, 0xBD]) := by decide

/-- V-U8-51. -/
theorem test_u8Encode :
    after (run 0x43 (bytesOf [0x41, 0, 0, 0, 0x00, 0xD8, 0, 0, 0x42, 0, 0, 0]) 3 5 0 0) 5 =
      some (0, 0, 0, bytesOf [0x41, 0xEF, 0xBF, 0xBD, 0x42]) := by decide

/-- V-U8-23, V-U8-53. -/
theorem test_u8Valid :
    after (runBytes 0x48 (bytesOf [0xED, 0x9F, 0xBF]) 0) 0 = some (0, 1, 0, []) ∧
      after (runBytes 0x48 (bytesOf [0xE0, 0x9F, 0xBF]) 0) 0 = some (0, 0, 0, []) := by decide

/-- V-U8-55. -/
theorem test_u8Declen :
    after (runBytes 0x49 (bytesOf [0xE2, 0x28, 0xA1]) 0) 0 = some (0, 3, 0, []) ∧
      after (runBytes 0x49 (bytesOf [0xE2, 0x82]) 0) 0 = some (0, 1, 0, []) := by decide

/-- V-U8-58, V-U8-59. -/
theorem test_u8Cpdec :
    after (run 0x4A (bytesOf [0xE1, 0x80, 0xC0]) 3 0 0 0) 0 = some (0, 0xFFFD, 2, []) ∧
      after (run 0x4A (bytesOf [0x41, 0xE2, 0x82]) 3 0 1 0) 0 = some (0, 0xFFFD, 2, []) := by decide

/-- V-U8-61. -/
theorem test_u8Cpdec_past_the_end : after (run 0x4A [0x41#8] 1 0 1 0) 0 = some (2, 0xFFFD, 0, []) := by decide

/-- V-U8-62. -/
theorem test_u8Decode :
    after (runBytes 0x4B (bytesOf [0x41, 0xE2, 0x82, 0xAC]) 2) 8 =
      some (0, 0, 0, bytesOf [0x41, 0, 0, 0, 0xAC, 0x20, 0, 0]) := by decide

/-- V-U8-65: capacity before truncation, and the destination zeroed. -/
theorem test_u8Decode_zeroes :
    after (load 0x4B (regsOf 0x1000 3 0x2000 1 0 0 0) (Memory.writeBytes
      (Memory.writeBytes [] 0x1000 (bytesOf [0x41, 0xE2, 0x82])) 0x2000 (bytesOf [255, 255, 255, 255, 255])))
        5 = some (3, 0, 0, bytesOf [0, 0, 0, 0, 255]) := by decide

/-- V-U16-1. -/
theorem test_u16Enclen :
    after (run 0x51 (bytesOf [0x41, 0, 0, 0, 0x00, 0xF6, 0x01, 0]) 2 0 0 0) 0 = some (0, 3, 0, []) := by
  decide

/-- V-U16-4, V-U16-5. -/
theorem test_u16Cpenc :
    after (run 0x52 [] 0 2 0x1F600 0) 4 = some (0, 2, 0, bytesOf [0x3D, 0xD8, 0x00, 0xDE]) ∧
      after (run 0x52 [] 0 2 0xFFFE 0) 2 = some (0, 1, 0, bytesOf [0xFD, 0xFF]) := by decide

/-- V-U16-7. -/
theorem test_u16Encode :
    after (run 0x53 (bytesOf [0x48, 0, 0, 0, 0x00, 0xF6, 0x01, 0]) 2 3 0 0) 6 =
      some (0, 0, 0, bytesOf [0x48, 0x00, 0x3D, 0xD8, 0x00, 0xDE]) := by decide

/-- V-U16-9, V-U16-10. -/
theorem test_u16Valid :
    after (run 0x58 (bytesOf [0x3D, 0xD8, 0x00, 0xDE]) 2 0 0 0) 0 = some (0, 1, 0, []) ∧
      after (run 0x58 (bytesOf [0xFE, 0xFF]) 1 0 0 0) 0 = some (0, 0, 0, []) := by decide

/-- V-U16-11. -/
theorem test_u16Declen :
    after (run 0x59 (bytesOf [0x3D, 0xD8, 0x3D, 0xD8, 0x00, 0xDE]) 3 0 0 0) 0 = some (0, 2, 0, []) := by decide

/-- V-U16-12, V-U16-13. -/
theorem test_u16Cpdec :
    after (run 0x5A (bytesOf [0xFF, 0xDB, 0xFF, 0xDF]) 2 0 0 0) 0 = some (0, 0x10FFFF, 2, []) ∧
      after (run 0x5A (bytesOf [0x41, 0x00, 0x3D, 0xD8]) 2 0 1 0) 0 = some (0, 0xFFFD, 1, []) := by decide

/-- V-U16-17. -/
theorem test_u16Decode :
    after (run 0x5B (bytesOf [0x41, 0x00, 0x3D, 0xD8, 0x00, 0xDE, 0x00, 0xDC]) 4 3 0 0) 12 =
      some (0, 0, 0, bytesOf [0x41, 0, 0, 0, 0x00, 0xF6, 0x01, 0, 0xFD, 0xFF, 0, 0]) := by decide

/-- V-E1, V-E2. -/
theorem test_encU16 :
    after (run 0x0060 [] 0 8 0x1234 0) 2 = some (0, 0, 0, bytesOf [0x12, 0x34]) ∧
      after (run 0x1060 [] 0 8 0xFFFFFFFFFFFF1234 0) 3 = some (0, 0, 0, bytesOf [0x34, 0x12, 0x00]) := by
  decide

/-- V-E3, V-E4. -/
theorem test_encU32 :
    after (run 0x1061 [] 0 8 0xDEADBEEF 0) 4 = some (0, 0, 0, bytesOf [0xEF, 0xBE, 0xAD, 0xDE]) ∧
      after (run 0x0061 [] 0 3 0xDEADBEEF 0) 1 = some (3, 0, 0, [0#8]) := by decide

/-- V-E5, V-E7. -/
theorem test_encU64 :
    after (run 0x0062 [] 0 8 0x0102030405060708 0) 8 = some (0, 0, 0, bytesOf [1, 2, 3, 4, 5, 6, 7, 8]) ∧
      after (run 0x3062 [] 0 8 1 0) 1 = some (2, 0, 0, [0#8]) := by decide

/-- V-E8: address 0 is null even with length 0. -/
theorem test_encU16_null : after (load 0x60 (regsOf 0 0 0 0 0 0 0) []) 0 = some (1, 0, 0, []) := by decide

/-- V-E10, V-E11. -/
theorem test_decU16 :
    after (runBytes 0x0068 (bytesOf [0x12, 0x34]) 0) 0 = some (0, 0x1234, 0, []) ∧
      after (runBytes 0x1068 (bytesOf [0x12, 0x34]) 0) 0 = some (0, 0x3412, 0, []) := by decide

/-- V-E13, V-E14. -/
theorem test_decU32 :
    after (runBytes 0x0069 (bytesOf [255, 255, 255, 255]) 0) 0 = some (0, 0xFFFFFFFF, 0, []) ∧
      after (runBytes 0x1069 (bytesOf [0xEF, 0xBE, 0xAD, 0xDE]) 0) 0 = some (0, 0xDEADBEEF, 0, []) := by
  decide

/-- V-E15, V-E17. -/
theorem test_decU64 :
    after (runBytes 0x106A (bytesOf [1, 2, 3, 4, 5, 6, 7, 8]) 0) 0 = some (0, 0x0807060504030201, 0, []) ∧
      after (runBytes 0x006A (bytesOf [1, 2, 3, 4, 5, 6, 7]) 0) 0 = some (3, 0, 0, []) := by decide

/-! ### Witnesses: states and operands that meet the hypotheses of each obligation -/

/-- HEX_ENCODE of one byte pending, with the outside world's plan. -/
def running (host : List HostStep) : State := { runBytes 0x13 [0xDE#8] 2 with host := host }

/-- HEX_ENCODE pending in a memory map with one region at the last byte of its destination. -/
def mapped (kind : RegionKind) : State :=
  { running [.engine] with cfg := { params with regions := [{ base := 0x2001, size := 1, kind := kind }] } }

/-- A block with nothing pending and different values in its registers. -/
def resting (host : List HostStep) : State := idle (regsOf 1 2 3 4 5 6 7) [] host

/-- B32_ENCODE of one byte with the caller's table at 0x3000 pending. -/
def customAlphabet : State :=
  load 0x023 (regsOf 0x1000 1 0x2000 8 0x3000 0 0)
    (Memory.writeBytes [(0x1000, 0x66#8)] 0x3000 (ascii "abcdefghijklmnopqrstuvwxyz234567"))

theorem witness_DecodeOfEncodeIsTheCommand :
    (Instr.encU16 (.unsupported 2#2)).wf = true ∧ (Instr.b32Encode (.reserved 6#4)).wf = true ∧
      (Instr.hexDump true).wf = true ∧ (Instr.encU16 .big).needsHexDump = false := by decide

theorem witness_DecodeDependsOnlyOnTheLowFifteenBits :
    (∀ j, j < 15 → (0x8433#64).getLsbD j = (0x0433#64).getLsbD j) ∧ 0x8433#64 ≠ 0x0433#64 := by decide

theorem witness_ReservedOpcodesAreTheListedOnes :
    ¬reservedOp true 0x00 ∧ reservedOp true 0x01 ∧ reservedOp true 0x10 ∧ ¬reservedOp true 0x11 ∧
      ¬reservedOp true 0x1D ∧ reservedOp false 0x1D ∧ ¬reservedOp true 0x6A ∧ reservedOp true 0x6B ∧
      reservedOp true 0xFF := by simp [reservedOp]

theorem witness_ReservedOpcodeFinishesInvalidArgument :
    (runBytes 0x6B [] 0).pending = some (runBytes 0x6B [] 0).snap ∧ engineNext (runBytes 0x6B [] 0) ∧
      reservedOp (runBytes 0x6B [] 0).cfg.hasHexDump (opOf (runBytes 0x6B [] 0).snap.word).toNat := by
  refine ⟨rfl, .inl rfl, ?_⟩
  unfold reservedOp
  decide

theorem witness_StepRunsThePendingCommand :
    ∀ host ∈ [[], [.engine], [.wait]], (running host).pending = some (running host).snap ∧
      decode (running host).cfg.hasHexDump (running host).snap.word = .command .hexEncode ∧
      ∀ b ∈ usedRanges .hexEncode (running host).snap,
        reachesKind (running host).cfg .sideEffecting b = false ∧
          reachesKind (running host).cfg .unserved b = false := by decide

theorem witness_CommandOffOrdinaryMemoryStops :
    engineNext (mapped .unserved) ∧
      ({ mapped .unserved with host := [.wait] } : State).host.head? = some .wait ∧ (mapped .unserved).pending = some (mapped .unserved).snap ∧
      decode (mapped .unserved).cfg.hasHexDump (mapped .unserved).snap.word = .command .hexEncode ∧
      (∃ b ∈ usedRanges .hexEncode (mapped .sideEffecting).snap,
        reachesKind (mapped .sideEffecting).cfg .sideEffecting b = true) ∧
      (∀ b ∈ usedRanges .hexEncode (mapped .unserved).snap,
        reachesKind (mapped .unserved).cfg .sideEffecting b = false) ∧
      (∃ b ∈ usedRanges .hexEncode (mapped .unserved).snap,
        reachesKind (mapped .unserved).cfg .unserved b = true) := by
  unfold engineNext
  decide

theorem witness_IdleEngineAndWaitSteps :
    (resting []).pending = none ∧ engineNext (resting []) ∧ engineNext (resting [.engine]) ∧
      (resting [.wait]).busy = false ∧ (running [.wait]).busy = true ∧
      ∃ t, step (running [.wait]) = .next t :=
  ⟨rfl, .inl rfl, .inr rfl, rfl, rfl, _, rfl⟩

theorem witness_CmdWriteWhileIdleIsAccepted :
    (resting [.regWrite (regAddr params 0x00#8) 8 0x11#64]).busy = false ∧
      (resting [.regWrite (regAddr params 0x00#8) 8 0x11#64]).host = .regWrite (regAddr params 0x00#8) 8 0x11#64 :: [] := ⟨rfl, rfl⟩

theorem witness_CmdWriteWhileBusyOnlySetsOverrun :
    (running [.regWrite (regAddr params 0x00#8) 8 0x11#64]).busy = true ∧
      (running [.regWrite (regAddr params 0x00#8) 8 0x11#64]).host = .regWrite (regAddr params 0x00#8) 8 0x11#64 :: [] := ⟨rfl, rfl⟩

/-- The lowest and the highest offset of each clause. -/
theorem witness_RegisterWritesAreStoredOrIgnored :
    (resting [.regWrite (regAddr params 0x10#8) 8 9#64]).busy = false ∧
      (resting [.regWrite (regAddr params 0x40#8) 8 9#64]).host = .regWrite (regAddr params 0x40#8) 8 9#64 :: [] ∧
      (∀ off ∈ [0x10#8, 0x40#8], off.toNat % 8 = 0 ∧
        (running [.regWrite (regAddr params off) 8 9#64]).busy = true ∧ 0x10 ≤ off.toNat ∧ off.toNat ≤ 0x40) ∧
      (∀ off ∈ [0x48#8, 0xF8#8], off.toNat % 8 = 0 ∧ 0x48 ≤ off.toNat) := by decide

theorem witness_RegisterReadsReturnCurrentValues :
    ∀ off ∈ [0x00#8, 0x50#8, 0x58#8, 0xF8#8],
      (resting [.regRead (regAddr params off) 8]).host = .regRead (regAddr params off) 8 :: [] ∧ off.toNat % 8 = 0 := by decide

/-- B32_ENCODE with the caller's table pending, its first source byte next to one region of each kind. -/
def besideRegions : State :=
  { customAlphabet with
    cfg := { params with regions :=
      [{ base := 0x1001, size := 1, kind := .sideEffecting }, { base := 0x1002, size := 1, kind := .unserved }] } }

/-- A width of 4 and an offset of 4; the address below the window and the first above it. -/
theorem witness_HostAccessFaults_registers :
    (resting [.regRead (regAddr params 0x08#8) 4]).host = .regRead (regAddr params 0x08#8) 4 :: [] ∧
      (resting [.regWrite (regAddr params 0x04#8) 8 0#64]).host = .regWrite (regAddr params 0x04#8) 8 0#64 :: [] ∧
      (0x04#8).toNat % 8 ≠ 0 ∧
      ∀ addr ∈ [0x3FFFFFFF#64, 0x40000100#64], ∀ off : BitVec 8, addr ≠ regAddr params off := by
  refine ⟨rfl, rfl, by decide, fun addr h off => ?_⟩
  have ho := off.isLt
  simp only [List.mem_cons, List.not_mem_nil, or_false] at h
  rcases h with rfl | rfl <;>
    · intro hc
      have := congrArg BitVec.toNat hc
      simp [regAddr, params] at this
      omega

/-- The first and last byte of each range race; the bytes next to them do not, and one of them lies in a region of
each kind. -/
theorem witness_HostAccessFaults_memory :
    (∀ a ∈ [0x1000, 0x2000, 0x2007, 0x3000, 0x301F], raced besideRegions a) ∧
      (∀ a ∈ [0xFFF, 0x1001, 0x1002, 0x1FFF, 0x2008, 0x2FFF, 0x3020], ¬raced besideRegions a) ∧
      ¬raced (resting []) 0x1000 ∧ ¬raced (runBytes 0x6B [] 0) 0x1000 ∧
      inRegion besideRegions.cfg .sideEffecting 0x1001 ∧
      (¬inRegion besideRegions.cfg .sideEffecting 0x1002 ∧ inRegion besideRegions.cfg .unserved 0x1002) ∧
      ¬inRegion besideRegions.cfg .sideEffecting 0x1003 ∧ ¬inRegion besideRegions.cfg .unserved 0x1003 := by
  refine ⟨fun a h => ⟨besideRegions.snap, .b32Encode .custom, rfl, rfl, ?_⟩, ?_, ?_, ?_, ?_⟩
  · revert a
    decide
  · rintro a h ⟨p, i, hp, hd, hr⟩
    obtain rfl : besideRegions.snap = p := Option.some.inj hp
    obtain rfl : Instr.b32Encode .custom = i := Decoded.command.inj hd
    revert a
    decide
  · rintro ⟨p, i, hp, -⟩
    cases hp
  · rintro ⟨p, i, hp, hd, -⟩
    obtain rfl : (runBytes 0x6B [] 0).snap = p := Option.some.inj hp
    cases hd
  · unfold inRegion
    decide

theorem witness_ResetDuringACommandAbandonsIt :
    (running [.reset]).host = .reset :: [] ∧ (running [.reset]).pending = some (running [.reset]).snap ∧
      decode (running [.reset]).cfg.hasHexDump (running [.reset]).snap.word = .command .hexEncode ∧
      (resting [.reset]).pending = none ∧
      decode true (runBytes 0x6B [] 0).snap.word = .reserved 0x6B#8 := by decide

theorem witness_CommandsKeepEverythingButResultsAndDestination :
    ∃ t, exec .hexEncode (running []) = .next t ∧ Instr.hexEncode ≠ .hexDeclen := ⟨_, rfl, by decide⟩

theorem witness_FailedCommandsWriteNothing :
    (runBytes 0x13 [0xDE#8] 1).mem.wf = true ∧
      ∃ t, exec .hexEncode (runBytes 0x13 [0xDE#8] 1) = .next t ∧ t.err ≠ .ok :=
  ⟨by decide, _, rfl, by decide⟩

theorem witness_OnlyASuccessfulDumpWritesOffset :
    (∃ t, exec (.hexDump true) (run 0x401D [0x41#8] 1 64 0 5) = .next t ∧ t.err = .ok) ∧
      ∃ t, exec (.hexDump true) (run 0x401D [0x41#8] 1 63 0 5) = .next t ∧ t.err ≠ .ok :=
  ⟨⟨_, rfl, by decide⟩, _, rfl, by decide⟩

theorem witness_NoStepChangesTheParameters : ∃ t, step (running [.reset]) = .next t := ⟨_, rfl⟩

theorem witness_EveryStepKeepsTheInvariant :
    (running []).inv = true ∧ ∃ t, step (running []) = .next t := ⟨by decide, _, rfl⟩

/-- Two states that differ in a byte outside the source. -/
theorem witness_OutcomeDependsOnlyOnReadRanges :
    ∃ s' : State, s' = { running [] with mem := [(0x1000, 0xDE#8), (0x5000, 1#8)] } ∧
      (running []).snap = s'.snap ∧ (running []).cfg = s'.cfg ∧ (running []).regs = s'.regs ∧
      (running []).mem.wf = true ∧ s'.mem.wf = true ∧ (running []).mem ≠ s'.mem ∧
      (∀ a, (srcRange .hexEncode (running []).snap).has a = true ∨
          ((running []).snap.alphabet (alphaSel .hexEncode) (alphaSize .hexEncode)).has a = true →
        (running []).mem.read a = s'.mem.read a) ∧
      (∃ t, exec .hexEncode (running []) = .next t) ∧
      ∃ f, exec .hexDecode (runBytes 0x1B (ascii "zz") 1) = .fault f := by
  refine ⟨_, rfl, rfl, rfl, rfl, by decide, by decide, by decide, ?_, ⟨_, rfl⟩, _, rfl⟩
  intro a h
  have ha : a = 0x1000 := by
    rcases h with h | h
    · have h2 : 0x1000 ≤ a ∧ a < 0x1001 := by
        simpa [Buf.has, srcRange, Snapshot.src, srcSize, running, runBytes, run, load, idle, State.accept,
          State.snapshotOf, State.snap, regsOf] using h
      omega
    · simp [Buf.has, Snapshot.alphabet, alphaSize, running, runBytes, run, load, idle, State.accept,
        State.snapshotOf, State.snap, regsOf] at h
  subst ha
  decide

/-- A null source, a null destination, a null alphabet. -/
theorem witness_NullBufferFailsFirst :
    (srcRange .hexEncode (load 0x13 (regsOf 0 1 0x2000 2 0 0 0) []).snap).isNull = true ∧
      (dstRange .hexEncode (load 0x13 (regsOf 0x1000 1 0 2 0 0 0) []).snap).isNull = true ∧
      ((load 0x23 (regsOf 0x1000 1 0x2000 8 0 0 0) []).snap.alphabet .custom 32).isNull = true ∧
      (srcRange .u8Cpdec (load 0x4A (regsOf 0 1 0 0 0 0 0) []).snap).isNull = true := by decide

/-- The first source that does not fit, and a destination whose first byte is the source's last. -/
theorem witness_BadRangeOrOverlapIsInvalidArgument :
    (srcRange .hexEncode (load 0x13 (regsOf 0xFFFFFFFFFFFFFFFF 2 0x2000 4 0 0 0) []).snap).isNull = false ∧
      (dstRange .hexEncode (load 0x13 (regsOf 0xFFFFFFFFFFFFFFFF 2 0x2000 4 0 0 0) []).snap).isNull = false ∧
      (srcRange .hexEncode (load 0x13 (regsOf 0xFFFFFFFFFFFFFFFF 2 0x2000 4 0 0 0) []).snap).outOfRange =
        true ∧
      ∃ a, (dstRange .hexEncode (load 0x13 (regsOf 0x1000 2 0x1001 4 0 0 0) []).snap).has a = true ∧
        (srcRange .hexEncode (load 0x13 (regsOf 0x1000 2 0x1001 4 0 0 0) []).snap).has a = true :=
  ⟨by decide, by decide, by decide, 0x1001, by decide, by decide⟩

theorem witness_IllegalAlphabetIsInvalidArgument :
    ∀ i ∈ [Instr.b32Encode (.reserved 15#4), .b32Decode .b64Url, .b64Encode .b32Crockford,
        .b64Valid (.reserved 6#4)],
      (srcRange i (running []).snap).isNull = false ∧ (dstRange i (running []).snap).isNull = false := by
  decide

theorem witness_NopFinishesOk : opOf 0x7F00#64 = 0x00#8 := by decide

/-- The largest length each command reports, and the smallest it does not. -/
theorem witness_LengthCommandsReportLengths :
    (2 * 0x7FFFFFFFFFFFFFFF < 2 ^ 64 ∧ 2 ^ 64 ≤ 2 * 0x8000000000000000) ∧
      (8 * ((11529215046068469755 + 4) / 5) < 2 ^ 64 ∧ 2 ^ 64 ≤ 8 * ((11529215046068469756 + 4) / 5)) ∧
      (4 * ((13835058055282163709 + 2) / 3) < 2 ^ 64 ∧ 2 ^ 64 ≤ 4 * ((13835058055282163710 + 2) / 3)) ∧
      (dumpLength 0x33D91D2A2067B230 < 2 ^ 64 ∧ 2 ^ 64 ≤ dumpLength 0x33D91D2A2067B231) ∧
      (run 0x19 [] 0 0 0 0).snap.n % 2 = 0 ∧ (run 0x19 [] 0xFFFFFFFFFFFFFFFF 0 0 0).snap.n % 2 = 1 := by
  decide

/-- The smallest source whose length overflows, and a destination beside it. -/
theorem witness_HexEncodeWritesTwoDigitsPerByte_overflow :
    (load 0x13 (regsOf (2 ^ 63) (2 ^ 63) 0x1000 2 0 0 0) []).mem.wf = true ∧
      BuffersPass .hexEncode (load 0x13 (regsOf (2 ^ 63) (2 ^ 63) 0x1000 2 0 0 0) []).snap ∧
      2 ^ 64 ≤ 2 * (load 0x13 (regsOf (2 ^ 63) (2 ^ 63) 0x1000 2 0 0 0) []).snap.n := by
  unfold BuffersPass
  decide

/-- A destination of exactly the two digits, and one byte less. -/
theorem witness_HexEncodeWritesTwoDigitsPerByte :
    ∀ dstLen ∈ [1, 2], (runBytes 0x13 [0xDE#8] dstLen).mem.wf = true ∧
      BuffersPass .hexEncode (runBytes 0x13 [0xDE#8] dstLen).snap ∧
      (runBytes 0x13 [0xDE#8] dstLen).snap.capacity = dstLen ∧
      (runBytes 0x13 [0xDE#8] dstLen).snap.n = 1 := by
  unfold BuffersPass
  decide

theorem witness_HexValidTestsLengthAndDigits :
    BuffersPass .hexValid (runBytes 0x18 (ascii "aF09") 0).snap ∧
      BuffersPass .hexValid (load 0x18 (regsOf 0 0 0 0 0 0 0) []).snap := by
  unfold BuffersPass
  decide

/-- An odd length; an even one with one byte of room too little; hex digits; a byte that is none. -/
theorem witness_HexDecodeCombinesPairs :
    (∀ t ∈ [ascii "abc", ascii "abcd", ascii "zz"], (runBytes 0x1B t 1).mem.wf = true ∧
      BuffersPass .hexDecode (runBytes 0x1B t 1).snap ∧ (runBytes 0x1B t 1).snap.n = t.length) ∧
    (∀ k, k < 2 → isHex (srcByte (runBytes 0x1B (ascii "aF") 1) k) = true) ∧
    ∃ k, k < 2 ∧ isHex (srcByte (runBytes 0x1B (ascii "zz") 1) k) = false := by
  unfold BuffersPass
  exact ⟨by decide, by decide, 0, by decide, by decide⟩

theorem witness_HexRoundTripThroughTheBlock :
    (running []).mem.wf = true ∧ BuffersPass .hexEncode (running []).snap ∧
      2 * (running []).snap.n ≤ (running []).snap.capacity ∧
      ∃ t, exec .hexEncode (running []) = .next t ∧
        ∃ u : State, u.mem = t.mem ∧ u.snap.regs.srcAddr = (running []).snap.regs.dstAddr ∧
          u.snap.n = 2 * (running []).snap.n ∧ BuffersPass .hexDecode u.snap ∧
          (running []).snap.n ≤ u.snap.capacity := by
  refine ⟨by decide, by unfold BuffersPass; decide, by decide, _, rfl,
    load 0x1B (regsOf 0x2000 2 0x3000 1 0 0 0) _, rfl, by decide, by decide, ?_, by decide⟩
  unfold BuffersPass
  exact ⟨rfl, rfl, rfl, rfl, rfl, rfl, rfl, rfl⟩

/-- The last start that does not overflow and the first that does; room for the dump and one byte less. -/
theorem witness_HexDumpWritesItsTextAndOffset :
    (∀ dstLen ∈ [63, 64], (run 0x401D [0x41#8] 1 dstLen 0 0xFFFFFFFFFFFFFFFE).mem.wf = true ∧
      BuffersPass (.hexDump true) (run 0x401D [0x41#8] 1 dstLen 0 0xFFFFFFFFFFFFFFFE).snap ∧
      (run 0x401D [0x41#8] 1 dstLen 0 0xFFFFFFFFFFFFFFFE).snap.capacity = dstLen) ∧
    0xFFFFFFFFFFFFFFFE + 1 < 2 ^ 64 ∧ dumpLength 1 = 64 ∧
    (run 0x401D [0x41#8] 1 64 0 0xFFFFFFFFFFFFFFFF).snap.regs.offset.toNat + 1 = 2 ^ 64 := by
  unfold BuffersPass
  decide

/-- Line 0 of a one-byte dump, which has one byte and fifteen missing ones. -/
theorem witness_HexDumpTextHasTheStatedLayout :
    (run 0x1D [0x41#8] 1 64 0 0).mem.wf = true ∧
      (∃ t, exec (.hexDump false) (run 0x1D [0x41#8] 1 64 0 0) = .next t ∧ t.err = .ok) ∧
      16 * 0 < (run 0x1D [0x41#8] 1 64 0 0).snap.n ∧
      1 = min 16 ((run 0x1D [0x41#8] 1 64 0 0).snap.n - 16 * 0) :=
  ⟨by decide, ⟨_, rfl, rfl⟩, by decide, by decide⟩

/-- The caller's table, a built-in one, and base64, each with exactly one block of room. -/
theorem witness_RadixEncodePacksBitsIntoSymbols :
    customAlphabet.mem.wf = true ∧ BuffersPass (.b32Encode .custom) customAlphabet.snap ∧
      8 * ((customAlphabet.snap.n + 4) / 5) = customAlphabet.snap.capacity ∧
      BuffersPass (.b64Encode .b64Std) (runBytes 0x433 [0x66#8] 4).snap ∧
      (runBytes 0x433 [0x66#8] 4).mem.wf = true ∧
      4 * (((runBytes 0x433 [0x66#8] 4).snap.n + 2) / 3) = (runBytes 0x433 [0x66#8] 4).snap.capacity := by
  unfold BuffersPass
  decide

/-- Six pads (the most base32 has), pure padding, and two pads (the most base64 has). -/
theorem witness_RadixValidIsTheGenericTest :
    (6 ≤ (runBytes 0x128 (ascii "MY======") 0).snap.n ∧
      (∀ k, k < 8 → 2 ≤ k → srcByte (runBytes 0x128 (ascii "MY======") 0) k = 0x3D#8) ∧
      srcByte (runBytes 0x128 (ascii "MY======") 0) 1 ≠ 0x3D#8) ∧
    BuffersPass (.b32Valid .b32Rfc4648) (runBytes 0x128 (ascii "MY======") 0).snap ∧
    (∀ k, k < 8 → srcByte (runBytes 0x128 (ascii "========") 0) k = 0x3D#8) ∧
    (2 ≤ (runBytes 0x438 (ascii "Zg==") 0).snap.n ∧
      (∀ k, k < 4 → 2 ≤ k → srcByte (runBytes 0x438 (ascii "Zg==") 0) k = 0x3D#8) ∧
      srcByte (runBytes 0x438 (ascii "Zg==") 0) 1 ≠ 0x3D#8) ∧
    BuffersPass (.b64Valid .b64Std) (runBytes 0x438 (ascii "Zg==") 0).snap := by
  unfold BuffersPass
  decide

/-- Texts of 6 and 7 pads, of padding only, and of a partial block. -/
theorem witness_RadixDecodedLengths :
    (∀ k, k < 8 → 1 ≤ k → srcByte (runBytes 0x29 (ascii "A=======") 0) k = 0x3D#8) ∧
      srcByte (runBytes 0x29 (ascii "A=======") 0) 0 ≠ 0x3D#8 ∧
      (∀ k, k < 8 → 2 ≤ k → srcByte (runBytes 0x29 (ascii "MY======") 0) k = 0x3D#8) ∧
      srcByte (runBytes 0x29 (ascii "MY======") 0) 1 ≠ 0x3D#8 ∧
      BuffersPass .b32Declen (runBytes 0x29 (ascii "A=======") 0).snap ∧
      BuffersPass .b32Declen (runBytes 0x29 (ascii "MZXQ===") 0).snap ∧
      (∀ k, k < 4 → srcByte (runBytes 0x39 (ascii "====") 0) k = 0x3D#8) ∧
      BuffersPass .b64Declen (runBytes 0x39 (ascii "====") 0).snap := by
  unfold BuffersPass
  decide

/-- Data, pure padding, and a text outside the domain. -/
theorem witness_B32DecodeUnpacksSymbols :
    (runBytes 0x32B (ascii "CR======") 1).mem.wf = true ∧
      BuffersPass (.b32Decode .b32Crockford) (runBytes 0x32B (ascii "CR======") 1).snap ∧
      decodedLength32 (runBytes 0x32B (ascii "CR======") 1).srcBytes = some 1 ∧
      (∀ k, k < 2 → (crockfordValue (srcByte (runBytes 0x32B (ascii "CR======") 1) k)).isSome = true) ∧
      decodedLength32 (runBytes 0x32B (ascii "========") 0).srcBytes = some 0 ∧
      decodedLength32 (runBytes 0x32B (ascii "CU======") 1).srcBytes = some 1 ∧
      crockfordValue (srcByte (runBytes 0x32B (ascii "CU======") 1) 1) = none := by
  unfold BuffersPass
  decide

theorem witness_B64DecodeUnpacksSymbols :
    (runBytes 0x43B (ascii "Zg==") 1).mem.wf = true ∧
      BuffersPass (.b64Decode .b64Std) (runBytes 0x43B (ascii "Zg==") 1).snap ∧
      decodedLength64 (runBytes 0x43B (ascii "Zg==") 1).srcBytes = some 1 ∧
      (∀ k, k < 2 → srcByte (runBytes 0x43B (ascii "Zg==") 1) k ∈
        (runBytes 0x43B (ascii "Zg==") 1).table .b64Std 64) ∧
      decodedLength64 (runBytes 0x43B (ascii "====") 0).srcBytes = some 0 ∧
      decodedLength64 (runBytes 0x43B (ascii "Z-==") 1).srcBytes = some 1 ∧
      srcByte (runBytes 0x43B (ascii "Z-==") 1) 1 ∉ (runBytes 0x43B (ascii "Z-==") 1).table .b64Std 64 := by
  unfold BuffersPass
  decide

/-- The smallest length that overflows, needing a source that fits; one byte of room too little; a text
without a decoded length. -/
theorem witness_RadixShapeAndCapacityFailures :
    BuffersPass (.b32Encode .b32Hex)
        (load 0x223 (regsOf 0x2000 (2 ^ 64 - 0x2000) 0x1000 0x1000 0 0 0) []).snap ∧
      2 ^ 64 ≤ 8 * ((2 ^ 64 - 0x2000 + 4) / 5) ∧
      BuffersPass (.b64Encode .b64Url) (runBytes 0x533 [0x66#8] 3).snap ∧
      (runBytes 0x533 [0x66#8] 3).snap.capacity < 4 * (((runBytes 0x533 [0x66#8] 3).snap.n + 2) / 3) ∧
      BuffersPass (.b32Decode .b32Hex) (runBytes 0x22B (ascii "A=======") 1).snap ∧
      decodedLength32 (runBytes 0x22B (ascii "A=======") 1).srcBytes = none ∧
      BuffersPass (.b64Decode .b64Url) (runBytes 0x53B (ascii "Zm8=") 1).snap ∧
      decodedLength64 (runBytes 0x53B (ascii "Zm8=") 1).srcBytes = some 2 := by
  unfold BuffersPass
  decide

theorem witness_Base32RoundTrip :
    tableCrockford.length = 32 ∧ tableCrockford.Nodup ∧ padSymbol ∉ tableCrockford ∧
      tableCrockford = builtinTable .b32Crockford := by decide

theorem witness_Base64RoundTrip :
    tableB64Url.length = 64 ∧ tableB64Url.Nodup ∧ padSymbol ∉ tableB64Url := by decide

/-- The thresholds of the sizes, and a source of elements. -/
theorem witness_Utf8SizeCommands :
    (∀ arg ∈ [0x7F, 0x80, 0x7FF, 0x800, 0xFFFF, 0x10000, 0x10FFFF, 0x110000],
      (run 0x40 [] 0 0 arg 0).snap.arg32 = arg) ∧
      BuffersPass .u8Enclen (run 0x41 [0x41#8] 1 0 0 0).snap := by
  unfold BuffersPass
  decide

/-- Three bytes of room and two, for one code point and for a source of one. -/
theorem witness_Utf8EncodeCommands :
    (∀ room ∈ [2, 3], (run 0x42 [] 0 room 0x20AC 0).mem.wf = true ∧
      BuffersPass .u8Cpenc (run 0x42 [] 0 room 0x20AC 0).snap ∧
      (u8Encode (run 0x42 [] 0 room 0x20AC 0).snap.arg32).length = 3 ∧
      BuffersPass .u8Encode (run 0x43 (bytesOf [0xAC, 0x20]) 1 room 0 0).snap ∧
      (((run 0x43 (bytesOf [0xAC, 0x20]) 1 room 0 0).srcElems 4).flatMap u8Encode).length = 3) ∧
    (0xD7FF : Nat) < 0xD800 ∧ ¬(0xD800 ≤ 0xE000 ∧ 0xE000 ≤ 0xDFFF) := by
  unfold BuffersPass
  decide

theorem witness_Utf8ValidIsAnEncodingOfScalars :
    BuffersPass .u8Valid (runBytes 0x48 (bytesOf [0xED, 0x9F, 0xBF]) 0).snap := by
  unfold BuffersPass
  decide

/-- Of the two steps of `41 E2 82`, the second is truncated. -/
theorem witness_Utf8StepsCoverTheText :
    (u8Steps (bytesOf [0x41, 0xE2, 0x82])).length = 2 ∧
      ∃ h : 1 < (u8Steps (bytesOf [0x41, 0xE2, 0x82])).length,
        (u8Steps (bytesOf [0x41, 0xE2, 0x82]))[1].kind = .truncated := ⟨by decide, by decide, by decide⟩

/-- The last offset inside the text and the first past it. -/
theorem witness_Utf8DecodeStepCommands :
    BuffersPass .u8Declen (run 0x49 [0x41#8] 1 0 0 0).snap ∧
      (∀ arg ∈ [0, 1], BuffersPass .u8Cpdec (run 0x4A [0x41#8] 1 0 arg 0).snap ∧
        (run 0x4A [0x41#8] 1 0 arg 0).snap.regs.arg.toNat = arg ∧
        (run 0x4A [0x41#8] 1 0 arg 0).snap.n = 1) := by
  unfold BuffersPass
  decide

/-- `E1 80 C0`: two bytes that neither accept nor reject, then one that rejects (V-U8-24); `E1 80 80`, whose third
byte accepts; `E1 80`, truncated; a first byte that rejects. -/
theorem witness_Utf8DecodeStepCommands_steps :
    (∀ j, j < 3 → 1 ≤ j → u8Run .accept ((bytesOf [0xE1, 0x80, 0xC0]).take j) ≠ .accept ∧
        u8Run .accept ((bytesOf [0xE1, 0x80, 0xC0]).take j) ≠ .reject) ∧
      u8Run .accept ((bytesOf [0xE1, 0x80, 0xC0]).take 3) = .reject ∧
      u8Run .accept ((bytesOf [0xE1, 0x80, 0x80]).take 3) = .accept ∧
      (bytesOf [0xE1, 0x80]).length = 2 ∧ u8Run .accept ((bytesOf [0x80]).take 1) = .reject := by decide

/-- Two steps with room for one; room for both with a truncated one, and with none. -/
theorem witness_Utf8DecodeStoresOrZeroes :
    (∀ room ∈ [1, 2], (run 0x4B (bytesOf [0x41, 0xE2, 0x82]) 3 room 0 0).mem.wf = true ∧
      BuffersPass .u8Decode (run 0x4B (bytesOf [0x41, 0xE2, 0x82]) 3 room 0 0).snap ∧
      (run 0x4B (bytesOf [0x41, 0xE2, 0x82]) 3 room 0 0).snap.capacity = room ∧
      (u8Steps (run 0x4B (bytesOf [0x41, 0xE2, 0x82]) 3 room 0 0).srcBytes).length = 2 ∧
      ∃ step ∈ u8Steps (run 0x4B (bytesOf [0x41, 0xE2, 0x82]) 3 room 0 0).srcBytes,
        step.kind = .truncated) ∧
    BuffersPass .u8Decode (runBytes 0x4B (bytesOf [0x41, 0xE2]) 1).snap ∧
    ∀ step ∈ u8Steps (runBytes 0x4B (bytesOf [0xE2, 0x28, 0xA1]) 3).srcBytes, step.kind ≠ .truncated := by
  unfold BuffersPass
  decide

theorem witness_Utf8ValidatorAndDecoderAgree :
    u8Valid (bytesOf [0xF4, 0x8F, 0xBF, 0xBF]) = true ∧ 0x10FFFF ≤ 0x10FFFF ∧
      ¬(0xD800 ≤ 0x10FFFF ∧ 0x10FFFF ≤ 0xDFFF) := by decide

/-- Two units of room and one. -/
theorem witness_Utf16EncodeCommands :
    BuffersPass .u16Enclen (run 0x51 [0x41#8] 1 0 0 0).snap ∧
    (∀ room ∈ [1, 2], (run 0x52 [] 0 room 0x1F600 0).mem.wf = true ∧
      BuffersPass .u16Cpenc (run 0x52 [] 0 room 0x1F600 0).snap ∧
      (u16Encode (run 0x52 [] 0 room 0x1F600 0).snap.arg32).length = 2 ∧
      BuffersPass .u16Encode (run 0x53 (bytesOf [0x00, 0xF6, 0x01]) 1 room 0 0).snap ∧
      (((run 0x53 (bytesOf [0x00, 0xF6, 0x01]) 1 room 0 0).srcElems 4).flatMap u16Encode).length = 2) := by
  unfold BuffersPass
  decide

/-- A plain unit, a pair, a lone low surrogate, and an offset past the end. -/
theorem witness_Utf16ReadCommands :
    BuffersPass .u16Valid (run 0x58 [0x41#8] 1 0 0 0).snap ∧
      BuffersPass .u16Declen (run 0x59 [0x41#8] 1 0 0 0).snap ∧
      (∀ arg ∈ [0, 1, 3, 4],
        BuffersPass .u16Cpdec
          (run 0x5A (bytesOf [0x41, 0x00, 0xFF, 0xDB, 0x00, 0xDC, 0x00, 0xDC]) 4 0 arg 0).snap) ∧
      (run 0x5A (bytesOf [0x41, 0x00, 0xFF, 0xDB, 0x00, 0xDC, 0x00, 0xDC]) 4 0 1 0).srcElems 2 =
        [0x41, 0xDBFF, 0xDC00, 0xDC00] ∧
      (run 0x5A (bytesOf [0x41, 0x00, 0xFF, 0xDB, 0x00, 0xDC, 0x00, 0xDC]) 4 0 4 0).snap.n ≤
        (run 0x5A (bytesOf [0x41, 0x00, 0xFF, 0xDB, 0x00, 0xDC, 0x00, 0xDC]) 4 0 4 0).snap.regs.arg.toNat := by
  unfold BuffersPass
  decide

theorem witness_Utf16ValidityIsPairing :
    u16Valid [0xD83D, 0xDE00, 0x41] = true ∧ 0xFFFE ∈ [0x41, 0xFFFE] := by decide

/-- Two steps with room for two, and for one. -/
theorem witness_Utf16DecodeStoresTheSteps :
    ∀ room ∈ [1, 2], (run 0x5B (bytesOf [0xFE, 0xFF, 0x41, 0x00]) 2 room 0 0).mem.wf = true ∧
      BuffersPass .u16Decode (run 0x5B (bytesOf [0xFE, 0xFF, 0x41, 0x00]) 2 room 0 0).snap ∧
      (run 0x5B (bytesOf [0xFE, 0xFF, 0x41, 0x00]) 2 room 0 0).snap.capacity = room ∧
      (u16Steps ((run 0x5B (bytesOf [0xFE, 0xFF, 0x41, 0x00]) 2 room 0 0).srcElems 2)).length = 2 := by
  unfold BuffersPass
  decide

theorem witness_Utf16StepsCoverTheText : 1 < (u16Steps [0xD83D, 0xDE00, 0xDC00]).length := by decide

theorem witness_Utf16RoundTrip :
    (∀ u ∈ [0xDBFF, 0xDFFF, 0xFFFD], u < 0x10000) ∧ u16Valid [0xDBFF, 0xDFFF, 0xFFFD] = true ∧
      ∀ cp ∈ [0x10FFFF, 0xFFFD, 0xD7FF, 0xE000],
        cp ≤ 0x10FFFF ∧ ¬(0xD800 ≤ cp ∧ cp ≤ 0xDFFF) ∧ cp ≠ 0xFFFE ∧ cp ≠ 0xFFFF := by decide

/-- A destination of exactly the integer's bytes. -/
theorem witness_EndianEncodeWritesTheBytes :
    (run 0x60 [] 0 2 0x1234 0).mem.wf = true ∧ (run 0x60 [] 0 2 0x1234 0).snap.regs.dstAddr ≠ 0#64 ∧
      ((run 0x60 [] 0 2 0x1234 0).snap.dst 1).outOfRange = false ∧
      2 ≤ (run 0x60 [] 0 2 0x1234 0).snap.capacity ∧
      (Instr.encU16 .big, 2) ∈ [(Instr.encU16 .big, 2), (.encU32 .big, 4), (.encU64 .big, 8)] := by decide

theorem witness_EndianDecodeReadsTheValue :
    (run 0x106A (bytesOf [1, 2, 3, 4, 5, 6, 7, 8]) 8 0 0 0).snap.regs.srcAddr ≠ 0#64 ∧
      ((run 0x106A (bytesOf [1, 2, 3, 4, 5, 6, 7, 8]) 8 0 0 0).snap.src 1).outOfRange = false ∧
      8 ≤ (run 0x106A (bytesOf [1, 2, 3, 4, 5, 6, 7, 8]) 8 0 0 0).snap.n ∧
      (Instr.decU64 .little, 8) ∈ [(Instr.decU16 .little, 2), (.decU32 .little, 4), (.decU64 .little, 8)] := by
  decide

/-- Address 0 with length 0; a tag of 2; one byte too few; a destination that ends past memory. -/
theorem witness_EndianFailures :
    (load 0x60 (regsOf 0 0 0 0 0 0 0) []).snap.regs.dstAddr = 0#64 ∧
      (run 0x2060 [] 0 2 0 0).snap.regs.dstAddr ≠ 0#64 ∧
      ((run 0x60 [] 0 1 0 0).snap.dst 1).outOfRange = false ∧ (run 0x60 [] 0 1 0 0).snap.capacity < 2 ∧
      ((load 0x60 (regsOf 0 0 0xFFFFFFFFFFFFFFFF 2 0 0 0) []).snap.dst 1).outOfRange = true := by decide

theorem witness_EndianRoundTripThroughTheBlock :
    (run 0x60 [] 0 2 0xFFFF 0).mem.wf = true ∧ (run 0x60 [] 0 2 0xFFFF 0).snap.regs.arg.toNat < 256 ^ 2 ∧
      ∃ t, exec (.encU16 .big) (run 0x60 [] 0 2 0xFFFF 0) = .next t ∧ t.err = .ok ∧
        ∃ u : State, u.mem = t.mem ∧
          u.snap.regs.srcAddr = (run 0x60 [] 0 2 0xFFFF 0).snap.regs.dstAddr ∧
          (u.snap.src 1).outOfRange = false ∧ 2 ≤ u.snap.n :=
  ⟨by decide, by decide, _, rfl, rfl, load 0x68 (regsOf 0x2000 2 0 0 0 0 0) _, rfl, by decide, rfl, by decide⟩

end Sys2Proof.Tests
end

/-! PROOFS. The statements about the register window, the two agents' effects on the registers, and the
invariant (10_state.md). -/

namespace Sys2Proof.Machine

/-! ### The register window -/

theorem regAt_ne_cmd {off : BitVec 8} (h : 0x10 ≤ off.toNat) : regAt off ≠ some .cmd := by
  rw [regAt]
  split
  case h_1 h0 => omega
  all_goals simp

/-- At 0x48 and above stand the two results and the reserved offsets (R20). -/
theorem regAt_of_high {off : BitVec 8} (h : 0x48 ≤ off.toNat) :
    regAt off = some .result ∨ regAt off = some .result2 ∨ regAt off = none := by
  rw [regAt]
  split
  case h_10 => exact .inl rfl
  case h_11 => exact .inr (.inl rfl)
  case h_12 => exact .inr (.inr rfl)
  all_goals omega

theorem regAt_reserved {off : BitVec 8} (h : 0x58 ≤ off.toNat) : regAt off = none := by
  rw [regAt]
  split
  case h_12 => rfl
  all_goals omega

/-- A 64-bit access at an aligned offset of the window has its effect (R50). -/
theorem hostRegAccess_regAddr {s : State} {off : BitVec 8} (h : off.toNat % 8 = 0)
    (effect : Option Reg → State) :
    hostRegAccess (regAddr s.cfg off) 8 s effect = .next (effect (regAt off)) := by
  simp [hostRegAccess, supportedAccess, h]

theorem State.tail_of_host {s : State} {x : HostStep} {rest : List HostStep} (h : s.host = x :: rest) :
    s.tail = { s with host := rest } := by
  rw [State.tail, h, List.tail_cons]

/-- The step of a supported register write (R50). -/
theorem step_regWrite {s : State} {off : BitVec 8} {v : Word} {rest : List HostStep}
    (h : s.host = .regWrite (regAddr s.cfg off) 8 v :: rest) (hoff : off.toNat % 8 = 0) :
    step s = .next (State.writeReg { s with host := rest } (regAt off) v) := by
  rw [← State.tail_of_host h]
  simp only [step, stepOnce, h]
  exact hostRegAccess_regAddr (s := s.tail) hoff _

/-- The step of a supported register read (R50, R320). -/
theorem step_regRead {s : State} {off : BitVec 8} {rest : List HostStep}
    (h : s.host = .regRead (regAddr s.cfg off) 8 :: rest) (hoff : off.toNat % 8 = 0) :
    step s = .next { s with host := rest, rdata := s.readReg (regAt off) } := by
  have ht : step s = .next { s.tail with rdata := s.tail.readReg (regAt off) } := by
    simp only [step, stepOnce, h]
    exact hostRegAccess_regAddr (s := s.tail) hoff _
  rw [ht, State.tail_of_host h]
  rfl

/-! ### Register writes -/

theorem State.busy_eq_false {s : State} : s.busy = false ↔ s.pending = none := by simp [State.busy]

theorem State.writeCmd_idle {s : State} (h : s.busy = false) (w : Word) : s.writeCmd w = s.accept w := by
  simp [State.writeCmd, h]

theorem State.writeCmd_busy {s : State} (h : s.busy = true) (w : Word) :
    s.writeCmd w = { s with ovr := true } := by
  simp [State.writeCmd, h]

theorem State.writeOperand_idle {s : State} (h : s.busy = false) (regs : OpRegs) :
    s.writeOperand regs = { s with regs := regs } := by
  simp [State.writeOperand, h]

theorem State.writeOperand_busy {s : State} (h : s.busy = true) (regs : OpRegs) :
    s.writeOperand regs = s := by
  simp [State.writeOperand, h]

/-- A write that is not of CMD is one of an operand register, or ignored (R20 to R22, R27). -/
theorem State.writeReg_of_ne_cmd (s : State) {r : Option Reg} (h : r ≠ some .cmd) (v : Word) :
    s.writeReg r v = s ∨ ∃ regs, s.writeReg r v = s.writeOperand regs := by
  rcases r with _ | r
  · exact .inl rfl
  · cases r
    case cmd => exact absurd rfl h
    case status | result | result2 => exact .inl rfl
    all_goals exact .inr ⟨_, rfl⟩

theorem State.writeReg_busy {s : State} (hb : s.busy = true) {r : Option Reg} (h : r ≠ some .cmd) (v : Word) :
    s.writeReg r v = s := by
  rcases s.writeReg_of_ne_cmd h v with he | ⟨regs, he⟩
  · exact he
  · rw [he, State.writeOperand_busy hb]

/-- All that a host register write can do: nothing, set OVR, be accepted as a command, or store an operand
(R20 to R22, R26, R27, R29). -/
theorem State.writeReg_cases (s : State) (r : Option Reg) (v : Word) :
    s.writeReg r v = s ∨ s.writeReg r v = { s with ovr := true } ∨ s.writeReg r v = s.accept v ∨
      (s.pending = none ∧ ∃ regs, s.writeReg r v = { s with regs := regs }) := by
  cases hb : s.busy with
  | true =>
    by_cases hr : r = some .cmd
    · exact .inr (.inl (hr ▸ State.writeCmd_busy hb v))
    · exact .inl (State.writeReg_busy hb hr v)
  | false =>
    by_cases hr : r = some .cmd
    · exact .inr (.inr (.inl (hr ▸ State.writeCmd_idle hb v)))
    · rcases s.writeReg_of_ne_cmd hr v with he | ⟨regs, he⟩
      · exact .inl he
      · exact .inr (.inr (.inr ⟨State.busy_eq_false.mp hb, regs, he.trans (State.writeOperand_idle hb regs)⟩))

/-! ### The invariant -/

/-- The four parts of the invariant. -/
theorem State.inv_iff {s : State} :
    s.inv = true ↔
      s.mem.wf = true ∧ cmdFieldsOnly s = true ∧ pendingAgrees s = true ∧ statusProducible s = true := by
  simp only [State.inv, Bool.and_eq_true, and_assoc]

@[simp] theorem State.inv_tail (s : State) : s.tail.inv = s.inv := rfl

@[simp] theorem State.inv_rdata (s : State) (v : Word) : State.inv { s with rdata := v } = s.inv := rfl

@[simp] theorem State.inv_ovr (s : State) (v : Bool) : State.inv { s with ovr := v } = s.inv := rfl

theorem pendingAgrees_of_none {s : State} (h : s.pending = none) : pendingAgrees s = true := by
  rw [pendingAgrees, h]

theorem State.inv_mem {s : State} (h : s.inv = true) {m : Memory} (hm : m.wf = true) :
    State.inv { s with mem := m } = true := by
  obtain ⟨-, hcmd, hpend, herr⟩ := State.inv_iff.mp h
  exact State.inv_iff.mpr ⟨hm, hcmd, hpend, herr⟩

/-- With nothing pending the operand registers are free (R21). -/
theorem State.inv_regs {s : State} (h : s.inv = true) (hp : s.pending = none) (regs : OpRegs) :
    State.inv { s with regs := regs } = true := by
  obtain ⟨hmem, hcmd, -, herr⟩ := State.inv_iff.mp h
  exact State.inv_iff.mpr ⟨hmem, hcmd, pendingAgrees_of_none hp, herr⟩

/-- An accepted command's snapshot is what CMD and the operand registers hold (R26). -/
theorem State.inv_accept {s : State} (h : s.inv = true) (w : Word) : (s.accept w).inv = true := by
  obtain ⟨hmem, -, -, herr⟩ := State.inv_iff.mp h
  refine State.inv_iff.mpr ⟨hmem, ?_, ?_, herr⟩
  · simp [cmdFieldsOnly, BitVec.and_assoc]
  · simp [pendingAgrees, State.snapshotOf]

theorem State.inv_writeReg {s : State} (h : s.inv = true) (r : Option Reg) (v : Word) :
    (s.writeReg r v).inv = true := by
  rcases s.writeReg_cases r v with he | he | he | ⟨hp, regs, he⟩ <;> rw [he]
  · exact h
  · exact (s.inv_ovr true).trans h
  · exact State.inv_accept h v
  · exact State.inv_regs h hp regs

/-- A finished command leaves nothing pending, so its operands no longer matter (R33, R104). -/
theorem State.inv_finish {s : State} (hmem : s.mem.wf = true) (hcmd : cmdFieldsOnly s = true) {st : Status}
    (hst : st ≠ .notPowerOfTwo) (r r2 : Nat) : (s.finish st r r2).inv = true :=
  State.inv_iff.mpr ⟨hmem, hcmd, rfl, decide_eq_true hst⟩

theorem ExecEffect.inv {i : Instr} {s t : State} (he : ExecEffect i s t) (h : s.inv = true) :
    t.inv = true := by
  obtain ⟨hmem, hcmd, -, -⟩ := State.inv_iff.mp h
  obtain ⟨bs, u, st, r, r2, rfl, hst, -, -, -, hu⟩ := he
  obtain ⟨humem, hucmd⟩ : u.mem.wf = true ∧ cmdFieldsOnly u = true := by
    have hput : (s.putDst bs).mem.wf = true := Memory.writeBytes_wf hmem _ bs
    rcases hu with rfl | ⟨rfl, -, -⟩ | ⟨v, rfl, -, -⟩
    · exact ⟨hput, hcmd⟩
    · exact ⟨hmem, hcmd⟩
    · exact ⟨hput, hcmd⟩
  exact State.inv_finish humem hucmd hst r r2

theorem State.inv_reservedOpcode {s : State} (h : s.inv = true) : s.reservedOpcode.inv = true := by
  obtain ⟨hmem, hcmd, -, -⟩ := State.inv_iff.mp h
  exact State.inv_finish hmem hcmd (by decide) 0 0

theorem State.inv_platformReset {s : State} (h : s.inv = true) : s.platformReset.inv = true := by
  obtain ⟨hmem, -, -, -⟩ := State.inv_iff.mp h
  exact State.inv_iff.mpr ⟨Memory.writeBytes_wf hmem _ _, decide_eq_true BitVec.zero_and, rfl, rfl⟩

theorem engineStep_keeps_inv {s t : State} (h : s.inv = true) (hs : engineStep s = .next t) :
    t.inv = true := by
  rcases engineStep_cases s with he | ⟨p, op, -, -, he⟩ | he | ⟨p, i, -, -, he⟩ <;> rw [he] at hs
  · exact Host.Outcome.next.inj hs ▸ h
  · exact Host.Outcome.next.inj hs ▸ State.inv_reservedOpcode h
  · cases hs
  · exact (exec_effect hs).inv h

/-- A host register access that answers a next state has its effect at some register or reserved offset (R50). -/
theorem hostRegAccess_next {addr : Word} {width : Nat} {s t : State} {effect : Option Reg → State}
    (h : hostRegAccess addr width s effect = .next t) : ∃ r, t = effect r := by
  rcases hostRegAccess_cases addr width s effect with ⟨-, he⟩ | ⟨off, -, ⟨-, he⟩ | ⟨-, he⟩⟩ <;>
    rw [he] at h
  · cases h
  · exact ⟨_, (Host.Outcome.next.inj h).symm⟩
  · cases h

/-- A host memory access that answers a next state has its effect (R62, R63, R68). -/
theorem hostMemAccess_next {a : Word} {s t u : State} (h : hostMemAccess a s (.next u) = .next t) :
    t = u := by
  rcases hostMemAccess_cases a s (.next u) with ⟨-, he⟩ | ⟨-, he⟩ <;> rw [he] at h
  · cases h
  · rcases guarded_cases s.cfg [{ addr := a.toNat, size := 1 }] (.fault .unservedAddress) (.next u) with
      ⟨-, hg⟩ | ⟨-, ⟨-, hg⟩ | ⟨-, hg⟩⟩ <;> rw [hg] at h
    · cases h
    · cases h
    · exact (Host.Outcome.next.inj h).symm

/-- All that one step can do when it answers a next state: the engine's turn, before or after the host's list
moves on; the platform's reset; or a host access, which writes a register, changes only what the host has read,
or writes a byte of memory (R320). -/
theorem step_next_cases {s t : State} (h : step s = .next t) :
    (engineStep s = .next t ∨ engineStep s.tail = .next t) ∨ t = s.tail.platformReset ∨
      (∃ r v, t = s.tail.writeReg r v) ∨ (∃ v, t = { s.tail with rdata := v }) ∨
      ∃ a v, t = { s.tail with mem := s.tail.mem.write a v } := by
  rw [step, stepOnce] at h
  rcases hh : s.host with _ | ⟨entry, rest⟩ <;> rw [hh] at h
  · exact .inl (.inl h)
  · cases entry with
    | regWrite addr width v =>
      obtain ⟨r, rfl⟩ := hostRegAccess_next h
      exact .inr (.inr (.inl ⟨r, v, rfl⟩))
    | regRead addr width =>
      obtain ⟨r, rfl⟩ := hostRegAccess_next h
      exact .inr (.inr (.inr (.inl ⟨_, rfl⟩)))
    | memWrite a v => exact .inr (.inr (.inr (.inr ⟨_, _, hostMemAccess_next h⟩)))
    | memRead a => exact .inr (.inr (.inr (.inl ⟨_, hostMemAccess_next h⟩)))
    | wait =>
      cases hb : s.busy <;> simp only [hb] at h
      · exact .inr (.inr (.inr (.inl ⟨_, (Host.Outcome.next.inj h).symm⟩)))
      · exact .inl (.inl h)
    | engine => exact .inl (.inr h)
    | reset => exact .inr (.inl (Host.Outcome.next.inj h).symm)

theorem step_keeps_inv {s t : State} (h : s.inv = true) (hs : step s = .next t) : t.inv = true := by
  have htail := s.inv_tail.trans h
  rcases step_next_cases hs with (he | he) | rfl | ⟨r, v, rfl⟩ | ⟨v, rfl⟩ | ⟨a, v, rfl⟩
  · exact engineStep_keeps_inv h he
  · exact engineStep_keeps_inv htail he
  · exact State.inv_platformReset htail
  · exact State.inv_writeReg htail r v
  · exact (s.tail.inv_rdata v).trans htail
  · obtain ⟨hmem, -, -, -⟩ := State.inv_iff.mp htail
    exact State.inv_mem htail (Memory.write_wf hmem a v)

/-- Settles O22: the engine's turn, each host access and the reset keep the invariant. -/
theorem everyStepKeepsTheInvariant : Obligations.EveryStepKeepsTheInvariant :=
  fun _ _ h hs => step_keeps_inv h hs

/-! ### STATUS -/

/-- Where each field of STATUS stands (R27). -/
theorem State.getLsbD_statusWord (s : State) (j : Nat) :
    s.statusWord.getLsbD j =
      if j = 0 then s.busy else if j = 1 then s.ovr
      else if 8 ≤ j ∧ j ≤ 10 then s.err.code.getLsbD (j - 8) else false := by
  have hfield : j = 0 ∨ j = 1 ∨ (2 ≤ j ∧ j < 8) ∨ (8 ≤ j ∧ j ≤ 10) ∨ 10 < j := by omega
  simp only [State.statusWord, BitVec.getLsbD_append, Nat.sub_sub, BitVec.getLsbD_zero]
  rcases hfield with rfl | rfl | h | h | h
  · cases s.busy <;> rfl
  · cases s.ovr <;> rfl
  all_goals grind

/-- Settles O13: the fields' places, and the number of each status kind. -/
theorem statusWordHasTheStatedFields : Obligations.StatusWordHasTheStatedFields := by
  intro s j
  rw [State.getLsbD_statusWord]
  cases s.err <;> rfl

/-! ### OFFSET -/

/-- All that HEX_DUMP can do when it answers a next state: fail, or write its text, advance OFFSET if USE_OFF = 1
and finish OK (R305, R306). -/
theorem execHexDump_next {useOff : Bool} {s t : State} (h : execHexDump useOff s = .next t) :
    (∃ st, st ≠ .ok ∧ t = s.fail st) ∨
      ∃ bs, t = State.finish (if useOff then (s.putDst bs).setOffset (dumpStart useOff s.snap + s.snap.n)
        else s.putDst bs) .ok 0 0 := by
  rcases checked_cases h with ⟨st, hf, ht⟩ | ⟨-, ht⟩
  · obtain ⟨c, hc, -, rfl⟩ := firstFailure_eq_some hf
    have hne : c.2 ≠ .ok := by
      revert c
      simp
    exact .inl ⟨c.2, hne, Host.Outcome.next.inj ht⟩
  · exact .inr ⟨_, Host.Outcome.next.inj ht⟩

theorem execHexDump_offset {s t : State} (h : execHexDump true s = .next t) (hok : t.err = .ok) :
    t.regs.offset = BitVec.ofNat 64 (s.snap.regs.offset.toNat + s.snap.n) := by
  rcases execHexDump_next h with ⟨st, hne, rfl⟩ | ⟨bs, rfl⟩
  · exact absurd hok hne
  · rfl

/-- Only a HEX_DUMP with USE_OFF = 1 that finished OK wrote OFFSET (R23). -/
theorem ExecEffect.offset {i : Instr} {s t : State} (he : ExecEffect i s t)
    (hn : ¬(i = .hexDump true ∧ t.err = .ok)) : t.regs.offset = s.regs.offset := by
  obtain ⟨bs, u, st, r, r2, rfl, -, -, -, -, rfl | ⟨rfl, -, -⟩ | ⟨v, -, hi, hok⟩⟩ := he
  · rfl
  · rfl
  · exact absurd ⟨hi, hok⟩ hn

/-- Settles O20: by what HEX_DUMP can do when it finishes OK, and by the effect every other command shares. -/
theorem onlyASuccessfulDumpWritesOffset : Obligations.OnlyASuccessfulDumpWritesOffset := by
  refine ⟨fun i s t h => ⟨?_, (exec_effect h).offset⟩, fun _ => rfl⟩
  rintro ⟨rfl, hok⟩
  exact execHexDump_offset h hok

/-! ### Host accesses of the registers -/

/-- Settles O9: the write reaches CMD while nothing is pending, so it is accepted. -/
theorem cmdWriteWhileIdleIsAccepted : Obligations.CmdWriteWhileIdleIsAccepted := by
  intro s w rest hb h
  have haccept := State.writeCmd_idle (s := { s with host := rest }) hb w
  exact ⟨_, (step_regWrite h (by decide)).trans (congrArg _ haccept), rfl, rfl⟩

/-- Settles O10: the write reaches CMD while a command is pending, so it sets OVR. -/
theorem cmdWriteWhileBusyOnlySetsOverrun : Obligations.CmdWriteWhileBusyOnlySetsOverrun := by
  intro s w rest hb h
  rw [step_regWrite h (by decide)]
  exact congrArg _ (State.writeCmd_busy (s := { s with host := rest }) hb w)

/-- The step of a write of an operand register while BUSY = 0. -/
theorem step_regWrite_operand {s : State} {off : BitVec 8} {v : Word} {rest : List HostStep} {regs : OpRegs}
    (hb : s.busy = false) (hoff : off.toNat % 8 = 0)
    (hw : State.writeReg { s with host := rest } (regAt off) v = State.writeOperand { s with host := rest } regs)
    (h : s.host = .regWrite (regAddr s.cfg off) 8 v :: rest) :
    step s = .next { s with host := rest, regs := regs } := by
  rw [step_regWrite h hoff, hw, State.writeOperand_idle (s := { s with host := rest }) hb]

/-- A write of a read-only register or of a reserved offset is ignored (R20, R22, R27). -/
theorem State.writeReg_readOnly (s : State) {off : BitVec 8} (h : off = 0x08#8 ∨ 0x48 ≤ off.toNat) (v : Word) :
    s.writeReg (regAt off) v = s := by
  rcases h with rfl | h
  · rfl
  · rcases regAt_of_high h with he | he | he <;> rw [he] <;> rfl

/-- Settles O11: one operand write for the seven offsets; every other write leaves the block as it is. -/
theorem registerWritesAreStoredOrIgnored : Obligations.RegisterWritesAreStoredOrIgnored := by
  constructor
  · intro s v rest hb
    refine ⟨?_, ?_, ?_, ?_, ?_, ?_, ?_⟩ <;> exact step_regWrite_operand hb (by decide) rfl
  · intro s off v rest h hoff hcase
    rw [step_regWrite h hoff]
    rcases hcase with ⟨hb, hlo, -⟩ | hro
    · rw [State.writeReg_busy (s := { s with host := rest }) hb (regAt_ne_cmd hlo)]
    · rw [State.writeReg_readOnly _ hro]

/-- Settles O12: the value is what `State.readReg` gives at the offset's register. -/
theorem registerReadsReturnCurrentValues : Obligations.RegisterReadsReturnCurrentValues := by
  intro s off rest h hoff
  refine ⟨s.readReg (regAt off), step_regRead h hoff, ?_, ?_, ?_, ?_, ?_, ?_, ?_, ?_, ?_, ?_, ?_, ?_⟩
  case refine_12 =>
    intro hres
    rw [regAt_reserved hres]
    rfl
  all_goals
    rintro rfl
    rfl

/-! ### Reset -/

/-- Settles O15: no parameter has a part in any of the registers. -/
theorem resetLeavesTheStatedValues : Obligations.ResetLeavesTheStatedValues := by
  refine ⟨rfl, ?_, rfl, rfl, rfl, rfl, rfl, rfl, rfl, rfl, rfl, rfl⟩
  decide

end Sys2Proof.Machine

/-! PROOFS. The statements about shared memory and the memory map (20_memory.md): what a command may write, what
no step changes, and which command and which host access stops. -/

namespace Sys2Proof.Machine

/-! ### The frame of every command -/

@[simp] theorem dstRange_addr (i : Instr) (p : Snapshot) : (dstRange i p).addr = p.regs.dstAddr.toNat := rfl

theorem Buf.has_iff {b : Buf} {a : Nat} : b.has a = true ↔ b.addr ≤ a ∧ a < b.addr + b.size := by
  rw [Buf.has, Bool.and_eq_true, decide_eq_true_eq, decide_eq_true_eq]

/-- What every command keeps of the registers and of the model's own fields (R103, R104). -/
theorem ExecEffect.registers_kept {i : Instr} {s t : State} (he : ExecEffect i s t) :
    t.pending = none ∧ t.cmd = s.cmd ∧ t.ovr = s.ovr ∧ t.cfg = s.cfg ∧ t.host = s.host ∧
      t.rdata = s.rdata ∧ t.regs = { s.regs with offset := t.regs.offset } := by
  obtain ⟨bs, u, st, r, r2, rfl, -, -, -, -, rfl | ⟨rfl, -, -⟩ | ⟨v, rfl, -, -⟩⟩ := he <;>
    exact ⟨rfl, rfl, rfl, rfl, rfl, rfl, rfl⟩

/-- Only HEX_DECLEN uses a free value (R156). -/
theorem ExecEffect.draws_kept {i : Instr} {s t : State} (he : ExecEffect i s t) (hi : i ≠ .hexDeclen) :
    t.draws = s.draws := by
  obtain ⟨bs, u, st, r, r2, rfl, -, -, -, -, rfl | ⟨-, -, hdeclen⟩ | ⟨v, rfl, -, -⟩⟩ := he
  · rfl
  · exact absurd hdeclen hi
  · rfl

/-- All that a command does to memory: it writes some bytes at its destination, no more than the destination
holds, and none if it fails, but for U8_DECODE (R59). -/
theorem ExecEffect.mem_written {i : Instr} {s t : State} (he : ExecEffect i s t) :
    ∃ bs, t.mem = s.mem.writeBytes (dstRange i s.snap).addr bs ∧ bs.length ≤ (dstRange i s.snap).size ∧
      (bs = [] ∨ t.err = .ok ∨ i = .u8Decode) := by
  obtain ⟨bs, u, st, r, r2, rfl, -, hlen, -, hwhen, hu⟩ := he
  refine ⟨bs, ?_, hlen, hwhen⟩
  rcases hu with rfl | ⟨rfl, rfl, -⟩ | ⟨v, rfl, -, -⟩ <;> rfl

theorem ExecEffect.keptOutside {i : Instr} {s t : State} (he : ExecEffect i s t) :
    KeptOutside s t (dstRange i s.snap).addr (dstRange i s.snap).size := by
  obtain ⟨bs, hmem, hlen, -⟩ := he.mem_written
  intro b hb
  rw [hmem]
  exact Memory.read_writeBytes_outside _ (by omega)

/-- Settles O18: the frame of the effect that every command has. -/
theorem commandsKeepEverythingButResultsAndDestination :
    Obligations.CommandsKeepEverythingButResultsAndDestination := by
  intro i s t h
  have he := exec_effect h
  obtain ⟨hpend, hcmd, hovr, hcfg, hhost, hrdata, hregs⟩ := he.registers_kept
  exact ⟨hpend, hcmd, hovr, hcfg, hhost, hrdata, hregs, he.draws_kept, he.keptOutside⟩

/-! ### Failed commands -/

theorem ExecEffect.mem_of_failed {i : Instr} {s t : State} (he : ExecEffect i s t) (herr : t.err ≠ .ok)
    (hi : i ≠ .u8Decode) : t.mem = s.mem := by
  obtain ⟨bs, hmem, -, rfl | hok | hu8⟩ := he.mem_written
  · exact hmem
  · exact absurd hok herr
  · exact absurd hu8 hi

/-- All that a failing U8_DECODE can do: fail a check before it writes, or zero its destination, which has passed
the range check (R106, R250). -/
theorem execU8Decode_failed {s t : State} (h : execU8Decode s = .next t) (herr : t.err ≠ .ok) :
    t.mem = s.mem ∨ ((dstRange .u8Decode s.snap).outOfRange = false ∧ t.mem = s.zeroDst.mem) := by
  rcases checked_cases h with ⟨st, -, ht⟩ | ⟨hpass, ht⟩
  · exact .inl (Host.Outcome.next.inj ht ▸ rfl)
  · have hfit := firstFailure_eq_none.mp hpass (rangeCheck (s.snap.dst 4)) (by simp)
    refine .inr ⟨hfit, ?_⟩
    split at ht
    · exact Host.Outcome.next.inj ht ▸ rfl
    · split at ht
      · exact Host.Outcome.next.inj ht ▸ rfl
      · exact absurd (congrArg State.err (Host.Outcome.next.inj ht)) herr

/-- A zeroed destination that fits in memory reads 0 at every byte (R250). -/
theorem zeroDst_read {s : State} (hm : s.mem.wf = true) (hfit : (dstRange .u8Decode s.snap).outOfRange = false)
    {a : Nat} (ha : (dstRange .u8Decode s.snap).has a = true) : s.zeroDst.mem.read a = 0#8 := by
  have hsize : (dstRange .u8Decode s.snap).size = (List.replicate (4 * s.snap.capacity) 0#8).length := by
    rw [List.length_replicate, Nat.mul_comm]
    rfl
  rw [Buf.has_iff, dstRange_addr, hsize] at ha
  rw [Buf.outOfRange_eq_false, dstRange_addr, hsize] at hfit
  obtain ⟨k, rfl⟩ := Nat.exists_eq_add_of_le ha.1
  exact (Memory.read_writeBytes_inside hm (by omega) (by omega)).trans (List.getElem_replicate _)

/-- Settles O19: U8_DECODE by its own cases, every other command by the effect that all share. -/
theorem failedCommandsWriteNothing : Obligations.FailedCommandsWriteNothing := by
  intro i s t hm h herr
  by_cases hi : i = .u8Decode
  · subst hi
    rcases execU8Decode_failed h herr with hmem | ⟨hfit, hmem⟩
    · exact .inl hmem
    · exact .inr ⟨rfl, fun a ha => hmem ▸ zeroDst_read hm hfit ha⟩
  · exact .inl ((exec_effect h).mem_of_failed herr hi)

/-! ### The parameters -/

theorem State.writeReg_cfg (s : State) (r : Option Reg) (v : Word) : (s.writeReg r v).cfg = s.cfg := by
  rcases s.writeReg_cases r v with he | he | he | ⟨-, regs, he⟩ <;> rw [he]
  rfl

theorem engineStep_cfg {s t : State} (h : engineStep s = .next t) : t.cfg = s.cfg := by
  rcases engineStep_cases s with he | ⟨p, op, -, -, he⟩ | he | ⟨p, i, -, -, he⟩ <;> rw [he] at h
  · exact Host.Outcome.next.inj h ▸ rfl
  · exact Host.Outcome.next.inj h ▸ rfl
  · cases h
  · obtain ⟨-, -, -, hcfg, -, -, -⟩ := (exec_effect h).registers_kept
    exact hcfg

theorem step_cfg {s t : State} (h : step s = .next t) : t.cfg = s.cfg := by
  rcases step_next_cases h with (he | he) | rfl | ⟨r, v, rfl⟩ | ⟨v, rfl⟩ | ⟨a, v, rfl⟩
  · exact engineStep_cfg he
  · exact (engineStep_cfg he).trans s.tail_cfg
  · rfl
  · exact s.tail.writeReg_cfg r v
  · rfl
  · rfl

/-- Settles O21: the engine's turn, each host access and the reset keep the parameters, NATIVE_ORDER among them. -/
theorem noStepChangesTheParameters : Obligations.NoStepChangesTheParameters :=
  fun _ _ h => ⟨congrArg Params.nativeOrder (step_cfg h), step_cfg h⟩

/-! ### The memory map -/

theorem guarded_of_sideEffecting {cfg : Params} {ranges : List Buf}
    (h : ∃ b ∈ ranges, reachesKind cfg .sideEffecting b = true) (unserved next : Result) :
    guarded cfg ranges unserved next = .refused .sideEffectingMemory := by
  rw [guarded, if_pos (List.any_eq_true.mpr h)]

theorem guarded_of_unserved {cfg : Params} {ranges : List Buf}
    (hside : ∀ b ∈ ranges, reachesKind cfg .sideEffecting b = false)
    (h : ∃ b ∈ ranges, reachesKind cfg .unserved b = true) (unserved next : Result) :
    guarded cfg ranges unserved next = unserved := by
  rw [guarded, if_neg (by simpa using hside), if_pos (List.any_eq_true.mpr h)]

theorem guarded_of_ordinary {cfg : Params} {ranges : List Buf}
    (hside : ∀ b ∈ ranges, reachesKind cfg .sideEffecting b = false)
    (h : ∀ b ∈ ranges, reachesKind cfg .unserved b = false) (unserved next : Result) :
    guarded cfg ranges unserved next = next := by
  rw [guarded, if_neg (by simpa using hside), if_neg (by simpa using h)]

/-! ### Commands off ordinary memory -/

theorem State.tail_of_nil {s : State} (h : s.host = []) : s.tail = s := by
  rw [State.tail, h, List.tail_nil, ← h]

/-- The engine's turn (R101). -/
theorem step_of_engineNext {s : State} (h : engineNext s) : step s = engineStep s.tail := by
  rcases h with h | h
  · rw [State.tail_of_nil h, step, stepOnce, h]
  · obtain ⟨rest, hhost⟩ := List.head?_eq_some_iff.mp h
    rw [step, stepOnce, hhost]

/-- While a WAIT is held only the engine moves (R321). -/
theorem step_of_wait_busy {s : State} (h : s.host.head? = some .wait) (hb : s.busy = true) :
    step s = engineStep s := by
  obtain ⟨rest, hhost⟩ := List.head?_eq_some_iff.mp h
  simp only [step, stepOnce, hhost, hb, if_true]

/-- The engine's turn at a command is the command, where the memory map lets it run (R62, R63, R103). -/
theorem engineStep_of_command {s : State} {p : Snapshot} {i : Instr} (hp : s.pending = some p)
    (hd : decode s.cfg.hasHexDump p.word = .command i) :
    engineStep s = guarded s.cfg (usedRanges i p) (.next s) (exec i s) := by
  simp only [engineStep, hp, hd]

/-- Settles O7: the engine's turn, its own or during a WAIT, is the command under the memory map. -/
theorem commandOffOrdinaryMemoryStops : Obligations.CommandOffOrdinaryMemoryStops := by
  intro s p i hp hd
  have hbusy : s.busy = true := by rw [State.busy, hp, Option.isSome_some]
  have hturn := engineStep_of_command hp hd
  have hturn' := engineStep_of_command (s := s.tail) hp hd
  refine ⟨?_, fun hside hunserved => ⟨?_, ?_⟩⟩
  · rintro hside (he | hw)
    · rw [step_of_engineNext he, hturn']
      exact guarded_of_sideEffecting hside _ _
    · rw [step_of_wait_busy hw hbusy, hturn]
      exact guarded_of_sideEffecting hside _ _
  · intro he
    rw [step_of_engineNext he, hturn']
    exact ⟨guarded_of_unserved hside hunserved _ _, hbusy, hp⟩
  · intro hw
    rw [step_of_wait_busy hw hbusy, hturn]
    exact ⟨guarded_of_unserved hside hunserved _ _, hbusy⟩

/-! ### Host accesses that stop -/

/-- An access that is not 64 bits wide or not aligned faults (R50). -/
theorem hostRegAccess_of_unsupported {s : State} {off : BitVec 8} {width : Nat}
    (h : width ≠ 8 ∨ off.toNat % 8 ≠ 0) (effect : Option Reg → State) :
    hostRegAccess (regAddr s.cfg off) width s effect = .fault .unsupportedHostAccess := by
  have hs : supportedAccess off width = false := by
    rwa [supportedAccess, Bool.and_eq_false_iff, decide_eq_false_iff_not, decide_eq_false_iff_not]
  simp [hostRegAccess, hs]

theorem hostRegAccess_of_outside {s : State} {addr : Word} (h : ∀ off, addr ≠ regAddr s.cfg off) (width : Nat)
    (effect : Option Reg → State) : hostRegAccess addr width s effect = .fault .outsideWindow := by
  rw [hostRegAccess, windowOffset_eq_none.mpr h]

theorem hostMemAccess_of_raced {s : State} {a : Word} (h : raced s a.toNat) (next : Result) :
    hostMemAccess a s next = .fault .hostBufferRace := by
  rw [hostMemAccess, if_pos (pendingRanges_any.mpr h)]

theorem hostMemAccess_of_not_raced {s : State} {a : Word} (h : ¬raced s a.toNat) (next : Result) :
    hostMemAccess a s next =
      guarded s.cfg [{ addr := a.toNat, size := 1 }] (.fault .unservedAddress) next := by
  rw [hostMemAccess, if_neg (mt pendingRanges_any.mp h)]

/-- The step of a host register access, read or write. -/
theorem step_regAccess {s : State} {addr : Word} {width : Nat} {v : Word} {rest : List HostStep}
    (h : s.host = .regWrite addr width v :: rest ∨ s.host = .regRead addr width :: rest) :
    ∃ effect, step s = hostRegAccess addr width s.tail effect := by
  rcases h with h | h
  · exact ⟨fun r => s.tail.writeReg r v, by rw [step, stepOnce, h]; rfl⟩
  · exact ⟨fun r => { s.tail with rdata := s.tail.readReg r }, by rw [step, stepOnce, h]; rfl⟩

theorem step_memWrite {s : State} {a : Word} {v : Byte} {rest : List HostStep}
    (h : s.host = .memWrite a v :: rest) :
    step s = hostMemAccess a s.tail (.next { s with host := rest, mem := s.mem.write a.toNat v }) := by
  rw [step, stepOnce, h, State.tail_of_host h]
  rfl

theorem step_memRead {s : State} {a : Word} {rest : List HostStep} (h : s.host = .memRead a :: rest) :
    step s =
      hostMemAccess a s.tail (.next { s with host := rest, rdata := (s.mem.read a.toNat).setWidth 64 }) := by
  rw [step, stepOnce, h, State.tail_of_host h]
  rfl

/-- What a step does that is an access of byte `a` with the effect `next`, by where the byte lies (R62, R63,
R68). -/
theorem step_memAccess_outcome {s : State} {a : Word} {next : Result}
    (hstep : step s = hostMemAccess a s.tail next) :
    (raced s a.toNat → step s = .fault .hostBufferRace) ∧
      (¬raced s a.toNat → inRegion s.cfg .sideEffecting a.toNat → step s = .refused .sideEffectingMemory) ∧
      (¬raced s a.toNat → ¬inRegion s.cfg .sideEffecting a.toNat → inRegion s.cfg .unserved a.toNat →
        step s = .fault .unservedAddress) ∧
      (¬raced s a.toNat → ¬inRegion s.cfg .sideEffecting a.toNat → ¬inRegion s.cfg .unserved a.toNat →
        step s = next) := by
  simp only [← reachesKind_byte, Bool.not_eq_true]
  rw [hstep]
  refine ⟨fun hr => hostMemAccess_of_raced (s := s.tail) hr next, ?_, ?_, ?_⟩ <;>
    intro hr <;> rw [hostMemAccess_of_not_raced (s := s.tail) hr]
  · exact fun hside => guarded_of_sideEffecting ⟨_, List.mem_singleton_self _, hside⟩ _ _
  · exact fun hside hun => guarded_of_unserved (List.forall_mem_singleton.mpr hside)
      ⟨_, List.mem_singleton_self _, hun⟩ _ _
  · exact fun hside hun => guarded_of_ordinary (List.forall_mem_singleton.mpr hside)
      (List.forall_mem_singleton.mpr hun) _ _

/-- Settles O14: a register access by its place in the window, a memory access by where its byte lies. -/
theorem hostAccessFaults : Obligations.HostAccessFaults := by
  constructor
  · intro s addr width v rest h
    obtain ⟨effect, hstep⟩ := step_regAccess h
    rw [hstep]
    refine ⟨?_, fun hout => hostRegAccess_of_outside (s := s.tail) hout width effect⟩
    rintro off rfl hbad
    exact hostRegAccess_of_unsupported (s := s.tail) hbad effect
  · rintro s a v rest (h | h)
    · obtain ⟨hrace, hside, hunserved, hserved⟩ := step_memAccess_outcome (step_memWrite h)
      refine ⟨hrace, hside, hunserved, fun hr hs hu => ⟨fun _ => hserved hr hs hu, fun h' => ?_⟩⟩
      simp [h] at h'
    · obtain ⟨hrace, hside, hunserved, hserved⟩ := step_memAccess_outcome (step_memRead h)
      refine ⟨hrace, hside, hunserved, fun hr hs hu => ⟨fun h' => ?_, fun _ => hserved hr hs hu⟩⟩
      simp [h] at h'

end Sys2Proof.Machine

/-! PROOFS. The statements about the command word (30_encoding.md): the decoder's table and its reserved opcodes,
decode after encode, the ALPHA values a command does not accept, and the step that runs a decoded command. -/

namespace Sys2Proof

/-! ### The fields of a command word -/

@[simp] theorem alphaOf_wf (w : Word) : (alphaOf w).wf = true := by
  rw [alphaOf]
  split
  case h_7 =>
    simp only [imp_false, AlphaSel.wf, decide_eq_true_eq] at *
    omega
  all_goals rfl

@[simp] theorem boOf_wf (w : Word) : (boOf w).wf = true := by
  rw [boOf]
  split
  case h_3 =>
    simp only [imp_false, BoTag.wf, decide_eq_true_eq] at *
    omega
  all_goals rfl

/-- The ALPHA field reads back the selector whose code it holds (R73). -/
theorem alphaOf_of_code {w : Word} {alpha : AlphaSel} (h : w.extractLsb' 8 4 = alpha.code)
    (hwf : alpha.wf = true) : alphaOf w = alpha := by
  rw [alphaOf, h]
  cases alpha with
  | reserved code =>
    have hcode : 6 ≤ code.toNat := of_decide_eq_true hwf
    rw [AlphaSel.code]
    split
    case h_7 => rfl
    all_goals omega
  | _ => rfl

/-- The BO field reads back the tag whose code it holds (R72). -/
theorem boOf_of_code {w : Word} {bo : BoTag} (h : w.extractLsb' 12 2 = bo.code) (hwf : bo.wf = true) :
    boOf w = bo := by
  rw [boOf, h]
  cases bo with
  | unsupported code =>
    have hcode : 2 ≤ code.toNat := of_decide_eq_true hwf
    rw [BoTag.code]
    split
    case h_3 => rfl
    all_goals omega
  | _ => rfl

/-! ### The table of R71 -/

/-- A word with a command's opcode, and that command's fields, selects the command (R71). -/
theorem instrOf_of_fields {w : Word} {i : Instr} (hwf : i.wf = true) (hop : opOf w = i.opcode)
    (halpha : w.extractLsb' 8 4 = i.alphaField) (hbo : w.extractLsb' 12 2 = i.boField)
    (huse : useOffOf w = i.useOffField) : instrOf w = some i := by
  rw [instrOf, hop]
  cases i with
  | hexDump useOff =>
    rw [huse]
    rfl
  | b32Encode alpha | b32Valid alpha | b32Decode alpha | b64Encode alpha | b64Valid alpha | b64Decode alpha =>
    rw [alphaOf_of_code (alpha := alpha) halpha hwf]
    rfl
  | encU16 bo | encU32 bo | encU64 bo | decU16 bo | decU32 bo | decU64 bo =>
    rw [boOf_of_code (bo := bo) hbo hwf]
    rfl
  | _ => rfl

/-- The command a word selects is one some word stands for, and has the word's opcode (R71). -/
theorem instrOf_eq_some {w : Word} {i : Instr} (h : instrOf w = some i) :
    i.wf = true ∧ i.opcode = opOf w := by
  have hop (n : Nat) (hn : (opOf w).toNat = n) : BitVec.ofNat 8 n = opOf w := by
    rw [← hn, BitVec.ofNat_toNat, BitVec.setWidth_eq]
  rw [instrOf] at h
  split at h
  case h_40 => cases h
  all_goals
    next hn =>
    obtain rfl := Option.some.inj h
    exact ⟨by simp [Instr.wf], hop _ hn⟩

/-- A word selects no command exactly when its opcode is in the part of R78's list that does not depend on
HAS_HEXDUMP. -/
theorem instrOf_eq_none {w : Word} : instrOf w = none ↔ Machine.reservedOp true (opOf w).toNat := by
  have hlt := (opOf w).isLt
  rw [instrOf]
  split
  case h_40 =>
    simp only [imp_false, true_iff, Machine.reservedOp] at *
    lia
  all_goals
    next hn =>
    simp only [Machine.reservedOp, hn, reduceCtorEq, false_iff]
    decide

theorem Instr.needsHexDump_iff {i : Instr} :
    i.needsHexDump = true ↔ i.opcode.toNat = 0x1C ∨ i.opcode.toNat = 0x1D := by
  cases i <;> simp [Instr.needsHexDump, Instr.opcode]

/-! ### The decoder -/

theorem decode_of_none {w : Word} (hasHexDump : Bool) (h : instrOf w = none) :
    decode hasHexDump w = .reserved (opOf w) := by
  rw [decode, h]

/-- A command whose unit is absent is a reserved opcode (R10, R78). -/
theorem decode_of_absent {w : Word} {i : Instr} (h : instrOf w = some i) (hneeds : i.needsHexDump = true) :
    decode false w = .reserved (opOf w) := by
  simp [decode, h, hneeds]

/-- A command whose unit is present is selected (R81). -/
theorem decode_of_present {w : Word} {i : Instr} {hasHexDump : Bool} (h : instrOf w = some i)
    (hunit : i.needsHexDump = false ∨ hasHexDump = true) : decode hasHexDump w = .command i := by
  rcases hunit with hunit | hunit <;> simp [decode, h, hunit]

/-! ### Decode after encode -/

/-- The table gives a well-formed command back from its encoded word (R82). -/
theorem instrOf_encode {i : Instr} (hwf : i.wf = true) : instrOf (encode i) = some i := by
  obtain ⟨hop, halpha, hbo, huse, -⟩ := Laws.encode_shape i
  exact instrOf_of_fields hwf hop halpha hbo huse

/-- Settles O1: the encoder sets every field the table reads. -/
theorem decodeOfEncodeIsTheCommand : Obligations.DecodeOfEncodeIsTheCommand := by
  intro i hwf
  have hinstr := instrOf_encode hwf
  exact ⟨decode_of_present hinstr (.inr rfl), fun hunit => decode_of_present hinstr (.inl hunit)⟩

/-! ### The bits that count -/

/-- A field below bit 15 is the same in words that agree on bits [14:0]. -/
theorem extractLsb'_congr_low {w v : Word} (h : ∀ j, j < 15 → w.getLsbD j = v.getLsbD j) (start len : Nat)
    (hfit : start + len ≤ 15) : w.extractLsb' start len = v.extractLsb' start len := by
  apply BitVec.eq_of_getLsbD_eq
  intro j hj
  rw [BitVec.getLsbD_extractLsb', BitVec.getLsbD_extractLsb', h _ (by omega)]

/-- What a word decodes to is a function of its four fields (R70). -/
theorem decode_congr_fields {w v : Word} (hasHexDump : Bool) (hop : opOf w = opOf v)
    (halpha : w.extractLsb' 8 4 = v.extractLsb' 8 4) (hbo : w.extractLsb' 12 2 = v.extractLsb' 12 2)
    (huse : useOffOf w = useOffOf v) : decode hasHexDump w = decode hasHexDump v := by
  have halphaOf : alphaOf w = alphaOf v := by rw [alphaOf, alphaOf, halpha]
  have hboOf : boOf w = boOf v := by rw [boOf, boOf, hbo]
  have hinstr : instrOf w = instrOf v := by rw [instrOf, instrOf, hop, halphaOf, hboOf, huse]
  rw [decode, decode, hinstr, hop]

/-- Settles O3: all four fields lie below bit 15. -/
theorem decodeDependsOnlyOnTheLowFifteenBits : Obligations.DecodeDependsOnlyOnTheLowFifteenBits := by
  intro hasHexDump w v h
  have hfield := extractLsb'_congr_low h
  exact decode_congr_fields hasHexDump (hfield 0 8 (by decide)) (hfield 8 4 (by decide))
    (hfield 12 2 (by decide)) (h 14 (by decide))

/-! ### Reserved opcodes -/

/-- R78's list: the entries that are always reserved, and the two opcodes of the optional unit. -/
theorem reservedOp_iff {hasHexDump : Bool} {op : Nat} :
    Machine.reservedOp hasHexDump op ↔
      Machine.reservedOp true op ∨ (hasHexDump = false ∧ (op = 0x1C ∨ op = 0x1D)) := by
  simp only [Machine.reservedOp, or_assoc, Bool.true_eq_false, false_and, false_or]

/-- A word that selects a command of the table has a reserved opcode exactly when the command's unit is
absent (R10, R78). -/
theorem reservedOp_of_some {w : Word} {i : Instr} (h : instrOf w = some i) (hasHexDump : Bool) :
    Machine.reservedOp hasHexDump (opOf w).toNat ↔ hasHexDump = false ∧ i.needsHexDump = true := by
  have hlisted : ¬Machine.reservedOp true (opOf w).toNat := by simp [← instrOf_eq_none, h]
  rw [reservedOp_iff, Instr.needsHexDump_iff, (instrOf_eq_some h).2]
  exact or_iff_right hlisted

/-- Settles O4: the table has no entry for the opcodes that are always reserved, and the optional unit's commands
are the only others that can be. -/
theorem reservedOpcodesAreTheListedOnes : Obligations.ReservedOpcodesAreTheListedOnes := by
  intro hasHexDump w
  cases hi : instrOf w with
  | none =>
    have hres : Machine.reservedOp hasHexDump (opOf w).toNat := reservedOp_iff.mpr (.inl (instrOf_eq_none.mp hi))
    exact ⟨fun _ => decode_of_none hasHexDump hi, fun hn => absurd hres hn⟩
  | some i =>
    obtain ⟨hwf, hop⟩ := instrOf_eq_some hi
    rw [reservedOp_of_some hi]
    constructor
    · rintro ⟨rfl, hneeds⟩
      exact decode_of_absent hi hneeds
    · intro hpresent
      exact ⟨i, hwf, hop, decode_of_present hi (by grind)⟩

/-- Settles O2: the decoder runs on each word. -/
theorem decodeReadsTheSpecsCommandWords : Obligations.DecodeReadsTheSpecsCommandWords := by
  unfold Obligations.DecodeReadsTheSpecsCommandWords
  decide

end Sys2Proof

namespace Sys2Proof.Machine

/-! ### The step of a pending command -/

/-- The engine's turn at a command whose buffers lie in ordinary memory is the command (R103). -/
theorem engineStep_of_ordinary {s : State} {p : Snapshot} {i : Instr} (hp : s.pending = some p)
    (hd : decode s.cfg.hasHexDump p.word = .command i)
    (hb : ∀ b ∈ usedRanges i p,
      reachesKind s.cfg .sideEffecting b = false ∧ reachesKind s.cfg .unserved b = false) :
    engineStep s = exec i s := by
  rw [engineStep_of_command hp hd]
  exact guarded_of_ordinary (fun b hm => (hb b hm).1) (fun b hm => (hb b hm).2) _ _

/-- Settles O6: the engine's turn, before or after its entry is taken off the host's list. -/
theorem stepRunsThePendingCommand : Obligations.StepRunsThePendingCommand := by
  intro s p i hp hd hb
  have hbusy : s.busy = true := by rw [State.busy, hp, Option.isSome_some]
  refine ⟨fun h => ?_, fun rest h => ?_, fun rest h => ?_⟩
  · rw [step_of_engineNext (.inl h), State.tail_of_nil h, engineStep_of_ordinary hp hd hb]
  · rw [step_of_engineNext (.inr (h ▸ rfl)), ← State.tail_of_host h]
    exact engineStep_of_ordinary (s := s.tail) hp hd hb
  · rw [step_of_wait_busy (h ▸ rfl) hbusy, engineStep_of_ordinary hp hd hb]

/-! ### ALPHA values a command does not accept -/

theorem failedCleanly_fail (s : State) (st : Status) : FailedCleanly s (s.fail st) st 0 :=
  ⟨⟨rfl, rfl, rfl, rfl, rfl, rfl, rfl, rfl, rfl⟩, ⟨rfl, rfl⟩, rfl⟩

/-- A command whose argument has the wrong shape, after checks that pass, ends with InvalidArgument (R106). -/
theorem checked_of_bad_argument {onFail : Status → State} {before after : List (Bool × Status)} {e : Result}
    (h : ∀ c ∈ before, c.1 = false) :
    checked onFail (before ++ argumentCheck true :: after) e = .next (onFail .invalidArgument) := by
  apply checked_of_fail
  induction before with
  | nil => rfl
  | cons c before ih =>
    obtain ⟨failed, st⟩ := c
    obtain ⟨rfl, hbefore⟩ := List.forall_mem_cons.mp h
    exact ih hbefore

/-- Only the caller's table can be null (R107). -/
theorem Snapshot.alphabet_isNull {alpha : AlphaSel} (h : alpha ≠ .custom) (p : Snapshot) (size : Nat) :
    (p.alphabet alpha size).isNull = false := by
  simp [Snapshot.alphabet, Buf.isNull, h]

section
variable {r : Radix} {alpha : AlphaSel} {legal : Bool} {s : State} (hlegal : legal = false)
  (halpha : alpha ≠ .custom) (hsrc : (s.snap.src 1).isNull = false)
include hlegal halpha hsrc

theorem radixEncode_of_illegal (hdst : (s.snap.dst 1).isNull = false) :
    radixEncode r alpha legal s = .next (s.fail .invalidArgument) := by
  subst hlegal
  exact checked_of_bad_argument (before := [_, _, _]) (by simp [hsrc, hdst, Snapshot.alphabet_isNull halpha])

theorem radixCheckValid_of_illegal : radixCheckValid r alpha legal s = .next (s.fail .invalidArgument) := by
  subst hlegal
  exact checked_of_bad_argument (before := [_, _]) (by simp [hsrc, Snapshot.alphabet_isNull halpha])

theorem radixDecode_of_illegal (hdst : (s.snap.dst 1).isNull = false) (value : Byte → Option Nat)
    (length : List Byte → Option Nat) :
    radixDecode r alpha legal value length s = .next (s.fail .invalidArgument) := by
  subst hlegal
  exact checked_of_bad_argument (before := [_, _, _]) (by simp [hsrc, hdst, Snapshot.alphabet_isNull halpha])

end

theorem legalB32_eq_false {alpha : AlphaSel} :
    legalB32 alpha = false ↔ alpha = .b64Std ∨ alpha = .b64Url ∨ ∃ code, alpha = .reserved code := by
  cases alpha <;> simp [legalB32]

theorem legalB64_eq_false {alpha : AlphaSel} :
    legalB64 alpha = false ↔
      alpha = .b32Rfc4648 ∨ alpha = .b32Hex ∨ alpha = .b32Crockford ∨ ∃ code, alpha = .reserved code := by
  cases alpha <;> simp [legalB64]

/-- An ALPHA value that is not legal ends each of the six commands that read it (R77, R79). -/
theorem exec_of_illegal {i : Instr} {s : State} {alpha : AlphaSel} (hsrc : (srcRange i s.snap).isNull = false)
    (hdst : (dstRange i s.snap).isNull = false)
    (h : (i = .b32Encode alpha ∨ i = .b32Valid alpha ∨ i = .b32Decode alpha) ∧ legalB32 alpha = false ∨
      (i = .b64Encode alpha ∨ i = .b64Valid alpha ∨ i = .b64Decode alpha) ∧ legalB64 alpha = false) :
    exec i s = .next (s.fail .invalidArgument) := by
  have halpha : alpha ≠ .custom := by
    rintro rfl
    simp [legalB32, legalB64] at h
  rcases h with ⟨rfl | rfl | rfl, hlegal⟩ | ⟨rfl | rfl | rfl, hlegal⟩
  · exact radixEncode_of_illegal hlegal halpha hsrc hdst
  · exact radixCheckValid_of_illegal hlegal halpha hsrc
  · exact radixDecode_of_illegal hlegal halpha hsrc hdst _ _
  · exact radixEncode_of_illegal hlegal halpha hsrc hdst
  · exact radixCheckValid_of_illegal hlegal halpha hsrc
  · exact radixDecode_of_illegal hlegal halpha hsrc hdst _ _

/-- Settles O27: the legality check is the first after the null checks, which pass. -/
theorem illegalAlphabetIsInvalidArgument : Obligations.IllegalAlphabetIsInvalidArgument := by
  intro i s alpha hsrc hdst h
  rw [← legalB32_eq_false, ← legalB64_eq_false] at h
  exact ⟨_, exec_of_illegal hsrc hdst h, failedCleanly_fail s _⟩

end Sys2Proof.Machine

/-! PROOFS. The statements about all commands (40_common.md): what a command's outcome depends on, that every command
finishes, the order of the checks, the length commands, NOP and reserved opcodes, and the engine's turn. -/

namespace Sys2Proof.Machine

/-! ### What a command reads -/

/-- Writing the same bytes at the same address in two memories: each byte reads the same in both afterwards, or
reads in both as before. -/
theorem Memory.read_writeBytes_alike {m m' : Memory} (hm : m.wf = true) (hm' : m'.wf = true) (a c : Nat)
    (bs : List Byte) :
    (m.writeBytes a bs).read c = (m'.writeBytes a bs).read c ∨
      ((m.writeBytes a bs).read c = m.read c ∧ (m'.writeBytes a bs).read c = m'.read c) := by
  induction bs generalizing m m' a with
  | nil => exact .inr ⟨rfl, rfl⟩
  | cons b bs ih =>
    rcases ih (Memory.write_wf hm a b) (Memory.write_wf hm' a b) (a + 1) with heq | ⟨hkept, hkept'⟩
    · exact .inl heq
    · simp only [Memory.writeBytes, hkept, hkept']
      by_cases hac : a = c
      · subst hac
        by_cases ha : a < memSize
        · exact .inl (by rw [Memory.read_write_same hm ha, Memory.read_write_same hm' ha])
        · exact .inr (by simp [Memory.write, ha])
      · exact .inr ⟨Memory.read_write_other _ hac b, Memory.read_write_other _ hac b⟩

/-- Two states that agree on what R105 lets the command `i` depend on. -/
structure ReadsAlike (i : Instr) (s s' : State) : Prop where
  snap : s.snap = s'.snap
  cfg : s.cfg = s'.cfg
  reads : ∀ a, (srcRange i s.snap).has a = true ∨
    (s.snap.alphabet (alphaSel i) (alphaSize i)).has a = true → s.mem.read a = s'.mem.read a

section
variable {i : Instr} {s s' : State} (h : ReadsAlike i s s')
include h

/-- Bytes inside the source are read alike (R58). -/
theorem ReadsAlike.readBytes_src {start count : Nat} (hfit : start + count ≤ s.snap.n * srcSize i) :
    s.mem.readBytes (s.snap.regs.srcAddr.toNat + start) count =
      s'.mem.readBytes (s'.snap.regs.srcAddr.toNat + start) count := by
  rw [← h.snap]
  refine Memory.readBytes_congr fun c hlo hhi => h.reads c (.inl (Buf.has_iff.mpr ?_))
  simp only [srcRange, Snapshot.src]
  simp only [Snapshot.n] at hfit
  omega

theorem ReadsAlike.srcBytes (hi : srcSize i = 1) : s.srcBytes = s'.srcBytes := by
  rw [State.srcBytes, State.srcBytes, ← h.snap]
  simpa [h.snap] using h.readBytes_src (start := 0) (count := s.snap.n) (by simp [hi])

theorem ReadsAlike.srcElems {esz : Nat} (hi : srcSize i = esz) : s.srcElems esz = s'.srcElems esz := by
  rw [State.srcElems, State.srcElems, State.readElems, State.readElems, ← h.cfg, ← h.snap]
  refine List.map_congr_left fun k hk => congrArg _ ?_
  have hfit : k * esz + esz ≤ s.snap.n * srcSize i := by
    rw [hi, ← Nat.succ_mul]
    exact Nat.mul_le_mul_right _ (List.mem_range.mp hk)
  simpa only [h.snap] using h.readBytes_src hfit

/-- With some input, the caller's table is read alike; every other table is a constant (R58, R107). -/
theorem ReadsAlike.table (hn : 0 < s.snap.n) :
    s.table (alphaSel i) (alphaSize i) = s'.table (alphaSel i) (alphaSize i) := by
  rw [State.table, State.table]
  split
  · next hsel =>
    rw [← h.snap]
    refine Memory.readBytes_congr fun c hlo hhi => h.reads c (.inr (Buf.has_iff.mpr ?_))
    simp only [Snapshot.alphabet, hsel, hn, and_self, if_true]
    exact ⟨hlo, hhi⟩
  · rfl

end

/-! ### Outcomes that are the same -/

/-- The outcomes of the states `s` and `s'` are the same fault, or the same finish after the same bytes written at
the destination, with the same OFFSET if it was advanced (R105). -/
inductive SameOutcome (s s' : State) : Result → Result → Prop
  | put (bs : List Byte) (st : Status) (r r2 : Nat) :
    SameOutcome s s' (.next ((s.putDst bs).finish st r r2)) (.next ((s'.putDst bs).finish st r r2))
  | dumped (bs : List Byte) (v : Nat) :
    SameOutcome s s' (.next (((s.putDst bs).setOffset v).finish .ok 0 0))
      (.next (((s'.putDst bs).setOffset v).finish .ok 0 0))
  | fault (f : Fault) : SameOutcome s s' (.fault f) (.fault f)

section
variable {s s' : State}

theorem SameOutcome.finish (st : Status) (r r2 : Nat) :
    SameOutcome s s' (.next (s.finish st r r2)) (.next (s'.finish st r r2)) := .put [] st r r2

/-- Two runs of a command that make the same checks, and whose executions agree where all checks pass (R106). -/
theorem SameOutcome.checked {r : Nat} {cs : List (Bool × Status)} {e e' : Result}
    (h : firstFailure cs = none → SameOutcome s s' e e') :
    SameOutcome s s' (checked (s.finish · r 0) cs e) (checked (s'.finish · r 0) cs e') := by
  cases hf : firstFailure cs with
  | none =>
    rw [checked_of_pass hf, checked_of_pass hf]
    exact h hf
  | some st =>
    rw [checked_of_fail hf, checked_of_fail hf]
    exact .finish st r 0

end

section
variable {i : Instr} {s s' : State} (h : ReadsAlike i s s')
include h

/-- What a command computes from its table and its text is the same in both states, if an empty text needs no
table: the caller's table counts only when there is input (R107). -/
theorem ReadsAlike.of_table (hi : srcSize i = 1) {α : Type} (f : List Byte → List Byte → α)
    (hnil : ∀ table table', f table [] = f table' []) :
    f (s.table (alphaSel i) (alphaSize i)) s.srcBytes = f (s'.table (alphaSel i) (alphaSize i)) s'.srcBytes := by
  rcases Nat.eq_zero_or_pos s.snap.n with hn | hn
  · have hempty : s.srcBytes = [] := List.eq_nil_of_length_eq_zero (s.length_srcBytes.trans hn)
    rw [← h.srcBytes hi, hempty]
    exact hnil _ _
  · rw [h.table hn, h.srcBytes hi]

end

section
variable {r : Radix} {alpha : AlphaSel} {legal : Bool} {s s' : State} (hsnap : s.snap = s'.snap)
include hsnap

theorem radixEncode_sameOutcome
    (htext : encodeText r (s.table alpha (2 ^ r.bits)) s.srcBytes =
      encodeText r (s'.table alpha (2 ^ r.bits)) s'.srcBytes) :
    SameOutcome s s' (radixEncode r alpha legal s) (radixEncode r alpha legal s') := by
  rw [radixEncode, radixEncode, hsnap, htext]
  exact .checked fun _ => .put _ _ _ _

theorem radixCheckValid_sameOutcome
    (hvalid : radixValid r (s.table alpha (2 ^ r.bits)) s.srcBytes =
      radixValid r (s'.table alpha (2 ^ r.bits)) s'.srcBytes) :
    SameOutcome s s' (radixCheckValid r alpha legal s) (radixCheckValid r alpha legal s') := by
  rw [radixCheckValid, radixCheckValid, hsnap, hvalid]
  exact .checked fun _ => .finish _ _ _

variable {length : List Byte → Option Nat} (hsrc : s.srcBytes = s'.srcBytes)
include hsrc

theorem radixDecodedLength_sameOutcome :
    SameOutcome s s' (radixDecodedLength length s) (radixDecodedLength length s') := by
  rw [radixDecodedLength, radixDecodedLength, hsnap, hsrc]
  exact .checked fun _ => .finish _ _ _

theorem radixDecode_sameOutcome {value value' : Byte → Option Nat}
    (hout : ∀ need, decodeText r value s.srcBytes need = decodeText r value' s'.srcBytes need) :
    SameOutcome s s' (radixDecode r alpha legal value length s) (radixDecode r alpha legal value' length s') := by
  rw [radixDecode, radixDecode, hsnap, hout, hsrc]
  refine .checked fun _ => ?_
  split
  · exact .finish _ _ _
  · split
    · exact .fault _
    · exact .put _ _ _ _

theorem execHexDecode_sameOutcome : SameOutcome s s' (execHexDecode s) (execHexDecode s') := by
  rw [execHexDecode, execHexDecode, hsnap, hsrc]
  refine .checked fun _ => ?_
  split
  · exact .fault _
  · exact .put _ _ _ _

theorem execHexDump_sameOutcome (useOff : Bool) :
    SameOutcome s s' (execHexDump useOff s) (execHexDump useOff s') := by
  rw [execHexDump, execHexDump, hsnap, hsrc]
  refine .checked fun _ => ?_
  cases useOff with
  | false => exact .put _ _ _ _
  | true => exact .dumped _ _

theorem execU8Decode_sameOutcome (hcfg : s.cfg = s'.cfg) :
    SameOutcome s s' (execU8Decode s) (execU8Decode s') := by
  rw [execU8Decode, execU8Decode, State.zeroDst, State.zeroDst, State.putElems, State.putElems, hsnap, hsrc, hcfg]
  refine .checked fun _ => ?_
  split
  · exact .put _ _ _ _
  · split
    · exact .put _ _ _ _
    · exact .put _ _ _ _

end

theorem encodeInt_sameOutcome {s s' : State} (hsnap : s.snap = s'.snap) (n : Nat) (bo : BoTag) :
    SameOutcome s s' (encodeInt n bo s) (encodeInt n bo s') := by
  rw [encodeInt, encodeInt, hsnap]
  exact .checked fun _ => .put _ _ _ _

/-- DEC_UN reads its `n` bytes only once the source is known to hold them (R137 to R139). -/
theorem decodeInt_sameOutcome {i : Instr} {s s' : State} (h : ReadsAlike i s s') (hi : srcSize i = 1) (n : Nat)
    (bo : BoTag) : SameOutcome s s' (decodeInt n bo s) (decodeInt n bo s') := by
  rw [decodeInt, decodeInt, h.snap]
  refine .checked fun hpass => ?_
  have hfit : n ≤ s'.snap.n := by
    simpa using firstFailure_eq_none.mp hpass (capacityCheck s'.snap.n n) (by simp)
  have hread := h.readBytes_src (start := 0) (count := n) (by rw [hi, h.snap]; omega)
  rw [Nat.add_zero, Nat.add_zero, h.snap] at hread
  rw [hread]
  exact .finish _ _ _

/-- R105 for every command, by how it reads and what it writes. -/
theorem exec_sameOutcome {i : Instr} {s s' : State} (h : ReadsAlike i s s')
    (hdeclen : i = .hexDeclen → s.snap.n % 2 = 0) : SameOutcome s s' (exec i s) (exec i s') := by
  have hsnap := h.snap
  have hcfg := h.cfg
  cases i with
  | nop => exact .finish _ _ _
  | hexDeclen =>
    have heven : s'.snap.n % 2 = 0 := hsnap ▸ hdeclen rfl
    simp only [exec, execHexDeclen, hsnap, heven, if_true]
    exact .finish _ _ _
  | hexEnclen | hexDumplen | b32Enclen | b64Enclen | u8Cpsize =>
    simp only [exec, execHexEnclen, execHexDumplen, execB32Enclen, execB64Enclen, execU8Cpsize, hsnap]
    exact .checked fun _ => .finish _ _ _
  | hexValid | u8Valid | u8Declen | u8Cpdec =>
    simp only [exec, execHexValid, execU8Valid, execU8Declen, execU8Cpdec, hsnap, h.srcBytes rfl]
    exact .checked fun _ => .finish _ _ _
  | u8Enclen | u16Enclen =>
    simp only [exec, execU8Enclen, execU16Enclen, hsnap, h.srcElems (esz := 4) rfl]
    exact .checked fun _ => .finish _ _ _
  | u16Valid | u16Declen | u16Cpdec =>
    simp only [exec, execU16Valid, execU16Declen, execU16Cpdec, hsnap, h.srcElems (esz := 2) rfl]
    exact .checked fun _ => .finish _ _ _
  | hexEncode =>
    simp only [exec, execHexEncode, hsnap, hcfg, h.srcBytes rfl]
    exact .checked fun _ => .put _ _ _ _
  | u8Cpenc | u16Cpenc =>
    simp only [exec, execU8Cpenc, execU16Cpenc, State.putElems, hsnap, hcfg]
    exact .checked fun _ => .put _ _ _ _
  | u8Encode | u16Encode =>
    simp only [exec, execU8Encode, execU16Encode, State.putElems, hsnap, hcfg, h.srcElems (esz := 4) rfl]
    exact .checked fun _ => .put _ _ _ _
  | u16Decode =>
    simp only [exec, execU16Decode, State.putElems, hsnap, hcfg, h.srcElems (esz := 2) rfl]
    exact .checked fun _ => .put _ _ _ _
  | hexDecode => exact execHexDecode_sameOutcome hsnap (h.srcBytes rfl)
  | hexDump useOff => exact execHexDump_sameOutcome hsnap (h.srcBytes rfl) useOff
  | u8Decode => exact execU8Decode_sameOutcome hsnap (h.srcBytes rfl) hcfg
  | b32Encode alpha => exact radixEncode_sameOutcome hsnap (h.of_table rfl (encodeText base32) fun _ _ => rfl)
  | b64Encode alpha => exact radixEncode_sameOutcome hsnap (h.of_table rfl (encodeText base64) fun _ _ => rfl)
  | b32Valid alpha => exact radixCheckValid_sameOutcome hsnap (h.of_table rfl (radixValid base32) fun _ _ => rfl)
  | b64Valid alpha => exact radixCheckValid_sameOutcome hsnap (h.of_table rfl (radixValid base64) fun _ _ => rfl)
  | b32Declen | b64Declen => exact radixDecodedLength_sameOutcome hsnap (h.srcBytes rfl)
  | b32Decode alpha =>
    exact radixDecode_sameOutcome hsnap (h.srcBytes rfl) fun need =>
      h.of_table rfl (fun table t => decodeText base32 (b32Value alpha table) t need) fun _ _ => rfl
  | b64Decode alpha =>
    exact radixDecode_sameOutcome hsnap (h.srcBytes rfl) fun need =>
      h.of_table rfl (fun table t => decodeText base64 (symbolValue table) t need) fun _ _ => rfl
  | encU16 bo | encU32 bo | encU64 bo => exact encodeInt_sameOutcome hsnap _ bo
  | decU16 bo | decU32 bo | decU64 bo => exact decodeInt_sameOutcome h rfl _ bo

/-- The same bytes written at the same destination leave each byte alike in both states, or as it was. -/
theorem putDst_read_alike {s s' : State} (hsnap : s.snap = s'.snap) (hm : s.mem.wf = true) (hm' : s'.mem.wf = true)
    (bs : List Byte) (a : Nat) :
    (s.putDst bs).mem.read a = (s'.putDst bs).mem.read a ∨
      ((s.putDst bs).mem.read a = s.mem.read a ∧ (s'.putDst bs).mem.read a = s'.mem.read a) := by
  rw [State.putDst_mem, State.putDst_mem, ← hsnap]
  exact Memory.read_writeBytes_alike hm hm' _ a bs

/-- Settles O24: the two outcomes are the same fault, or the same finish after the same bytes written. -/
theorem outcomeDependsOnlyOnReadRanges : Obligations.OutcomeDependsOnlyOnReadRanges := by
  intro i s s' hsnap hcfg hregs hm hm' hreads hdeclen
  have hmem := putDst_read_alike hsnap hm hm'
  have hsame := exec_sameOutcome ⟨hsnap, hcfg, hreads⟩ hdeclen
  generalize exec i s = o at hsame ⊢
  generalize exec i s' = o' at hsame ⊢
  cases hsame with
  | put bs st r r2 =>
    refine ⟨?_, fun f hf => nomatch hf⟩
    rintro t ⟨⟩
    exact ⟨_, rfl, rfl, rfl, rfl, hregs.symm, hmem bs⟩
  | dumped bs v =>
    refine ⟨?_, fun f hf => nomatch hf⟩
    rintro t ⟨⟩
    refine ⟨_, rfl, rfl, rfl, rfl, ?_, hmem bs⟩
    simp [hregs]
  | fault f => exact ⟨fun t ht => (nomatch ht), fun f hf => hf⟩

/-! ### The order of the checks -/

/-- Checks that pass do not count (R106). -/
theorem firstFailure_append_of_pass {before : List (Bool × Status)} (h : ∀ c ∈ before, c.1 = false)
    (after : List (Bool × Status)) : firstFailure (before ++ after) = firstFailure after := by
  induction before with
  | nil => rfl
  | cons c before ih =>
    obtain ⟨failed, st⟩ := c
    obtain ⟨rfl, hbefore⟩ := List.forall_mem_cons.mp h
    exact ih hbefore

/-- A phase whose checks share one status ends the command with it if one of them fails (R106). -/
theorem firstFailure_append_of_fail {phase : List (Bool × Status)} {st : Status} (hst : ∀ c ∈ phase, c.2 = st)
    (h : ∃ c ∈ phase, c.1 = true) (after : List (Bool × Status)) :
    firstFailure (phase ++ after) = some st := by
  induction phase with
  | nil => simp at h
  | cons c phase ih =>
    obtain ⟨failed, st'⟩ := c
    obtain ⟨rfl, hphase⟩ := List.forall_mem_cons.mp hst
    cases failed with
    | true => rfl
    | false => exact ih hphase (by simpa using h)

/-- The alphabet in use by the running command (R107). -/
abbrev alphabetOf (i : Instr) (p : Snapshot) : Buf := p.alphabet (alphaSel i) (alphaSize i)

/-- A buffer of the command is null (R107). -/
def NullBuffer (i : Instr) (p : Snapshot) : Prop := ∃ b ∈ usedRanges i p, b.isNull = true

/-- A buffer of the command does not fit in memory, or the destination shares a byte with the source or the alphabet
(R108, R109). -/
def BadBuffer (i : Instr) (p : Snapshot) : Prop :=
  (∃ b ∈ usedRanges i p, b.outOfRange = true) ∨
    ∃ b ∈ [srcRange i p, alphabetOf i p], (dstRange i p).overlaps b = true

/-- RESULT of a command that fails (R112). -/
def failResult (i : Instr) : Nat := if i = .u8Cpdec ∨ i = .u16Cpdec then 0xFFFD else 0

/-- `nulls` are the command's null checks, and `args` checks of phase 2 that its buffers cannot pass if one does not
fit or overlaps the destination (R106 to R109). -/
structure Phases (i : Instr) (p : Snapshot) (nulls args : List (Bool × Status)) : Prop where
  null_status : ∀ c ∈ nulls, c.2 = .invalidNullPointer
  null_fails : NullBuffer i p → ∃ c ∈ nulls, c.1 = true
  null_passes : ¬NullBuffer i p → BadBuffer i p → ∀ c ∈ nulls, c.1 = false
  arg_status : ∀ c ∈ args, c.2 = .invalidArgument
  arg_fails : BadBuffer i p → ∃ c ∈ args, c.1 = true

theorem Buf.isNull_pos {b : Buf} (h : b.isNull = true) : 0 < b.size ∧ b.addr = 0 := by
  simpa [Buf.isNull] using h

theorem Buf.outOfRange_pos {b : Buf} (h : b.outOfRange = true) : 0 < b.size := by
  simp only [Buf.outOfRange, Bool.and_eq_true, decide_eq_true_eq] at h
  exact h.1

theorem Buf.overlaps_pos {b c : Buf} (h : b.overlaps c = true) : 0 < b.size ∧ 0 < c.size := by
  simp only [Buf.overlaps, Bool.and_eq_true, decide_eq_true_eq] at h
  exact h.1.1

/-- A command that checks its nonempty buffers one by one has these phases. -/
theorem Phases.of_buffers {i : Instr} {p : Snapshot} {nulls args : List (Bool × Status)}
    (hnull : ∀ c ∈ nulls, ∃ b ∈ usedRanges i p, c = nullCheck b)
    (hnulls : ∀ b ∈ usedRanges i p, b.size = 0 ∨ nullCheck b ∈ nulls)
    (hargs : ∀ c ∈ args, c.2 = .invalidArgument)
    (hranges : ∀ b ∈ usedRanges i p, b.size = 0 ∨ rangeCheck b ∈ args)
    (hoverlaps : ∀ b ∈ [srcRange i p, alphabetOf i p],
      (dstRange i p).size = 0 ∨ b.size = 0 ∨ overlapCheck (dstRange i p) b ∈ args) :
    Phases i p nulls args where
  null_status c hc := by
    obtain ⟨b, -, rfl⟩ := hnull c hc
    rfl
  null_fails := by
    rintro ⟨b, hb, hbad⟩
    exact ⟨_, (hnulls b hb).resolve_left (Buf.isNull_pos hbad).1.ne', hbad⟩
  null_passes hno _ c hc := by
    obtain ⟨b, hb, rfl⟩ := hnull c hc
    exact Bool.eq_false_iff.mpr fun hbad => hno ⟨b, hb, hbad⟩
  arg_status := hargs
  arg_fails := by
    rintro (⟨b, hb, hbad⟩ | ⟨b, hb, hbad⟩)
    · exact ⟨_, (hranges b hb).resolve_left (Buf.outOfRange_pos hbad).ne', hbad⟩
    · obtain ⟨hdst, hpos⟩ := Buf.overlaps_pos hbad
      exact ⟨_, ((hoverlaps b hb).resolve_left hdst.ne').resolve_left hpos.ne', hbad⟩

@[simp] theorem size_srcRange (i : Instr) (p : Snapshot) : (srcRange i p).size = p.n * srcSize i := rfl

@[simp] theorem size_dstRange (i : Instr) (p : Snapshot) : (dstRange i p).size = p.capacity * dstSize i := rfl

theorem size_alphabetOf {i : Instr} (h : alphaSize i = 0) (p : Snapshot) : (alphabetOf i p).size = 0 := by
  simp [Snapshot.alphabet, h]

section
variable {i : Instr} {p : Snapshot}

theorem phases_none (hs : srcSize i = 0) (hd : dstSize i = 0) (ha : alphaSize i = 0) : Phases i p [] [] := by
  apply Phases.of_buffers <;> simp [usedRanges, hs, hd, size_alphabetOf ha]

theorem phases_src (hd : dstSize i = 0) (ha : alphaSize i = 0) :
    Phases i p [nullCheck (srcRange i p)] [rangeCheck (srcRange i p)] := by
  apply Phases.of_buffers <;> simp [usedRanges, hd, size_alphabetOf ha]

theorem phases_dst (hs : srcSize i = 0) (ha : alphaSize i = 0) :
    Phases i p [nullCheck (dstRange i p)] [rangeCheck (dstRange i p)] := by
  apply Phases.of_buffers <;> simp [usedRanges, hs, size_alphabetOf ha]

theorem phases_srcDst (ha : alphaSize i = 0) :
    Phases i p [nullCheck (srcRange i p), nullCheck (dstRange i p)]
      [rangeCheck (srcRange i p), rangeCheck (dstRange i p), overlapCheck (dstRange i p) (srcRange i p)] := by
  apply Phases.of_buffers <;> simp [usedRanges, size_alphabetOf ha]

theorem phases_srcAlphabet (hd : dstSize i = 0) (bad : Bool) :
    Phases i p [nullCheck (srcRange i p), nullCheck (alphabetOf i p)]
      [argumentCheck bad, rangeCheck (srcRange i p), rangeCheck (alphabetOf i p)] := by
  apply Phases.of_buffers <;> simp [usedRanges, hd]

theorem phases_srcDstAlphabet (bad : Bool) :
    Phases i p [nullCheck (srcRange i p), nullCheck (dstRange i p), nullCheck (alphabetOf i p)]
      [argumentCheck bad, rangeCheck (srcRange i p), rangeCheck (dstRange i p), rangeCheck (alphabetOf i p),
        overlapCheck (dstRange i p) (srcRange i p), overlapCheck (dstRange i p) (alphabetOf i p)] := by
  apply Phases.of_buffers <;> simp [usedRanges]

/-- With `b` its only nonempty buffer, a command has no overlap to meet. -/
theorem BadBuffer.outOfRange {b : Buf} (honly : ∀ c ∈ usedRanges i p, c.size = 0 ∨ c = b)
    (halone : (dstRange i p).size = 0 ∨ ∀ c ∈ [srcRange i p, alphabetOf i p], c.size = 0) (h : BadBuffer i p) :
    b ∈ usedRanges i p ∧ b.outOfRange = true := by
  rcases h with ⟨c, hc, hbad⟩ | ⟨c, hc, hbad⟩
  · obtain rfl := (honly c hc).resolve_left (Buf.outOfRange_pos hbad).ne'
    exact ⟨hc, hbad⟩
  · obtain ⟨hdst, hpos⟩ := Buf.overlaps_pos hbad
    exact absurd (halone.resolve_left hdst.ne' c hc) hpos.ne'

/-- The endian commands have one buffer, and its address may not be 0 even when it is empty (R133). -/
theorem phases_endian {addr : Word} {b : Buf} (haddr : b.addr = addr.toNat)
    (honly : ∀ c ∈ usedRanges i p, c.size = 0 ∨ c = b)
    (halone : (dstRange i p).size = 0 ∨ ∀ c ∈ [srcRange i p, alphabetOf i p], c.size = 0) (bad : Bool) :
    Phases i p [endianNullCheck addr] [argumentCheck bad, rangeCheck b] where
  null_status := List.forall_mem_singleton.mpr rfl
  null_fails := by
    rintro ⟨c, hc, hnull⟩
    obtain ⟨hpos, hzero⟩ := Buf.isNull_pos hnull
    obtain rfl := (honly c hc).resolve_left hpos.ne'
    exact ⟨_, List.mem_cons_self, decide_eq_true (haddr.symm.trans hzero)⟩
  null_passes hno hbad := by
    obtain ⟨hb, hrange⟩ := hbad.outOfRange honly halone
    refine List.forall_mem_singleton.mpr (decide_eq_false fun hzero => hno ⟨b, hb, ?_⟩)
    simp [Buf.isNull, haddr, hzero, Buf.outOfRange_pos hrange]
  arg_status := by simp
  arg_fails hbad := ⟨rangeCheck b, by simp, (hbad.outOfRange honly halone).2⟩

theorem phases_encodeInt (hs : srcSize i = 0) (ha : alphaSize i = 0) (bad : Bool) :
    Phases i p [endianNullCheck p.regs.dstAddr] [argumentCheck bad, rangeCheck (dstRange i p)] := by
  refine phases_endian rfl ?_ ?_ bad <;> simp [usedRanges, hs, size_alphabetOf ha]

theorem phases_decodeInt (hd : dstSize i = 0) (ha : alphaSize i = 0) (bad : Bool) :
    Phases i p [endianNullCheck p.regs.srcAddr] [argumentCheck bad, rangeCheck (srcRange i p)] := by
  refine phases_endian rfl ?_ ?_ bad <;> simp [usedRanges, hd, size_alphabetOf ha]

end

/-- Every command checks its buffers' addresses first, then their ranges and overlaps among its checks for
InvalidArgument (R106). -/
theorem exec_phases (i : Instr) (s : State) :
    ∃ nulls args rest e, exec i s = checked (s.finish · (failResult i) 0) (nulls ++ (args ++ rest)) e ∧
      Phases i s.snap nulls args := by
  cases i with
  | nop => exact ⟨[], [], [], _, rfl, phases_none rfl rfl rfl⟩
  | hexDeclen => exact ⟨[], [], [], execHexDeclen s, rfl, phases_none rfl rfl rfl⟩
  | hexEnclen | hexDumplen | b32Enclen | b64Enclen | u8Cpsize =>
    exact ⟨[], [], _, _, rfl, phases_none rfl rfl rfl⟩
  | hexValid | b32Declen | b64Declen | u8Enclen | u8Valid | u8Declen | u8Cpdec | u16Enclen | u16Valid | u16Declen
  | u16Cpdec =>
    exact ⟨[_], [_], _, _, rfl, phases_src rfl rfl⟩
  | u8Cpenc | u16Cpenc => exact ⟨[_], [_], _, _, rfl, phases_dst rfl rfl⟩
  | hexEncode | hexDecode | hexDump useOff | u8Encode | u8Decode | u16Encode | u16Decode =>
    exact ⟨[_, _], [_, _, _], _, _, rfl, phases_srcDst rfl⟩
  | b32Valid alpha | b64Valid alpha => exact ⟨[_, _], [_, _, _], _, _, rfl, phases_srcAlphabet rfl _⟩
  | b32Encode alpha | b64Encode alpha | b32Decode alpha | b64Decode alpha =>
    exact ⟨[_, _, _], [_, _, _, _, _, _], _, _, rfl, phases_srcDstAlphabet _⟩
  | encU16 bo | encU32 bo | encU64 bo => exact ⟨[_], [_, _], _, _, rfl, phases_encodeInt rfl rfl _⟩
  | decU16 bo | decU32 bo | decU64 bo => exact ⟨[_], [_, _], _, _, rfl, phases_decodeInt rfl rfl _⟩

theorem finished_finish (s : State) (st : Status) (r r2 : Nat) : Finished s (s.finish st r r2) st r r2 :=
  ⟨rfl, rfl, rfl, rfl, rfl, rfl, rfl, rfl, rfl⟩

theorem failedCleanly_finish (s : State) (st : Status) (r : Nat) : FailedCleanly s (s.finish st r 0) st r :=
  ⟨finished_finish s _ _ _, ⟨rfl, rfl⟩, rfl⟩

theorem exec_of_nullBuffer {i : Instr} {s : State} (h : NullBuffer i s.snap) :
    exec i s = .next (s.finish .invalidNullPointer (failResult i) 0) := by
  obtain ⟨nulls, args, rest, e, he, hp⟩ := exec_phases i s
  rw [he]
  exact checked_of_fail (firstFailure_append_of_fail hp.null_status (hp.null_fails h) _)

theorem exec_of_badBuffer {i : Instr} {s : State} (hno : ¬NullBuffer i s.snap) (h : BadBuffer i s.snap) :
    exec i s = .next (s.finish .invalidArgument (failResult i) 0) := by
  obtain ⟨nulls, args, rest, e, he, hp⟩ := exec_phases i s
  rw [he]
  apply checked_of_fail
  rw [firstFailure_append_of_pass (hp.null_passes hno h)]
  exact firstFailure_append_of_fail hp.arg_status (hp.arg_fails h) rest

/-- Settles O25: a null check is among the first phase's, whose checks all have the one status. -/
theorem nullBufferFailsFirst : Obligations.NullBufferFailsFirst := by
  intro i s h
  have hnull : NullBuffer i s.snap := by simpa [NullBuffer, usedRanges] using h
  exact ⟨_, exec_of_nullBuffer hnull, failedCleanly_finish s _ _⟩

/-- Settles O26: the null checks pass, and a range or overlap check of phase 2 fails. -/
theorem badRangeOrOverlapIsInvalidArgument : Obligations.BadRangeOrOverlapIsInvalidArgument := by
  intro i s hsrc hdst halpha h
  have hno : ¬NullBuffer i s.snap := by simp [NullBuffer, usedRanges, hsrc, hdst, halpha]
  have hbad : BadBuffer i s.snap := by
    simp only [BadBuffer, usedRanges, List.mem_cons, List.not_mem_nil, or_false, exists_eq_or_imp, exists_eq_left,
      Buf.overlaps_iff]
    simpa only [or_assoc, and_or_left, exists_or] using h
  exact ⟨_, exec_of_badBuffer hno hbad, failedCleanly_finish s _ _⟩

/-! ### Failures of base32 and base64 after the buffers' checks -/

/-- The checks that encode and decode make of a legal ALPHA and of their buffers (R178, R181, R208, R211). -/
def legalBufferChecks (i : Instr) (p : Snapshot) : List (Bool × Status) :=
  [nullCheck (srcRange i p), nullCheck (dstRange i p), nullCheck (alphabetOf i p), argumentCheck false,
    rangeCheck (srcRange i p), rangeCheck (dstRange i p), rangeCheck (alphabetOf i p),
    overlapCheck (dstRange i p) (srcRange i p), overlapCheck (dstRange i p) (alphabetOf i p)]

theorem checked_of_buffersPass {i : Instr} {p : Snapshot} (hb : BuffersPass i p) {onFail : Status → State}
    (rest : List (Bool × Status)) (e : Result) :
    checked onFail (legalBufferChecks i p ++ rest) e = checked onFail rest e := by
  obtain ⟨hsrc, hdst, halpha, hsrc', hdst', halpha', hover, hover'⟩ := hb
  rw [checked, checked, firstFailure_append_of_pass]
  simp [legalBufferChecks, hsrc, hdst, halpha, hsrc', hdst', halpha', hover, hover']

/-- `enc` checks its buffers, then that the encoded length `len` can be stored and fits (R110, R111). -/
def EncodeChecks (enc : Instr) (s : State) (len : Nat) : Prop :=
  ∃ e, exec enc s =
    checked s.fail (legalBufferChecks enc s.snap ++ [overflowCheck len, capacityCheck s.snap.capacity len]) e

/-- `dec` checks its buffers, then that its text has a decoded length and that this fits (R111, R181, R211). -/
def DecodeChecks (dec : Instr) (s : State) (decLen : Option Nat) : Prop :=
  ∃ partBlock e, (decLen.isSome = true → partBlock = false) ∧
    exec dec s = checked s.fail (legalBufferChecks dec s.snap ++ [argumentCheck partBlock,
      argumentCheck decLen.isNone, capacityCheck s.snap.capacity (decLen.getD 0)]) e

section
variable {s : State} {enc dec : Instr} {len need : Nat} {decLen : Option Nat}

theorem EncodeChecks.of_overflow (h : EncodeChecks enc s len) (hb : BuffersPass enc s.snap) (hlen : 2 ^ 64 ≤ len) :
    exec enc s = .next (s.fail .invalidArgument) := by
  obtain ⟨e, he⟩ := h
  rw [he, checked_of_buffersPass hb]
  exact checked_of_fail (by simp [overflowCheck, hlen])

theorem EncodeChecks.of_small (h : EncodeChecks enc s len) (hb : BuffersPass enc s.snap) (hlen : len < 2 ^ 64)
    (hcap : s.snap.capacity < len) : exec enc s = .next (s.fail .bufferTooSmall) := by
  obtain ⟨e, he⟩ := h
  rw [he, checked_of_buffersPass hb]
  exact checked_of_fail (by simp [overflowCheck, capacityCheck, hlen, hcap])

theorem DecodeChecks.of_shape (h : DecodeChecks dec s none) (hb : BuffersPass dec s.snap) :
    exec dec s = .next (s.fail .invalidArgument) := by
  obtain ⟨partBlock, e, -, he⟩ := h
  rw [he, checked_of_buffersPass hb]
  exact checked_of_fail (by simp [argumentCheck])

theorem DecodeChecks.of_small (h : DecodeChecks dec s (some need)) (hb : BuffersPass dec s.snap)
    (hcap : s.snap.capacity < need) : exec dec s = .next (s.fail .bufferTooSmall) := by
  obtain ⟨partBlock, e, hpart, he⟩ := h
  rw [he, checked_of_buffersPass hb, hpart rfl]
  exact checked_of_fail (by simp [argumentCheck, capacityCheck, hcap])

end

/-- A text with a decoded length is a whole number of blocks (R175). -/
theorem length_mod_of_decodedLength32 {t : List Byte} (h : (decodedLength32 t).isSome = true) : t.length % 8 = 0 := by
  rw [decodedLength32] at h
  by_cases h0 : t.length = 0
  · rw [h0]
  · by_contra hmod
    simp [h0, hmod] at h

/-- A text with a decoded length is a whole number of blocks (R204). -/
theorem length_mod_of_decodedLength64 {t : List Byte} (h : (decodedLength64 t).isSome = true) : t.length % 4 = 0 := by
  rw [decodedLength64] at h
  by_cases h0 : t.length = 0
  · rw [h0]
  · by_contra hmod
    simp [h0, hmod] at h

theorem encodeChecks_b32 {alpha : AlphaSel} (hlegal : legalB32 alpha = true) (s : State) :
    EncodeChecks (.b32Encode alpha) s (8 * ((s.snap.n + 4) / 5)) := by
  simp only [EncodeChecks, exec, execB32Encode, hlegal]
  exact ⟨_, rfl⟩

theorem encodeChecks_b64 {alpha : AlphaSel} (hlegal : legalB64 alpha = true) (s : State) :
    EncodeChecks (.b64Encode alpha) s (4 * ((s.snap.n + 2) / 3)) := by
  simp only [EncodeChecks, exec, execB64Encode, hlegal]
  exact ⟨_, rfl⟩

theorem decodeChecks_b32 {alpha : AlphaSel} (hlegal : legalB32 alpha = true) (s : State) :
    DecodeChecks (.b32Decode alpha) s (decodedLength32 s.srcBytes) := by
  have hpart (h : (decodedLength32 s.srcBytes).isSome = true) : decide (s.snap.n % 8 ≠ 0) = false := by
    simpa using length_mod_of_decodedLength32 h
  simp only [DecodeChecks, exec, execB32Decode, hlegal]
  exact ⟨_, _, hpart, rfl⟩

theorem decodeChecks_b64 {alpha : AlphaSel} (hlegal : legalB64 alpha = true) (s : State) :
    DecodeChecks (.b64Decode alpha) s (decodedLength64 s.srcBytes) := by
  have hpart (h : (decodedLength64 s.srcBytes).isSome = true) : decide (s.snap.n % 4 ≠ 0) = false := by
    simpa using length_mod_of_decodedLength64 h
  simp only [DecodeChecks, exec, execB64Decode, hlegal]
  exact ⟨_, _, hpart, rfl⟩

/-- Settles O41: each of the seven legal ALPHA values leaves only the checks of length and room. -/
theorem radixShapeAndCapacityFailures : Obligations.RadixShapeAndCapacityFailures := by
  intro s enc dec len decLen h
  obtain ⟨henc, hdec⟩ : EncodeChecks enc s len ∧ DecodeChecks dec s decLen := by
    rcases h with h | h
    · obtain ⟨alpha, hmem, heq⟩ := List.mem_map.mp h
      cases heq
      have hlegal : ∀ alpha ∈ [AlphaSel.custom, .b32Rfc4648, .b32Hex, .b32Crockford], legalB32 alpha = true := by
        decide
      exact ⟨encodeChecks_b32 (hlegal alpha hmem) s, decodeChecks_b32 (hlegal alpha hmem) s⟩
    · obtain ⟨alpha, hmem, heq⟩ := List.mem_map.mp h
      cases heq
      have hlegal : ∀ alpha ∈ [AlphaSel.custom, .b64Std, .b64Url], legalB64 alpha = true := by decide
      exact ⟨encodeChecks_b64 (hlegal alpha hmem) s, decodeChecks_b64 (hlegal alpha hmem) s⟩
  refine ⟨fun hb hlen => ⟨_, henc.of_overflow hb hlen, failedCleanly_fail s _⟩,
    fun hb hlen hcap => ⟨_, henc.of_small hb hlen hcap, failedCleanly_fail s _⟩, ?_, ?_⟩
  · rintro hb rfl
    exact ⟨_, hdec.of_shape hb, failedCleanly_fail s _⟩
  · rintro hb need rfl hcap
    exact ⟨_, hdec.of_small hb hcap, failedCleanly_fail s _⟩

/-! ### Every command finishes -/

/-- A checked command that executes to a next state answers one in every case (R102). -/
theorem checked_finishes (onFail : Status → State) (cs : List (Bool × Status)) (u : State) :
    ∃ t, checked onFail cs (.next u) = .next t := by
  rcases checked_cases rfl with ⟨st, -, h⟩ | ⟨-, h⟩
  · exact ⟨onFail st, h⟩
  · exact ⟨u, h⟩

/-- A checked command whose execution faults answers a next state, or all its checks pass and it faults. -/
theorem checked_finishes_or_faults (onFail : Status → State) (cs : List (Bool × Status)) (f : Fault) :
    (∃ t, checked onFail cs (.fault f) = .next t) ∨
      (firstFailure cs = none ∧ checked onFail cs (.fault f) = .fault f) :=
  (checked_cases rfl).imp_left fun ⟨st, _, h⟩ => ⟨onFail st, h⟩

theorem execU8Decode_finishes (s : State) : ∃ t, execU8Decode s = .next t := by
  rw [execU8Decode]
  split
  · exact checked_finishes _ _ _
  · split <;> exact checked_finishes _ _ _

theorem execHexDeclen_finishes (s : State) : ∃ t, execHexDeclen s = .next t := by
  rw [execHexDeclen]
  split
  · exact ⟨_, rfl⟩
  · exact ⟨_, rfl⟩

/-- Every command but the three decoders answers a next state (R102). -/
theorem exec_finishes (i : Instr) (s : State) :
    (∃ t, exec i s = .next t) ∨ i = .hexDecode ∨ ∃ alpha, i = .b32Decode alpha ∨ i = .b64Decode alpha := by
  cases i with
  | hexDecode => exact .inr (.inl rfl)
  | b32Decode alpha => exact .inr (.inr ⟨alpha, .inl rfl⟩)
  | b64Decode alpha => exact .inr (.inr ⟨alpha, .inr rfl⟩)
  | nop => exact .inl ⟨_, rfl⟩
  | hexDeclen => exact .inl (execHexDeclen_finishes s)
  | u8Decode => exact .inl (execU8Decode_finishes s)
  | _ => exact .inl (checked_finishes _ _ _)

/-- A text without values has a symbol without one. -/
theorem exists_of_valuesOf_eq_none {value : Byte → Option Nat} {cs : List Byte} (h : valuesOf value cs = none) :
    ∃ c ∈ cs, value c = none := by
  simpa [h] using valuesOf_isSome value cs

/-- The bytes at the front of the source are its bytes by number. -/
theorem exists_srcByte_of_mem_take {s : State} {c : Byte} {m : Nat} (h : c ∈ s.srcBytes.take m) :
    ∃ k, k < m ∧ k < s.snap.n ∧ srcByte s k = c := by
  obtain ⟨k, hk, rfl⟩ := List.mem_iff_getElem.mp h
  rw [List.length_take, State.length_srcBytes] at hk
  refine ⟨k, by omega, by omega, ?_⟩
  rw [List.getElem_take]
  exact (Memory.getElem_readBytes _ _ _ _ _).symm

/-- HEX_DECODE faults only on an even number of bytes, one of them no hex digit (R157). -/
theorem execHexDecode_outcome (s : State) :
    (∃ t, execHexDecode s = .next t) ∨
      (execHexDecode s = .fault .undefinedInput ∧ s.snap.n % 2 = 0 ∧
        ∃ k, k < s.snap.n ∧ isHex (srcByte s k) = false) := by
  rw [execHexDecode]
  cases hout : hexBytes s.srcBytes with
  | some out => exact .inl (checked_finishes _ _ _)
  | none =>
    refine (checked_finishes_or_faults _ _ _).imp_right fun ⟨hpass, hfault⟩ => ⟨hfault, ?_, ?_⟩
    · simpa using firstFailure_eq_none.mp hpass (argumentCheck (decide (s.snap.n % 2 = 1))) (by simp)
    · obtain ⟨c, hc, hnib⟩ := exists_of_valuesOf_eq_none (Option.map_eq_none_iff.mp hout)
      rw [← List.take_length (l := s.srcBytes)] at hc
      obtain ⟨k, -, hk, rfl⟩ := exists_srcByte_of_mem_take hc
      exact ⟨k, hk, by rw [isHex, hnib]; rfl⟩

/-- Decode faults only on a symbol before the pads that has no value (R181, R211). -/
theorem radixDecode_outcome (r : Radix) (alpha : AlphaSel) (legal : Bool) (value : Byte → Option Nat)
    (length : List Byte → Option Nat) (s : State) :
    (∃ t, radixDecode r alpha legal value length s = .next t) ∨
      (radixDecode r alpha legal value length s = .fault .undefinedInput ∧
        ∃ k, k < s.snap.n - padCount s.srcBytes ∧ value (srcByte s k) = none) := by
  rw [radixDecode]
  split
  · exact .inl (checked_finishes _ _ _)
  · cases hout : decodeText r value s.srcBytes ((length s.srcBytes).getD 0) with
    | some out => exact .inl (checked_finishes _ _ _)
    | none =>
      refine (checked_finishes_or_faults _ _ _).imp_right fun ⟨_, hfault⟩ => ⟨hfault, ?_⟩
      obtain ⟨c, hc, hvalue⟩ := exists_of_valuesOf_eq_none (Option.map_eq_none_iff.mp hout)
      obtain ⟨k, hk, -, rfl⟩ := exists_srcByte_of_mem_take hc
      exact ⟨k, by rwa [State.length_srcBytes] at hk, hvalue⟩

theorem not_mem_of_symbolValue_eq_none {table : List Byte} {c : Byte} (h : symbolValue table c = none) :
    c ∉ table := by
  intro hc
  simpa using List.findIdx?_eq_none_iff.mp h c hc

/-- Settles O17: a finished command leaves nothing pending, and each decoder's fault names the byte. -/
theorem everyCommandFinishesOrMeetsUndefinedInput :
    Obligations.EveryCommandFinishesOrMeetsUndefinedInput := by
  intro i s
  have hidle : (∃ t, exec i s = .next t) → ∃ t, exec i s = .next t ∧ t.busy = false := fun ⟨t, ht⟩ =>
    ⟨t, ht, State.busy_eq_false.mpr (exec_effect ht).registers_kept.1⟩
  rcases exec_finishes i s with h | rfl | ⟨alpha, rfl | rfl⟩
  · exact .inl (hidle h)
  · exact (execHexDecode_outcome s).imp hidle fun ⟨hfault, hk⟩ => ⟨hfault, .inl ⟨rfl, hk⟩⟩
  · exact (radixDecode_outcome _ _ _ _ _ s).imp hidle fun ⟨hfault, k, hk, hvalue⟩ =>
      ⟨hfault, .inr (.inl ⟨alpha, k, rfl, hk, hvalue⟩)⟩
  · exact (radixDecode_outcome _ _ _ _ _ s).imp hidle fun ⟨hfault, k, hk, hvalue⟩ =>
      ⟨hfault, .inr (.inr ⟨alpha, k, rfl, hk, not_mem_of_symbolValue_eq_none hvalue⟩)⟩

/-! ### Lengths -/

theorem readsOnly_finish (s : State) (r r2 : Nat) : ReadsOnly s (s.finish .ok r r2) r r2 :=
  ⟨finished_finish s _ _ _, ⟨rfl, rfl⟩, rfl⟩

/-- A command that reports a length reports it, or ends with InvalidArgument where it overflows (R110). -/
theorem checked_overflow_reports (s : State) (len : Nat) :
    ∃ t, checked s.fail [overflowCheck len] (.next (s.finish .ok len 0)) = .next t ∧
      (len < 2 ^ 64 → ReadsOnly s t len 0) ∧ (2 ^ 64 ≤ len → FailedCleanly s t .invalidArgument 0) := by
  by_cases h : lenLimit ≤ len
  · exact ⟨_, checked_of_fail (by simp [overflowCheck, h]), fun hlt => absurd h (Nat.not_le.mpr hlt),
      fun _ => failedCleanly_fail s _⟩
  · exact ⟨_, checked_of_pass (by simp [overflowCheck, h]), fun _ => readsOnly_finish s len 0,
      fun hle => absurd hle h⟩

/-- Settles O29: four commands report a length that can overflow; HEX_DECLEN's cannot. -/
theorem lengthCommandsReportLengths : Obligations.LengthCommandsReportLengths := by
  intro s
  refine ⟨checked_overflow_reports s _, checked_overflow_reports s _, checked_overflow_reports s _, ?_, ?_, ?_⟩
  · obtain ⟨t, ht, hlen⟩ := checked_overflow_reports s (dumpLength s.snap.n)
    exact ⟨t, ht, fun r hr => hr ▸ hlen⟩
  · intro heven
    exact ⟨_, if_pos heven, readsOnly_finish s _ 0⟩
  · intro hodd
    exact ⟨_, _, if_neg (by omega), finished_finish (s.useDraws 1) _ _ _, rfl, rfl⟩

/-! ### NOP -/

/-- Settles O28: NOP has no operand and no check, and opcode 0x00 is its word's only field. -/
theorem nopFinishesOk : Obligations.NopFinishesOk := by
  refine ⟨fun s => ⟨_, rfl, readsOnly_finish s 0 0⟩, fun hasHexDump w hop => ?_, fun _ _ => rfl⟩
  have hinstr : instrOf w = some .nop := by
    rw [instrOf, hop]
    rfl
  exact decode_of_present hinstr (.inl rfl)

/-! ### The engine's turn -/

/-- Settles O5: the engine's turn at a reserved opcode is its behaviour, which fails with InvalidArgument. -/
theorem reservedOpcodeFinishesInvalidArgument : Obligations.ReservedOpcodeFinishesInvalidArgument := by
  intro s p hp hnext hop
  have hdecode := (reservedOpcodesAreTheListedOnes s.cfg.hasHexDump p.word).1 hop
  refine ⟨s.tail.reservedOpcode, ?_, failedCleanly_fail s.tail _⟩
  rw [step_of_engineNext hnext]
  simp only [engineStep, State.tail_pending, State.tail_cfg, hp, hdecode]

/-- While a command is pending, the engine's turn that answers a next state ends the command and leaves the host's
list alone, or the command is stuck and nothing changes (R63, R102, R327). -/
theorem engineStep_busy {s t : State} (hb : s.busy = true) (h : engineStep s = .next t) :
    t.host = s.host ∧ (t.busy = false ∨ (t = s ∧ reachesUnserved s)) := by
  obtain ⟨p, hp⟩ := Option.isSome_iff_exists.mp hb
  cases hd : decode s.cfg.hasHexDump p.word with
  | reserved op =>
    simp only [engineStep, hp, hd] at h
    exact Host.Outcome.next.inj h ▸ ⟨rfl, .inl rfl⟩
  | command i =>
    rw [engineStep_of_command hp hd] at h
    rcases guarded_cases s.cfg (usedRanges i p) (.next s) (exec i s) with
      ⟨-, hg⟩ | ⟨-, ⟨hunserved, hg⟩ | ⟨-, hg⟩⟩ <;> rw [hg] at h
    · cases h
    · exact Host.Outcome.next.inj h ▸ ⟨rfl, .inr ⟨rfl, p, i, hp, hd, hunserved⟩⟩
    · obtain ⟨hpend, -, -, -, hhost, -, -⟩ := (exec_effect h).registers_kept
      exact ⟨hhost, .inl (State.busy_eq_false.mpr hpend)⟩

/-- Settles O8: the idle engine, a WAIT that ends, and a WAIT held while the engine takes its turn. -/
theorem idleEngineAndWaitSteps : Obligations.IdleEngineAndWaitSteps := by
  refine ⟨fun s hp hnext => ?_, fun s rest hhost => ⟨fun hb => ?_, fun hb => ?_⟩⟩
  · rw [step_of_engineNext hnext]
    simp only [engineStep, State.tail_pending, hp]
  · simp [step, stepOnce, hhost, hb, State.tail_of_host hhost]
  · have hstep := step_of_wait_busy (hhost ▸ rfl) hb
    refine ⟨hstep, fun t ht => ?_⟩
    rw [← hhost]
    exact engineStep_busy hb (hstep ▸ ht)

end Sys2Proof.Machine

/-! PROOFS. The statements about the endian integers (41_endian.md): the bytes written, the value read, the failures in
their order, and the round trip. -/

namespace Sys2Proof.Machine

/-! ### Bytes of an integer -/

/-- Byte `k` of `bytes_little(v, n)` (R130). -/
theorem toNat_getElem_toBytesLittle {n v k : Nat} (h : k < (toBytesLittle n v).length) :
    (toBytesLittle n v)[k].toNat = v / 256 ^ k % 256 := by
  induction n generalizing v k with
  | zero => simp at h
  | succ n ih =>
    cases k with
    | zero => simp [toBytesLittle]
    | succ k =>
      simp only [toBytesLittle, List.getElem_cons_succ]
      rw [ih, Nat.div_div_eq_div_mul, Nat.pow_succ']

/-- Byte `k` of `val_little(bs)` (R130). -/
theorem ofBytesLittle_div_mod {bs : List Byte} {k : Nat} (h : k < bs.length) :
    ofBytesLittle bs / 256 ^ k % 256 = bs[k].toNat := by
  induction bs generalizing k with
  | nil => simp at h
  | cons b bs ih =>
    have hb := b.isLt
    rw [ofBytesLittle]
    cases k with
    | zero =>
      rw [Nat.pow_zero, Nat.div_one, List.getElem_cons_zero]
      omega
    | succ k =>
      have htail : (b.toNat + 256 * ofBytesLittle bs) / 256 = ofBytesLittle bs := by omega
      rw [Nat.pow_succ', ← Nat.div_div_eq_div_mul, htail, List.getElem_cons_succ]
      exact ih _

/-- The place, among `n` bytes in memory, of the byte of weight `256 ^ k` (R130). -/
def bytePlace (order : ByteOrder) (n k : Nat) : Nat :=
  match order with
  | .little => k
  | .big => n - 1 - k

theorem bytePlace_lt {order : ByteOrder} {n k : Nat} (h : k < n) : bytePlace order n k < n := by
  cases order <;> simp only [bytePlace] <;> omega

/-- `bytes_little` and `bytes_big` by byte (R130). -/
theorem toNat_getElem_toBytes {order : ByteOrder} {n v k : Nat} (hk : k < n)
    (h : bytePlace order n k < (toBytes order n v).length) :
    (toBytes order n v)[bytePlace order n k].toNat = v / 256 ^ k % 256 := by
  cases order with
  | little => exact toNat_getElem_toBytesLittle _
  | big =>
    simp only [toBytes, bytePlace, List.getElem_reverse, toNat_getElem_toBytesLittle, length_toBytesLittle]
    rw [show n - 1 - (n - 1 - k) = k by omega]

/-- `val_little` and `val_big` by byte (R130). -/
theorem ofBytes_div_mod {order : ByteOrder} {bs : List Byte} {k : Nat} (h : k < bs.length) :
    ofBytes order bs / 256 ^ k % 256 = (bs[bytePlace order bs.length k]'(bytePlace_lt h)).toNat := by
  cases order with
  | little => exact ofBytesLittle_div_mod h
  | big =>
    rw [ofBytes, ofBytesLittle_div_mod (by simpa using h), List.getElem_reverse]
    rfl

/-- The low `n` bytes of a value do not depend on the rest of it. -/
theorem toBytesLittle_mod (n v : Nat) : toBytesLittle n (v % 256 ^ n) = toBytesLittle n v := by
  induction n generalizing v with
  | zero => rfl
  | succ n ih =>
    have hhead : BitVec.ofNat 8 (v % 256 ^ (n + 1)) = BitVec.ofNat 8 v :=
      BitVec.eq_of_toNat_eq (Nat.mod_mod_of_dvd v (Dvd.intro_left (256 ^ n) rfl))
    have htail : v % 256 ^ (n + 1) / 256 = v / 256 % 256 ^ n := by
      rw [Nat.pow_succ', Nat.mod_mul_right_div_self]
    rw [toBytesLittle, toBytesLittle, hhead, htail, ih]

/-- The field of ARG that ENC_UN takes holds its low `n` bytes (R11, R134 to R136). -/
theorem toBytes_bits (order : ByteOrder) {n : Nat} (hn : 0 < n) (v : Nat) :
    toBytes order n (bits v (8 * n - 1) 0) = toBytes order n v := by
  have hbits : bits v (8 * n - 1) 0 = v % 256 ^ n := by
    rw [bits, Nat.pow_zero, Nat.div_one, show 8 * n - 1 + 1 - 0 = 8 * n by omega, Nat.pow_mul]
  cases order <;> simp only [toBytes, hbits, toBytesLittle_mod]

/-! ### What the endian commands do -/

/-- The checks of an endian command on its one buffer, of `len` bytes at `addr` (R132, R133, R108). -/
def endianChecks (addr : Word) (bo : BoTag) (buf : Buf) (len size : Nat) : List (Bool × Status) :=
  [endianNullCheck addr, argumentCheck (orderOf bo).isNone, rangeCheck buf, capacityCheck len size]

theorem endianNullCheck_eq (addr : Word) : endianNullCheck addr = (decide (addr = 0#64), .invalidNullPointer) := by
  have hnull : addr.toNat = 0 ↔ addr = 0#64 := by rw [BitVec.toNat_eq, BitVec.toNat_ofNat, Nat.zero_mod]
  rw [endianNullCheck, decide_eq_decide.mpr hnull]

/-- The failures in their order: address 0, bad tag or bad range, too short a buffer (R106, R133). -/
theorem firstFailure_endianChecks (addr : Word) (bo : BoTag) (buf : Buf) (len size : Nat) :
    firstFailure (endianChecks addr bo buf len size) =
      if addr = 0#64 then some .invalidNullPointer
      else if (orderOf bo).isNone ∨ buf.outOfRange then some .invalidArgument
      else if len < size then some .bufferTooSmall
      else none := by
  simp only [endianChecks, endianNullCheck_eq, argumentCheck, rangeCheck, capacityCheck, firstFailure_cons,
    firstFailure_nil, decide_eq_true_eq, ite_or]

/-- With a supported tag the checks pass exactly on a buffer that is not null, fits in memory, and holds the integer. -/
theorem firstFailure_endianChecks_eq_none {addr : Word} {bo : BoTag} {order : ByteOrder} {buf : Buf} {len size : Nat}
    (htag : orderOf bo = some order) :
    firstFailure (endianChecks addr bo buf len size) = none ↔
      addr ≠ 0#64 ∧ buf.outOfRange = false ∧ size ≤ len := by
  rw [firstFailure_eq_none]
  simp [endianChecks, endianNullCheck_eq, htag]

theorem orderOf_isNone {bo : BoTag} : (orderOf bo).isNone = true ↔ ∃ code, bo = .unsupported code := by
  cases bo <;> simp [orderOf]

theorem orderOf_ite (big : Bool) :
    orderOf (if big then .big else .little) = some (if big then .big else .little) := by
  cases big <;> rfl

section
variable {s : State} {i : Instr} {bo : BoTag} {order : ByteOrder} {size : Nat}

/-- ENC_UN checks its destination and the room in it, then stores the bytes of ARG (R134 to R136). -/
theorem exec_endianEncode (h : (i, size) ∈ [(Instr.encU16 bo, 2), (.encU32 bo, 4), (.encU64 bo, 8)]) :
    exec i s = checked s.fail (endianChecks s.snap.regs.dstAddr bo (s.snap.dst 1) s.snap.capacity size)
      (.next ((s.putDst (toBytes ((orderOf bo).getD .big) size s.snap.regs.arg.toNat)).finish .ok 0 0)) := by
  obtain ⟨hpos, hexec⟩ : 0 < size ∧ exec i s = encodeInt size bo s := by
    simp only [List.mem_cons, Prod.mk.injEq, List.not_mem_nil, or_false] at h
    rcases h with ⟨rfl, rfl⟩ | ⟨rfl, rfl⟩ | ⟨rfl, rfl⟩ <;> exact ⟨by decide, rfl⟩
  rw [hexec, encodeInt, toBytes_bits _ hpos]
  rfl

/-- DEC_UN checks its source and that it holds the integer, then reports the value (R137 to R139). -/
theorem exec_endianDecode (h : (i, size) ∈ [(Instr.decU16 bo, 2), (.decU32 bo, 4), (.decU64 bo, 8)]) :
    exec i s = checked s.fail (endianChecks s.snap.regs.srcAddr bo (s.snap.src 1) s.snap.n size)
      (.next (s.finish .ok (ofBytes ((orderOf bo).getD .big)
        (s.mem.readBytes s.snap.regs.srcAddr.toNat size)) 0)) := by
  simp only [List.mem_cons, Prod.mk.injEq, List.not_mem_nil, or_false] at h
  rcases h with ⟨rfl, rfl⟩ | ⟨rfl, rfl⟩ | ⟨rfl, rfl⟩ <;> rfl

/-- ENC_UN on a destination that passes its checks. -/
theorem exec_endianEncode_of_pass (h : (i, size) ∈ [(Instr.encU16 bo, 2), (.encU32 bo, 4), (.encU64 bo, 8)])
    (htag : orderOf bo = some order) (haddr : s.snap.regs.dstAddr ≠ 0#64)
    (hrange : (s.snap.dst 1).outOfRange = false) (hroom : size ≤ s.snap.capacity) :
    exec i s = .next ((s.putDst (toBytes order size s.snap.regs.arg.toNat)).finish .ok 0 0) := by
  rw [exec_endianEncode h, checked_of_pass ((firstFailure_endianChecks_eq_none htag).mpr ⟨haddr, hrange, hroom⟩),
    htag, Option.getD_some]

/-- DEC_UN on a source that passes its checks. -/
theorem exec_endianDecode_of_pass (h : (i, size) ∈ [(Instr.decU16 bo, 2), (.decU32 bo, 4), (.decU64 bo, 8)])
    (htag : orderOf bo = some order) (haddr : s.snap.regs.srcAddr ≠ 0#64)
    (hrange : (s.snap.src 1).outOfRange = false) (hlen : size ≤ s.snap.n) :
    exec i s = .next (s.finish .ok (ofBytes order (s.mem.readBytes s.snap.regs.srcAddr.toNat size)) 0) := by
  rw [exec_endianDecode h, checked_of_pass ((firstFailure_endianChecks_eq_none htag).mpr ⟨haddr, hrange, hlen⟩),
    htag, Option.getD_some]

/-- Bytes that the destination has room for lie in memory (R108). -/
theorem Snapshot.dst_fits {p : Snapshot} (h : (p.dst 1).outOfRange = false) (hsize : size ≤ p.capacity) :
    p.regs.dstAddr.toNat + size ≤ memSize := by
  have haddr := p.regs.dstAddr.isLt
  rw [Buf.outOfRange_eq_false] at h
  simp only [Snapshot.dst, memSize] at h ⊢
  rw [Snapshot.capacity] at hsize
  omega

/-- With room for `size` bytes, ENC_UN stores them and nothing else (R59, R104). -/
theorem stored_toBytes (hm : s.mem.wf = true) (hrange : (s.snap.dst 1).outOfRange = false)
    (hroom : size ≤ s.snap.capacity) (order : ByteOrder) (v : Nat) :
    Stored s ((s.putDst (toBytes order size v)).finish .ok 0 0) (toBytes order size v) 0 :=
  ⟨finished_finish _ _ _ _, ⟨rfl, rfl⟩, putDst_wroteAt hm (by simpa using Snapshot.dst_fits hrange hroom)⟩

end

/-- Each byte written reads back. -/
theorem WroteAt.read {s t : State} {a k : Nat} {bs : List Byte} (h : WroteAt s t a bs) (hk : k < bs.length) :
    t.mem.read (a + k) = bs[k] := by
  obtain ⟨hbytes, -⟩ := h
  rw [← Memory.getElem_readBytes t.mem a bs.length k (by simpa using hk)]
  exact List.getElem_of_eq hbytes _

/-- Settles O57: byte `k` of ARG stands at its place among the bytes written. -/
theorem endianEncodeWritesTheBytes : Obligations.EndianEncodeWritesTheBytes := by
  intro s i big size hm hi haddr hrange hroom
  have hexec := exec_endianEncode_of_pass hi (orderOf_ite big) haddr hrange hroom
  obtain ⟨hfinished, hoperands, hwrote⟩ :=
    stored_toBytes hm hrange hroom (if big then .big else .little) s.snap.regs.arg.toNat
  refine ⟨_, hexec, hfinished, hoperands, fun k hk => ?_, by simpa [dstAt] using hwrote.2⟩
  have hplace : (if big then size - 1 - k else k) = bytePlace (if big then .big else .little) size k := by
    cases big <;> rfl
  rw [hplace, dstAt, hwrote.read (by simpa using bytePlace_lt hk), toNat_getElem_toBytes hk]

/-- Settles O58: the value is determined by its bytes, each of them read at its place. -/
theorem endianDecodeReadsTheValue : Obligations.EndianDecodeReadsTheValue := by
  intro s i big size hi haddr hrange hlen
  have hexec := exec_endianDecode_of_pass hi (orderOf_ite big) haddr hrange hlen
  refine ⟨_, _, hexec, readsOnly_finish s _ 0, ?_, fun k hk => ?_⟩
  · simpa using ofBytes_lt _ (s.mem.readBytes s.snap.regs.srcAddr.toNat size)
  · rw [ofBytes_div_mod (by simpa using hk), Memory.getElem_readBytes, Memory.length_readBytes]
    cases big <;> rfl

/-- Settles O59: each failure is the first one in the list of checks, whichever way the command goes. -/
theorem endianFailures : Obligations.EndianFailures := by
  intro s i bo size len addr buf h
  obtain ⟨e, hexec⟩ : ∃ e, exec i s = checked s.fail (endianChecks addr bo buf len size) e := by
    rcases h with ⟨hi, rfl, rfl, rfl⟩ | ⟨hi, rfl, rfl, rfl⟩
    · exact ⟨_, exec_endianEncode hi⟩
    · exact ⟨_, exec_endianDecode hi⟩
  have hfail (st : Status) (hst : firstFailure (endianChecks addr bo buf len size) = some st) :
      ∃ t, exec i s = .next t ∧ FailedCleanly s t st 0 :=
    ⟨_, hexec.trans (checked_of_fail hst), failedCleanly_fail s st⟩
  rw [← orderOf_isNone]
  simp only [firstFailure_endianChecks] at hfail
  refine ⟨fun hnull => hfail _ ?_, fun haddr hbo => hfail _ ?_, fun haddr hrange => hfail _ ?_,
    fun haddr hbo hrange hlen => hfail _ ?_⟩
  · rw [if_pos hnull]
  · rw [if_neg haddr, if_pos (.inl hbo)]
  · rw [if_neg haddr, if_pos (.inr hrange)]
  · have hbo' : (orderOf bo).isNone = false := by rcases hbo with rfl | rfl <;> rfl
    rw [if_neg haddr, if_neg (by simp [hbo', hrange]), if_pos hlen]

/-- Settles O60: an encode that ended OK passed its checks, so its bytes lie at the destination, and they read back
as the value. -/
theorem endianRoundTripThroughTheBlock : Obligations.EndianRoundTripThroughTheBlock := by
  intro s u enc dec bo size hm hi hbo hval t ht hok hmem haddr hrange hlen
  obtain ⟨order, htag⟩ : ∃ order, orderOf bo = some order := by rcases hbo with rfl | rfl <;> exact ⟨_, rfl⟩
  obtain ⟨henc, hdec⟩ : (enc, size) ∈ [(Instr.encU16 bo, 2), (.encU32 bo, 4), (.encU64 bo, 8)] ∧
      (dec, size) ∈ [(Instr.decU16 bo, 2), (.decU32 bo, 4), (.decU64 bo, 8)] := by
    simp only [List.mem_cons, Prod.mk.injEq, List.not_mem_nil, or_false] at hi ⊢
    tauto
  rw [exec_endianEncode henc, htag, Option.getD_some] at ht
  rcases checked_cases ht with ⟨st, hst, hfail⟩ | ⟨hpass, hstored⟩
  · obtain rfl : st = .ok := by rw [← hok, Host.Outcome.next.inj hfail, State.fail_err]
    rw [firstFailure_endianChecks] at hst
    split_ifs at hst <;> cases hst
  · obtain rfl := Host.Outcome.next.inj hstored
    obtain ⟨hnull, hfits, hroom⟩ := (firstFailure_endianChecks_eq_none htag).mp hpass
    obtain ⟨-, -, hread, -⟩ := stored_toBytes hm hfits hroom order s.snap.regs.arg.toNat
    rw [length_toBytes] at hread
    have hexec := exec_endianDecode_of_pass hdec htag (haddr ▸ hnull) hrange hlen
    rw [hmem, haddr, hread, ofBytes_toBytes _ hval] at hexec
    exact ⟨_, hexec, readsOnly_finish u _ 0⟩

end Sys2Proof.Machine

/-! PROOFS. The statements about base16 (42_base16.md): what encode writes, what valid tests, what decode reads, and the
round trip. -/

namespace Sys2Proof.Machine

/-! ### Digits and their values -/

/-- The digit table as ASCII values (R150). -/
theorem toNat_digit {v : Nat} (h : v < 16) :
    (digit .lower v).toNat = (if v < 10 then 0x30 + v else 0x61 + (v - 10)) ∧
      (digit .upper v).toNat = (if v < 10 then 0x30 + v else 0x41 + (v - 10)) := by
  revert v
  decide

/-- A digit has the value it was written for, in either case (R150, R151). -/
theorem nib_digit (case_ : HexCase) {v : Nat} (h : v < 16) : nib (digit case_ v) = some v := by
  revert v
  cases case_ <;> decide

/-- Upper-case and lower-case letters do not meet, so the order in which they are tried does not matter (R151). -/
theorem nib_eq (c : Byte) : nib c =
    if 0x30 ≤ c.toNat ∧ c.toNat ≤ 0x39 then some (c.toNat - 0x30)
    else if 0x41 ≤ c.toNat ∧ c.toNat ≤ 0x46 then some (c.toNat - 0x41 + 10)
    else if 0x61 ≤ c.toNat ∧ c.toNat ≤ 0x66 then some (c.toNat - 0x61 + 10)
    else none := by
  by_cases hlower : 0x61 ≤ c.toNat ∧ c.toNat ≤ 0x66
  · have hupper : ¬(0x41 ≤ c.toNat ∧ c.toNat ≤ 0x46) := by omega
    rw [nib, if_pos hlower, if_neg hupper, if_pos hlower]
  · rw [nib, if_neg hlower, if_neg hlower]

theorem nib_lt {c : Byte} {v : Nat} (h : nib c = some v) : v < 16 := by
  rw [nib_eq] at h
  split_ifs at h <;> cases h <;> omega

/-- The bytes that are hex digits (R151). -/
theorem isHex_iff {c : Byte} : isHex c = true ↔
    (0x30 ≤ c.toNat ∧ c.toNat ≤ 0x39) ∨ (0x41 ≤ c.toNat ∧ c.toNat ≤ 0x46) ∨
      (0x61 ≤ c.toNat ∧ c.toNat ≤ 0x66) := by
  rw [isHex, nib_eq]
  split_ifs <;> simp [*]

/-! ### Texts -/

/-- The digits of a byte are those of its two nibbles (R154). -/
theorem hexByte_eq (case_ : HexCase) (b : Byte) :
    hexByte case_ b = [digit case_ (b.toNat / 16), digit case_ (b.toNat % 16)] := by
  have hhigh : bits b.toNat 7 4 = b.toNat / 16 := Nat.mod_eq_of_lt (Nat.div_lt_of_lt_mul b.isLt)
  have hlow : bits b.toNat 3 0 = b.toNat % 16 := congrArg (· % 16) (Nat.div_one _)
  rw [hexByte, hhigh, hlow]

theorem hexText_cons (case_ : HexCase) (b : Byte) (bs : List Byte) :
    hexText case_ (b :: bs) =
      digit case_ (b.toNat / 16) :: digit case_ (b.toNat % 16) :: hexText case_ bs := by
  rw [hexText, List.flatMap_cons, hexByte_eq]
  rfl

/-- The digits of byte `k` stand at `2 * k` and `2 * k + 1` (R154). -/
theorem getElem_hexText (case_ : HexCase) {bs : List Byte} {k : Nat} (h : k < bs.length)
    (hhigh : 2 * k < (hexText case_ bs).length) (hlow : 2 * k + 1 < (hexText case_ bs).length) :
    (hexText case_ bs)[2 * k] = digit case_ (bs[k].toNat / 16) ∧
      (hexText case_ bs)[2 * k + 1] = digit case_ (bs[k].toNat % 16) := by
  induction bs generalizing k with
  | nil => simp at h
  | cons b bs ih =>
    cases k with
    | zero => simp [hexText_cons]
    | succ k =>
      simp only [hexText_cons, Nat.mul_succ, List.getElem_cons_succ]
      exact ih (Nat.lt_of_succ_lt_succ h) _ _

theorem valuesOf_cons_eq_some {value : Byte → Option Nat} {c : Byte} {cs : List Byte} {vs : List Nat} :
    valuesOf value (c :: cs) = some vs ↔
      ∃ v ws, value c = some v ∧ valuesOf value cs = some ws ∧ v :: ws = vs := by
  cases hc : value c <;> cases hcs : valuesOf value cs <;> simp [valuesOf, hc, hcs]

/-- HEX_DECODE takes a text by pairs of digits (R157). -/
theorem hexBytes_cons_cons_eq_some {c c' : Byte} {t out : List Byte} :
    hexBytes (c :: c' :: t) = some out ↔
      ∃ hi lo rest, nib c = some hi ∧ nib c' = some lo ∧ hexBytes t = some rest ∧
        BitVec.ofNat 8 (hi * 16 + lo) :: rest = out := by
  have hchunk (hi lo : Nat) (vs : List Nat) : chunks 2 (hi :: lo :: vs) = [hi, lo] :: chunks 2 vs :=
    chunks_cons (by decide) (List.cons_ne_nil _ _)
  have hpair (hi lo : Nat) : ofDigits 4 [hi, lo] = hi * 16 + lo := by simp [ofDigits]
  simp only [hexBytes, Option.map_eq_some_iff, valuesOf_cons_eq_some]
  constructor
  · rintro ⟨_, ⟨hi, _, hhi, ⟨lo, vs, hlo, hvs, rfl⟩, rfl⟩, rfl⟩
    exact ⟨hi, lo, _, hhi, hlo, ⟨vs, hvs, rfl⟩, by rw [hchunk, List.map_cons, hpair]⟩
  · rintro ⟨hi, lo, _, hhi, hlo, ⟨vs, hvs, rfl⟩, rfl⟩
    exact ⟨_, ⟨hi, _, hhi, ⟨lo, vs, hlo, hvs, rfl⟩, rfl⟩, by rw [hchunk, List.map_cons, hpair]⟩

/-- Byte `j` of the output is 16 times the value of digit `2 * j` plus that of digit `2 * j + 1` (R157). -/
theorem getElem_hexBytes {t out : List Byte} {j : Nat} (h : hexBytes t = some out) (hj : 2 * j + 1 < t.length)
    (hout : j < out.length) :
    ∃ hi lo, nib t[2 * j] = some hi ∧ nib t[2 * j + 1] = some lo ∧ out[j].toNat = hi * 16 + lo := by
  induction j generalizing t out with
  | zero =>
    obtain _ | ⟨c, _ | ⟨c', t⟩⟩ := t
    · simp at hj
    · simp at hj
    · obtain ⟨hi, lo, rest, hhi, hlo, -, rfl⟩ := hexBytes_cons_cons_eq_some.mp h
      have hhi' := nib_lt hhi
      have hlo' := nib_lt hlo
      refine ⟨hi, lo, hhi, hlo, ?_⟩
      rw [List.getElem_cons_zero, BitVec.toNat_ofNat]
      omega
  | succ j ih =>
    obtain _ | ⟨c, _ | ⟨c', t⟩⟩ := t
    · simp at hj
    · simp at hj
    · obtain ⟨hi, lo, rest, -, -, hrest, rfl⟩ := hexBytes_cons_cons_eq_some.mp h
      simp only [Nat.mul_succ, List.length_cons, List.getElem_cons_succ] at hj hout ⊢
      exact ih hrest (by omega) (by omega)

/-- A text is in HEX_DECODE's domain exactly when its bytes are hex digits (R157). -/
theorem hexBytes_isSome (t : List Byte) : (hexBytes t).isSome = t.all isHex := by
  rw [hexBytes, Option.isSome_map]
  exact valuesOf_isSome nib t

/-- Decode of encode is the identity on bytes (R158). -/
theorem hexBytes_hexText (case_ : HexCase) (bs : List Byte) : hexBytes (hexText case_ bs) = some bs := by
  induction bs with
  | nil => rfl
  | cons b bs ih =>
    have hb := b.isLt
    rw [hexText_cons, hexBytes_cons_cons_eq_some]
    refine ⟨b.toNat / 16, b.toNat % 16, bs, nib_digit case_ (by omega), nib_digit case_ (by omega), ih, ?_⟩
    rw [Nat.div_add_mod', BitVec.ofNat_toNat, BitVec.setWidth_eq]

/-- Every encoded text is valid (R158). -/
theorem hexValid_hexText (case_ : HexCase) (bs : List Byte) : hexValid (hexText case_ bs) = true := by
  rw [hexValid, length_hexText, ← hexBytes_isSome, hexBytes_hexText]
  simp

/-! ### What the base16 commands do -/

theorem State.getElem_srcBytes {s : State} {k : Nat} (h : k < s.srcBytes.length) : s.srcBytes[k] = srcByte s k :=
  Memory.getElem_readBytes _ _ _ _ _

/-- All source bytes are hex digits, byte by byte. -/
theorem State.all_isHex_srcBytes {s : State} :
    s.srcBytes.all isHex = true ↔ ∀ k, k < s.snap.n → isHex (srcByte s k) = true := by
  simp [List.all_eq_true, List.forall_mem_iff_getElem, State.getElem_srcBytes]

/-- A command with a source and a destination that pass goes on to its further checks (R106). -/
theorem checked_srcDst_of_buffersPass {i : Instr} {p : Snapshot} (hb : BuffersPass i p) (onFail : Status → State)
    (rest : List (Bool × Status)) (e : Result) :
    checked onFail ([nullCheck (srcRange i p), nullCheck (dstRange i p), rangeCheck (srcRange i p),
      rangeCheck (dstRange i p), overlapCheck (dstRange i p) (srcRange i p)] ++ rest) e = checked onFail rest e := by
  obtain ⟨hsrc, hdst, -, hsrc', hdst', -, hover, -⟩ := hb
  rw [checked, checked, firstFailure_append_of_pass]
  simp [hsrc, hdst, hsrc', hdst', hover]

/-- Every command keeps memory in canonical form. -/
theorem exec_keeps_mem_wf {i : Instr} {s t : State} (hm : s.mem.wf = true) (h : exec i s = .next t) :
    t.mem.wf = true := by
  obtain ⟨bs, hmem, -⟩ := (exec_effect h).mem_written
  exact hmem ▸ Memory.writeBytes_wf hm _ bs

/-- A destination with room for `n` bytes is a source of `n` bytes that passes its checks (R107, R108). -/
theorem src_passes_of_dst {p q : Snapshot} (haddr : q.regs.srcAddr = p.regs.dstAddr) (hlen : q.n ≤ p.capacity)
    (hnull : (p.dst 1).isNull = false) (hrange : (p.dst 1).outOfRange = false) :
    (q.src 1).isNull = false ∧ (q.src 1).outOfRange = false := by
  have hfits := Snapshot.dst_fits hrange hlen
  rw [Buf.isNull_eq_false] at hnull ⊢
  rw [Buf.outOfRange_eq_false]
  simp only [Snapshot.src, Snapshot.dst, Snapshot.n, Snapshot.capacity, haddr] at hlen hnull hfits ⊢
  omega

section
variable {s : State}

/-- Bytes that the destination has room for are stored, and nothing else (R59, R104). -/
theorem stored_putDst {bs : List Byte} (hm : s.mem.wf = true) (hrange : (s.snap.dst 1).outOfRange = false)
    (hroom : bs.length ≤ s.snap.capacity) : Stored s ((s.putDst bs).finish .ok 0 0) bs 0 :=
  ⟨finished_finish _ _ _ _, ⟨rfl, rfl⟩, putDst_wroteAt hm (Snapshot.dst_fits hrange hroom)⟩

/-- HEX_ENCODE on buffers that pass: the checks of the encoded length are left (R154). -/
theorem exec_hexEncode (hb : BuffersPass .hexEncode s.snap) :
    exec .hexEncode s =
      checked s.fail [overflowCheck (2 * s.snap.n), capacityCheck s.snap.capacity (2 * s.snap.n)]
        (.next ((s.putDst (hexText s.cfg.hexCase s.srcBytes)).finish .ok 0 0)) :=
  checked_srcDst_of_buffersPass hb _ _ _

/-- With room, HEX_ENCODE stores the text (R154). -/
theorem exec_hexEncode_of_room (hm : s.mem.wf = true) (hb : BuffersPass .hexEncode s.snap)
    (hroom : 2 * s.snap.n ≤ s.snap.capacity) :
    ∃ t, exec .hexEncode s = .next t ∧ Stored s t (hexText s.cfg.hexCase s.srcBytes) 0 := by
  have hfits : 2 * s.snap.n < 2 ^ 64 := hroom.trans_lt s.snap.regs.dstLen.isLt
  refine ⟨_, (exec_hexEncode hb).trans (checked_of_pass ?_), stored_putDst hm ?_ (by simpa using hroom)⟩
  · simp [overflowCheck, capacityCheck, hroom.not_gt, hfits.not_ge]
  · obtain ⟨-, -, -, -, hdst, -⟩ := hb
    exact hdst

/-- HEX_VALID on a source that passes reports its test (R155). -/
theorem exec_hexValid (hnull : (s.snap.src 1).isNull = false) (hrange : (s.snap.src 1).outOfRange = false) :
    exec .hexValid s = .next (s.finish .ok (hexValid s.srcBytes).toNat 0) :=
  checked_of_pass (by simp [firstFailure_eq_none, hnull, hrange])

/-- HEX_DECODE on buffers that pass: the checks of the length and of room are left (R157). -/
theorem exec_hexDecode (hb : BuffersPass .hexDecode s.snap) :
    exec .hexDecode s =
      checked s.fail [argumentCheck (decide (s.snap.n % 2 = 1)), capacityCheck s.snap.capacity (s.snap.n / 2)]
        (match hexBytes s.srcBytes with
         | none => .fault .undefinedInput
         | some out => .next ((s.putDst out).finish .ok 0 0)) :=
  checked_srcDst_of_buffersPass hb _ _ _

/-- On an even text outside its domain HEX_DECODE is undefined (R114, R157). -/
theorem exec_hexDecode_of_none (hb : BuffersPass .hexDecode s.snap) (heven : s.snap.n % 2 = 0)
    (hroom : s.snap.n / 2 ≤ s.snap.capacity) (hnone : hexBytes s.srcBytes = none) :
    exec .hexDecode s = .fault .undefinedInput := by
  rw [exec_hexDecode hb, hnone]
  exact checked_of_pass (by simp [argumentCheck, capacityCheck, heven, hroom])

/-- On an even text of hex digits, with room, HEX_DECODE stores the bytes (R157). -/
theorem exec_hexDecode_of_some {out : List Byte} (hm : s.mem.wf = true) (hb : BuffersPass .hexDecode s.snap)
    (heven : s.snap.n % 2 = 0) (hroom : s.snap.n / 2 ≤ s.snap.capacity) (hsome : hexBytes s.srcBytes = some out) :
    ∃ t, exec .hexDecode s = .next t ∧ Stored s t out 0 := by
  have hlen : out.length = s.snap.n / 2 := by
    rw [length_hexBytes hsome, State.length_srcBytes]
    omega
  rw [exec_hexDecode hb, hsome]
  refine ⟨_, checked_of_pass ?_, stored_putDst hm ?_ (hlen ▸ hroom)⟩
  · simp [argumentCheck, capacityCheck, heven, hroom]
  · obtain ⟨-, -, -, -, hdst, -⟩ := hb
    exact hdst

end

/-! ### The statements -/

/-- Settles O30: the text's digits read back at their places, and each failure is the first of the two length checks. -/
theorem hexEncodeWritesTwoDigitsPerByte : Obligations.HexEncodeWritesTwoDigitsPerByte := by
  refine ⟨fun v hv => toNat_digit hv, fun s hm hb => ⟨fun hroom => ?_, fun hlong => ?_, fun hfits hsmall => ?_⟩⟩
  · obtain ⟨t, ht, hfinished, hoperands, hwrote⟩ := exec_hexEncode_of_room hm hb hroom
    refine ⟨t, ht, hfinished, hoperands, fun k hk => ?_, by simpa [dstAt] using hwrote.2⟩
    have hlen : (hexText s.cfg.hexCase s.srcBytes).length = 2 * s.snap.n := by simp
    have hdigits := getElem_hexText s.cfg.hexCase (bs := s.srcBytes) (k := k) (by simpa using hk) (by omega) (by omega)
    rw [State.getElem_srcBytes, ← hwrote.read, ← hwrote.read] at hdigits
    exact hdigits
  · refine ⟨_, (exec_hexEncode hb).trans (checked_of_fail ?_), failedCleanly_fail s _⟩
    simp [overflowCheck, hlong]
  · refine ⟨_, (exec_hexEncode hb).trans (checked_of_fail ?_), failedCleanly_fail s _⟩
    simp [overflowCheck, capacityCheck, hfits, hsmall]

/-- Settles O31: the test's two parts, with the digits as ASCII ranges. -/
theorem hexValidTestsLengthAndDigits : Obligations.HexValidTestsLengthAndDigits := by
  intro s hb
  obtain ⟨hnull, -, -, hrange, -⟩ := hb
  refine ⟨_, _, exec_hexValid hnull hrange, readsOnly_finish s _ 0, Bool.toNat_le _, ?_⟩
  simp only [Bool.toNat_eq_one, hexValid, Bool.and_eq_true, decide_eq_true_eq, State.length_srcBytes,
    State.all_isHex_srcBytes, isHex_iff]

/-- Settles O32: each output byte joins the values of its two digits; the text has an output exactly when all its bytes
are digits. -/
theorem hexDecodeCombinesPairs : Obligations.HexDecodeCombinesPairs := by
  refine ⟨fun c => ⟨rfl, nib_eq c⟩, fun s hm hb => ⟨fun hodd => ?_, fun heven hsmall => ?_, fun heven hroom =>
    ⟨fun hhex => ?_, fun ⟨k, hk, hbad⟩ => ?_⟩⟩⟩
  · refine ⟨_, (exec_hexDecode hb).trans (checked_of_fail ?_), failedCleanly_fail s _⟩
    simp [argumentCheck, hodd]
  · refine ⟨_, (exec_hexDecode hb).trans (checked_of_fail ?_), failedCleanly_fail s _⟩
    simp [argumentCheck, capacityCheck, heven, hsmall]
  · obtain ⟨out, hout⟩ := Option.isSome_iff_exists.mp
      ((hexBytes_isSome s.srcBytes).trans (State.all_isHex_srcBytes.mpr hhex))
    obtain ⟨t, ht, hfinished, hoperands, hwrote⟩ := exec_hexDecode_of_some hm hb heven hroom hout
    have hlen : out.length = s.snap.n / 2 := by
      rw [length_hexBytes hout, State.length_srcBytes]
      omega
    refine ⟨t, ht, hfinished, hoperands, fun j hj => ?_, hlen ▸ hwrote.2⟩
    have hpair := getElem_hexBytes (j := j) hout (by rw [State.length_srcBytes]; omega) (by omega)
    rw [State.getElem_srcBytes, State.getElem_srcBytes, ← hwrote.read] at hpair
    exact hpair
  · refine exec_hexDecode_of_none hb heven hroom (Option.not_isSome_iff_eq_none.mp fun hsome => ?_)
    rw [hexBytes_isSome, State.all_isHex_srcBytes] at hsome
    simpa [hbad] using hsome k hk

/-- Settles O33: the encoded text is what the later commands read, it is valid, and it decodes to the bytes. -/
theorem hexRoundTripThroughTheBlock : Obligations.HexRoundTripThroughTheBlock := by
  intro s hm hb hroom
  obtain ⟨t, ht, hfinished, -, hread, hkept⟩ := exec_hexEncode_of_room hm hb hroom
  have htext : (hexText s.cfg.hexCase s.srcBytes).length = 2 * s.snap.n := by simp
  rw [htext] at hread hkept
  refine ⟨t, ht, hfinished, hkept, fun u hmem haddr hlen => ?_⟩
  have hsrc : u.srcBytes = hexText s.cfg.hexCase s.srcBytes := by rw [State.srcBytes, hmem, haddr, hlen, hread]
  have hhalf : u.snap.n / 2 = s.snap.n := by omega
  have heven : u.snap.n % 2 = 0 := by omega
  refine ⟨?_, ?_, fun hbu hroomu => ?_⟩
  · obtain ⟨-, hnull, -, -, hrange, -⟩ := hb
    obtain ⟨hnull', hrange'⟩ := src_passes_of_dst haddr (hlen ▸ hroom) hnull hrange
    have hexec := exec_hexValid hnull' hrange'
    rw [hsrc, hexValid_hexText] at hexec
    exact ⟨_, hexec, readsOnly_finish u 1 0⟩
  · have hexec : exec .hexDeclen u = .next (u.finish .ok (u.snap.n / 2) 0) := if_pos heven
    exact ⟨_, hexec, hhalf ▸ readsOnly_finish u _ 0⟩
  · have hmu : u.mem.wf = true := hmem ▸ exec_keeps_mem_wf hm ht
    have hout : hexBytes u.srcBytes = some s.srcBytes := by rw [hsrc, hexBytes_hexText]
    obtain ⟨v, hv, hfinished', -, hback, -⟩ := exec_hexDecode_of_some hmu hbu heven (hhalf ▸ hroomu) hout
    rw [State.length_srcBytes] at hback
    exact ⟨v, hv, hfinished', hback⟩

end Sys2Proof.Machine

/-! PROOFS. The statements that base32 and base64 share, and those about base32 (43_base32.md): the bits of a sequence
of digits, the symbols that encode writes, the validity test, the decoded lengths, the bytes that decode writes, and
the round trip. -/

namespace Sys2Proof.Machine

/-! ### Numbers made of bits -/

theorem bitsFrom_succ (f : Nat → Nat) (first count : Nat) :
    bitsFrom f first (count + 1) = 2 * bitsFrom f first count + f (first + count) := by
  rw [bitsFrom, List.range_succ, List.foldl_append]
  rfl

theorem bitsFrom_add (f : Nat → Nat) (first a b : Nat) :
    bitsFrom f first (a + b) = bitsFrom f first a * 2 ^ b + bitsFrom f (first + a) b := by
  induction b with
  | zero => simp [bitsFrom]
  | succ b ih =>
    rw [← Nat.add_assoc, bitsFrom_succ, ih, bitsFrom_succ, ← Nat.add_assoc]
    ring

theorem bitsFrom_congr {f g : Nat → Nat} {first first' count : Nat}
    (h : ∀ e, e < count → f (first + e) = g (first' + e)) : bitsFrom f first count = bitsFrom g first' count := by
  induction count with
  | zero => rfl
  | succ count ih =>
    rw [bitsFrom_succ, bitsFrom_succ, ih fun e he => h e (Nat.lt_succ_of_lt he), h count (Nat.lt_succ_self count)]

theorem bitsFrom_lt {f : Nat → Nat} (hf : ∀ b, f b < 2) (first count : Nat) : bitsFrom f first count < 2 ^ count := by
  induction count with
  | zero => exact Nat.one_pos
  | succ count ih =>
    have := hf (first + count)
    rw [bitsFrom_succ, Nat.pow_succ]
    omega

/-- A field of a number made of bits is made of the field's bits (R11). -/
theorem bitsFrom_slice {f : Nat → Nat} (hf : ∀ b, f b < 2) (first a c r : Nat) :
    bitsFrom f first (a + c + r) / 2 ^ r % 2 ^ c = bitsFrom f (first + a) c := by
  rw [bitsFrom_add f first (a + c) r, Nat.mul_comm, Nat.mul_add_div (Nat.two_pow_pos r),
    Nat.div_eq_of_lt (bitsFrom_lt hf _ r), Nat.add_zero, bitsFrom_add f first a c, Nat.mul_comm,
    Nat.mul_add_mod, Nat.mod_eq_of_lt (bitsFrom_lt hf _ c)]

theorem symbolBit_lt (k : Nat) (value : Nat → Nat) (b : Nat) : symbolBit k value b < 2 :=
  Nat.mod_lt _ Nat.two_pos

/-- The bits of one digit make the digit. -/
theorem bitsFrom_symbolBit {k : Nat} {value : Nat → Nat} {j : Nat} (h : value j < 2 ^ k) :
    bitsFrom (symbolBit k value) (k * j) k = value j := by
  have hleading (c : Nat) (hc : c ≤ k) : bitsFrom (symbolBit k value) (k * j) c = value j / 2 ^ (k - c) := by
    induction c with
    | zero => exact (Nat.div_eq_of_lt h).symm
    | succ c ih =>
      have hbit : symbolBit k value (k * j + c) = value j / 2 ^ (k - (c + 1)) % 2 := by
        rw [symbolBit, Nat.mul_add_div (by omega), Nat.mul_add_mod, Nat.mod_eq_of_lt (a := c) hc,
          Nat.div_eq_of_lt (a := c) hc, Nat.add_zero, Nat.sub_sub, Nat.add_comm 1 c]
      rw [bitsFrom_succ, ih (by omega), hbit, show k - c = k - (c + 1) + 1 by omega, Nat.pow_succ,
        ← Nat.div_div_eq_div_mul, Nat.div_add_mod]
  rw [hleading k (le_refl k), Nat.sub_self, Nat.pow_zero, Nat.div_one]

/-- The bits of the digits that a sequence of bits makes are the sequence. -/
theorem symbolBit_bitsFrom {k : Nat} (hk : 0 < k) {f : Nat → Nat} (hf : ∀ b, f b < 2) (b : Nat) :
    symbolBit k (fun j => bitsFrom f (k * j) k) b = f b := by
  have hb : b % k < k := Nat.mod_lt b hk
  have hslice := bitsFrom_slice hf (k * (b / k)) (b % k) 1 (k - 1 - b % k)
  rw [show b % k + 1 + (k - 1 - b % k) = k by omega, Nat.div_add_mod, Nat.pow_one] at hslice
  rw [symbolBit, hslice]
  simp [bitsFrom]

/-! ### The bits of a list of digits -/

/-- Bit `b` of the `k`-bit digits `vs`, counted MSB-first, 0 past their end (R176, R205). -/
def digitBit (k : Nat) (vs : List Nat) : Nat → Nat := symbolBit k fun j => vs.getD j 0

theorem digitBit_lt (k : Nat) (vs : List Nat) (b : Nat) : digitBit k vs b < 2 := symbolBit_lt _ _ _

theorem digitBit_drop {k : Nat} (hk : 0 < k) (vs : List Nat) (d b : Nat) :
    digitBit k (vs.drop d) b = digitBit k vs (k * d + b) := by
  rw [digitBit, digitBit, symbolBit, symbolBit, Nat.mul_add_div hk, Nat.mul_add_mod]
  simp [List.getD_eq_getElem?_getD]

theorem digitBit_take {k d b : Nat} (vs : List Nat) (h : b < k * d) : digitBit k (vs.take d) b = digitBit k vs b := by
  have hj : b / k < d := Nat.div_lt_of_lt_mul h
  simp only [digitBit, symbolBit, List.getD_eq_getElem?_getD, List.getElem?_take_of_lt hj]

/-- Digits 0 at the end add no bit that is set. -/
theorem digitBit_append_zeros (k : Nat) (vs : List Nat) (n : Nat) :
    digitBit k (vs ++ List.replicate n 0) = digitBit k vs := by
  have hget : (fun j => (vs ++ List.replicate n 0).getD j 0) = fun j => vs.getD j 0 := by
    funext j
    rcases Nat.lt_or_ge j vs.length with hj | hj
    · exact List.getD_append _ _ _ _ hj
    · rw [List.getD_append_right _ _ _ _ hj, List.getD_eq_default _ _ hj, List.getD_eq_getElem?_getD,
        List.getElem?_getD_replicate_default_eq]
  rw [digitBit, hget, digitBit]

theorem digitBit_of_le {k b : Nat} (hk : 0 < k) {vs : List Nat} (h : k * vs.length ≤ b) : digitBit k vs b = 0 := by
  have hj : vs.length ≤ b / k := (Nat.le_div_iff_mul_le hk).mpr (by rwa [Nat.mul_comm])
  rw [digitBit, symbolBit, List.getD_eq_default _ _ hj, Nat.zero_div]

/-- The digits that a sequence of bits makes have its bits, if it is 0 past them. -/
theorem digitBit_map_bitsFrom {k : Nat} (hk : 0 < k) {f : Nat → Nat} (hf : ∀ b, f b < 2) {count : Nat}
    (hend : ∀ b, k * count ≤ b → f b = 0) :
    digitBit k ((List.range count).map fun m => bitsFrom f (k * m) k) = f := by
  funext b
  rcases Nat.lt_or_ge b (k * count) with hb | hb
  · have hj : b / k < count := Nat.div_lt_of_lt_mul hb
    rw [← symbolBit_bitsFrom hk hf b, digitBit, symbolBit, symbolBit]
    simp [List.getD_eq_getElem?_getD, hj]
  · rw [hend b hb, digitBit_of_le hk (by simpa using hb)]

theorem ofDigits_append_singleton (k : Nat) (vs : List Nat) (v : Nat) :
    ofDigits k (vs ++ [v]) = ofDigits k vs * 2 ^ k + v := by
  rw [ofDigits, List.foldl_append]
  rfl

/-- Digits put together are the number their bits make. -/
theorem ofDigits_eq_bitsFrom {k : Nat} {vs : List Nat} (h : ∀ v ∈ vs, v < 2 ^ k) :
    ofDigits k vs = bitsFrom (digitBit k vs) 0 (k * vs.length) := by
  induction vs using List.reverseRecOn with
  | nil => rfl
  | append_singleton vs v ih =>
    have hfront : bitsFrom (digitBit k (vs ++ [v])) 0 (k * vs.length) = bitsFrom (digitBit k vs) 0 (k * vs.length) :=
      bitsFrom_congr fun e he => by
        rw [← digitBit_take (vs ++ [v]) (d := vs.length) (by omega), List.take_left]
    have hlast : (vs ++ [v]).getD vs.length 0 = v := by simp
    have hv : bitsFrom (digitBit k (vs ++ [v])) (k * vs.length) k = v := by
      rw [digitBit, bitsFrom_symbolBit (by rw [hlast]; exact h v (by simp)), hlast]
    rw [ofDigits_append_singleton, ih fun w hw => h w (List.mem_append_left _ hw), List.length_append,
      List.length_singleton, Nat.mul_succ, bitsFrom_add, Nat.zero_add, hfront, hv]

/-- A field of digits put together is made of the digits' bits. -/
theorem ofDigits_slice {k first count rest : Nat} {vs : List Nat} (h : ∀ v ∈ vs, v < 2 ^ k)
    (hlen : first + count + rest = k * vs.length) :
    ofDigits k vs / 2 ^ rest % 2 ^ count = bitsFrom (digitBit k vs) first count := by
  rw [ofDigits_eq_bitsFrom h, ← hlen, bitsFrom_slice (digitBit_lt k vs), Nat.zero_add]

/-! ### The bits of bytes -/

/-- Bit `b` of the bytes `bs`, counted MSB-first, 0 past their end (R176, R205). -/
def byteBit (bs : List Byte) : Nat → Nat := digitBit 8 (bs.map BitVec.toNat)

theorem byteBit_lt (bs : List Byte) (b : Nat) : byteBit bs b < 2 := digitBit_lt _ _ _

/-- The bits of byte `j` make the byte. -/
theorem bitsFrom_byteBit {bs : List Byte} {j : Nat} (h : j < bs.length) :
    bitsFrom (byteBit bs) (8 * j) 8 = bs[j].toNat := by
  have hj : (bs.map BitVec.toNat).getD j 0 = bs[j].toNat := by simp [h]
  rw [byteBit, digitBit, bitsFrom_symbolBit (by rw [hj]; exact bs[j].isLt), hj]

theorem ofBytesLittle_reverse (bs : List Byte) : ofBytesLittle bs.reverse = ofDigits 8 (bs.map BitVec.toNat) := by
  induction bs using List.reverseRecOn with
  | nil => rfl
  | append_singleton bs b ih =>
    rw [List.reverse_append, List.reverse_singleton, List.singleton_append, ofBytesLittle, ih, List.map_append,
      List.map_singleton, ofDigits_append_singleton]
    omega

/-- Bits of `val_big(bs)`: a field is made of the bytes' bits (R130). -/
theorem ofBytes_big_slice {bs : List Byte} {first count rest : Nat} (hlen : first + count + rest = 8 * bs.length) :
    ofBytes .big bs / 2 ^ rest % 2 ^ count = bitsFrom (byteBit bs) first count := by
  rw [ofBytes, ofBytesLittle_reverse, byteBit]
  refine ofDigits_slice (fun v hv => ?_) (by simpa using hlen)
  obtain ⟨b, -, rfl⟩ := List.mem_map.mp hv
  exact b.isLt

/-! ### The text encode writes -/

/-- A format whose blocks hold exactly the bits of their bytes, as both formats' do (R174, R203). -/
structure Radix.Packs (r : Radix) : Prop where
  bits_pos : 0 < r.bits
  bytes_pos : 0 < r.bytes
  block : r.bits * r.symbols = 8 * r.bytes

theorem base32_packs : base32.Packs := ⟨by decide, by decide, by decide⟩

theorem base64_packs : base64.Packs := ⟨by decide, by decide, by decide⟩

/-- Symbol `m` of the text encode writes for `bs` (R176, R178, R205, R208). -/
def symbolAt (r : Radix) (table bs : List Byte) (m : Nat) : Byte :=
  if r.bits * m < 8 * bs.length then table.getD (bitsFrom (byteBit bs) (r.bits * m) r.bits) 0#8 else padSymbol

/-- The symbols of the text that hold bits of `bs`; pads follow them (R178, R208). -/
def dataSymbols (r : Radix) (table bs : List Byte) : List Byte :=
  (List.range (ceilDiv (8 * bs.length) r.bits)).map fun m =>
    table.getD (bitsFrom (byteBit bs) (r.bits * m) r.bits) 0#8

theorem lt_ceilDiv_iff {a b m : Nat} (hb : 0 < b) : m < ceilDiv a b ↔ b * m < a := by
  rw [ceilDiv, Nat.lt_iff_add_one_le, Nat.le_div_iff_mul_le hb, Nat.add_mul, Nat.mul_comm m]
  omega

theorem le_mul_ceilDiv {a b : Nat} (hb : 0 < b) : a ≤ b * ceilDiv a b :=
  not_lt.mp (mt (lt_ceilDiv_iff hb).mpr (lt_irrefl _))

section
variable {r : Radix} (hr : r.Packs)
include hr

theorem Radix.Packs.symbols_pos : 0 < r.symbols := by
  have hblock := hr.block
  have hbytes := hr.bytes_pos
  rcases Nat.eq_zero_or_pos r.symbols with h | h
  · rw [h] at hblock
    omega
  · exact h

/-- A whole symbol of the first `n` blocks lies within their bytes' bits. -/
theorem Radix.Packs.symbol_le {m n : Nat} (h : m < r.symbols * n) : r.bits * m + r.bits ≤ 8 * (r.bytes * n) :=
  calc r.bits * m + r.bits = r.bits * (m + 1) := (Nat.mul_succ _ _).symm
    _ ≤ r.bits * (r.symbols * n) := Nat.mul_le_mul_left _ h
    _ = 8 * (r.bytes * n) := by rw [← Nat.mul_assoc, hr.block, Nat.mul_assoc]

/-- The symbols after a block are those of the bytes after it. -/
theorem symbolAt_drop (table : List Byte) {bs : List Byte} (m : Nat) :
    symbolAt r table (bs.drop r.bytes) m = symbolAt r table bs (r.symbols + m) := by
  have hshift : r.bits * (r.symbols + m) = 8 * r.bytes + r.bits * m := by rw [Nat.mul_add, hr.block]
  have hbits : bitsFrom (byteBit (bs.drop r.bytes)) (r.bits * m) r.bits =
      bitsFrom (byteBit bs) (r.bits * (r.symbols + m)) r.bits := bitsFrom_congr fun e _ => by
    rw [byteBit, List.map_drop, digitBit_drop (by decide), hshift, Nat.add_assoc, byteBit]
  have hend : r.bits * m < 8 * (bs.drop r.bytes).length ↔ r.bits * (r.symbols + m) < 8 * bs.length := by
    rw [hshift, List.length_drop]
    omega
  simp only [symbolAt, hbits, hend]

/-- The symbols of a block are made of its bytes. -/
theorem symbolAt_take (table : List Byte) {bs : List Byte} {m : Nat} (hm : m < r.symbols) :
    symbolAt r table (bs.take r.bytes) m = symbolAt r table bs m := by
  have hfit : r.bits * m + r.bits ≤ 8 * (r.bytes * 1) := hr.symbol_le (by rwa [Nat.mul_one])
  have hpos := hr.bits_pos
  have hbits : bitsFrom (byteBit (bs.take r.bytes)) (r.bits * m) r.bits =
      bitsFrom (byteBit bs) (r.bits * m) r.bits := bitsFrom_congr fun e he => by
    rw [byteBit, List.map_take, digitBit_take _ (by omega), byteBit]
  have hend : r.bits * m < 8 * (bs.take r.bytes).length ↔ r.bits * m < 8 * bs.length := by
    rw [List.length_take]
    omega
  simp only [symbolAt, hbits, hend]

/-- The number of a symbol in its group is a field of the group's number (R176, R205). -/
theorem bits_group {g : List Byte} (hg : g.length ≤ r.bytes) {m : Nat} (hm : m < r.symbols) :
    bits (ofBytes .big (g ++ List.replicate (r.bytes - g.length) 0#8)) (r.bits * (r.symbols - m) - 1)
      (r.bits * (r.symbols - 1 - m)) = bitsFrom (byteBit g) (r.bits * m) r.bits := by
  have hpos := hr.bits_pos
  have hlow : r.bits * (r.symbols - m) = r.bits * (r.symbols - 1 - m) + r.bits := by
    rw [← Nat.mul_succ]
    congr 1
    omega
  have hlen : r.bits * m + r.bits + r.bits * (r.symbols - 1 - m) = 8 * r.bytes := by
    rw [← hr.block, ← Nat.mul_succ, ← Nat.mul_add]
    congr 1
    omega
  have hzeros : byteBit (g ++ List.replicate (r.bytes - g.length) 0#8) = byteBit g := by
    rw [byteBit, List.map_append, List.map_replicate]
    exact digitBit_append_zeros 8 _ _
  rw [bits, hlow, show r.bits * (r.symbols - 1 - m) + r.bits - 1 + 1 - r.bits * (r.symbols - 1 - m) = r.bits by omega,
    ofBytes_big_slice (first := r.bits * m), hzeros]
  rw [hlen, List.length_append, List.length_replicate]
  omega

omit hr in
theorem map_symbolAt (hk : 0 < r.bits) (table : List Byte) {bs : List Byte} {count : Nat}
    (hcount : ceilDiv (8 * bs.length) r.bits ≤ count) :
    (List.range count).map (symbolAt r table bs) =
      dataSymbols r table bs ++ List.replicate (count - ceilDiv (8 * bs.length) r.bits) padSymbol := by
  have hend (m : Nat) : m < ceilDiv (8 * bs.length) r.bits ↔ r.bits * m < 8 * bs.length := lt_ceilDiv_iff hk
  conv_lhs => rw [← Nat.add_sub_cancel' hcount, List.range_add, List.map_append, List.map_map]
  congr 1
  · exact List.map_congr_left fun m hm => if_pos ((hend m).mp (List.mem_range.mp hm))
  · refine List.eq_replicate_iff.mpr ⟨by simp, fun c hc => ?_⟩
    obtain ⟨m, -, rfl⟩ := List.mem_map.mp hc
    exact if_neg (mt (hend _).mpr (by simp))

/-- A group's text by symbol (R176, R178, R205, R208). -/
theorem encodeGroup_eq (table : List Byte) {g : List Byte} (hg : g.length ≤ r.bytes) :
    encodeGroup r table g = (List.range r.symbols).map (symbolAt r table g) := by
  have hcount : ceilDiv (8 * g.length) r.bits ≤ r.symbols := ceilDiv_le hr.bits_pos (by rw [hr.block]; omega)
  rw [map_symbolAt hr.bits_pos table hcount, encodeGroup]
  congr 1
  refine List.map_congr_left fun m hm => ?_
  rw [bits_group hr hg ((List.mem_range.mp hm).trans_le hcount)]

theorem encodedLength_drop {bs : List Byte} (hx : bs ≠ []) :
    encodedLength r bs.length = r.symbols + encodedLength r (bs.drop r.bytes).length := by
  have hD := hr.bytes_pos
  have hcount := congrArg List.length (chunks_cons hD hx)
  rw [List.length_cons, length_chunks hD, length_chunks hD] at hcount
  rw [encodedLength, encodedLength, ceilDiv, ceilDiv, hcount]
  ring

/-- The text encode writes, by symbol (R176, R178, R205, R208). -/
theorem encodeText_eq (table bs : List Byte) :
    encodeText r table bs = (List.range (encodedLength r bs.length)).map (symbolAt r table bs) := by
  have hD := hr.bytes_pos
  rw [encodeText]
  induction bs using chunks_induction hD with
  | hnil => simp [encodedLength, ceilDiv, Nat.div_eq_of_lt (Nat.sub_lt hD Nat.one_pos)]
  | hcons bs hx ih =>
    rw [chunks_cons hD hx, List.flatMap_cons, ih, encodeGroup_eq hr table (List.length_take_le _ _),
      encodedLength_drop hr hx, List.range_add, List.map_append, List.map_map]
    congr 1
    · exact List.map_congr_left fun m hm => symbolAt_take hr table (List.mem_range.mp hm)
    · exact List.map_congr_left fun m _ => symbolAt_drop hr table m

theorem ceilDiv_le_encodedLength (n : Nat) : ceilDiv (8 * n) r.bits ≤ encodedLength r n := by
  apply ceilDiv_le hr.bits_pos
  rw [encodedLength, ← Nat.mul_assoc, hr.block, Nat.mul_assoc]
  exact Nat.mul_le_mul_left 8 (le_mul_ceilDiv hr.bytes_pos)

/-- The text encode writes is its data symbols and its pads (R178, R208). -/
theorem encodeText_eq_append (table bs : List Byte) :
    encodeText r table bs = dataSymbols r table bs ++
      List.replicate (encodedLength r bs.length - ceilDiv (8 * bs.length) r.bits) padSymbol := by
  rw [encodeText_eq hr, map_symbolAt hr.bits_pos table (ceilDiv_le_encodedLength hr _)]

end

/-! ### Pads -/

/-- Pads after a symbol that is no pad are the text's pad count (R173, R202). -/
theorem padCount_append_replicate {t : List Byte} (h : ∀ c ∈ t.getLast?, c ≠ padSymbol) (pad : Nat) :
    padCount (t ++ List.replicate pad padSymbol) = pad := by
  have hrest : t.reverse.takeWhile (· == padSymbol) = [] := by
    rw [← List.head?_eq_none_iff, List.head?_takeWhile, List.head?_reverse, Option.filter_eq_none_iff]
    simpa using h
  rw [padCount, List.reverse_append, List.reverse_replicate,
    List.takeWhile_append_of_pos fun c hc => by simp [List.eq_of_mem_replicate hc], hrest, List.append_nil,
    List.length_replicate]

/-- The longest run of `'='` at a text's end is its pad count (R173, R202). -/
theorem padCount_eq {t : List Byte} {pad : Nat} (hpad : pad ≤ t.length)
    (hrun : ∀ k (hk : k < t.length), t.length - pad ≤ k → t[k] = padSymbol)
    (hend : ∀ h : pad < t.length, t[t.length - pad - 1] ≠ padSymbol) : padCount t = pad := by
  have hpads : t.drop (t.length - pad) = List.replicate pad padSymbol := by
    refine List.eq_replicate_iff.mpr ⟨by rw [List.length_drop]; omega, fun c hc => ?_⟩
    obtain ⟨k, hk, rfl⟩ := List.mem_iff_getElem.mp hc
    rw [List.getElem_drop]
    exact hrun _ _ (Nat.le_add_right _ _)
  have hlast : ∀ c ∈ (t.take (t.length - pad)).getLast?, c ≠ padSymbol := by
    intro c hc
    rw [List.getLast?_eq_getElem?, List.length_take, Nat.min_eq_left (Nat.sub_le _ _), Option.mem_def,
      List.getElem?_eq_some_iff] at hc
    obtain ⟨hlt, rfl⟩ := hc
    rw [List.length_take] at hlt
    rw [List.getElem_take]
    exact hend (by omega)
  rw [← List.take_append_drop (t.length - pad) t, hpads]
  exact padCount_append_replicate hlast pad

theorem padCount_le (t : List Byte) : padCount t ≤ t.length := by
  rw [padCount, ← List.length_reverse (as := t)]
  exact List.Sublist.length_le (List.takeWhile_sublist _)

/-- The validity test (R179, R209). -/
theorem radixValid_iff {r : Radix} {table t : List Byte} :
    radixValid r table t = true ↔ t.length = 0 ∨ (t.length % r.symbols = 0 ∧ padCount t ≤ r.maxPad ∧
      ∀ c ∈ t.take (t.length - padCount t), c ∈ table) := by
  rw [radixValid]
  split_ifs with hempty hblocks hpads
  · simp [hempty]
  · simp [hempty, hblocks]
  · simp [hempty, hpads.not_ge]
  · simp [hempty, not_not.mp hblocks, not_lt.mp hpads, isSymbol, List.any_beq']

/-! ### Values of symbols -/

/-- The value of a symbol is the least index that holds it (R171, R201). -/
theorem symbolValue_eq (table : List Byte) (c : Byte) :
    symbolValue table c = if c ∈ table then some (table.idxOf c) else none := by
  have hlt : table.findIdx (· == c) < table.length ↔ c ∈ table := List.idxOf_lt_length_iff
  rw [symbolValue, List.findIdx?_eq_guard_findIdx_lt, Option.guard]
  simp only [hlt, decide_eq_true_eq]
  rfl

theorem symbolValue_lt {table : List Byte} {c : Byte} {v : Nat} (h : symbolValue table c = some v) :
    v < table.length := by
  rw [symbolValue_eq] at h
  split_ifs at h with hc
  cases h
  exact List.idxOf_lt_length_iff.mpr hc

/-- In a distinct table every entry has its index as value (R171, R201). -/
theorem symbolValue_getD {table : List Byte} (hnodup : table.Nodup) {v : Nat} (h : v < table.length) :
    symbolValue table (table.getD v 0#8) = some v := by
  rw [List.getD_eq_getElem _ _ h, symbolValue_eq, if_pos (List.getElem_mem h), hnodup.idxOf_getElem]

/-- Every symbol of the Crockford table folds to its index (R172). -/
theorem crockfordValue_getD {v : Nat} (h : v < 32) : crockfordValue (tableCrockford.getD v 0#8) = some v := by
  revert v
  decide

theorem crockfordValue_lt {c : Byte} {v : Nat} (h : crockfordValue c = some v) : v < 32 := by
  rw [crockfordValue] at h
  split_ifs at h
  · cases h
    omega
  · cases h
    decide
  · cases h
    decide
  · exact symbolValue_lt h

/-- A text whose symbols all have a value has the list of these. -/
theorem valuesOf_of_isSome {value : Byte → Option Nat} {cs : List Byte} (h : ∀ c ∈ cs, (value c).isSome = true) :
    valuesOf value cs = some (cs.map fun c => (value c).getD 0) := by
  induction cs with
  | nil => rfl
  | cons c cs ih =>
    obtain ⟨hc, hcs⟩ := List.forall_mem_cons.mp h
    obtain ⟨v, hv⟩ := Option.isSome_iff_exists.mp hc
    exact valuesOf_cons_eq_some.mpr ⟨v, _, hv, ih hcs, by simp [hv]⟩

/-! ### The bytes decode writes -/

/-- Byte `m` of the bytes that the `k`-bit values `vs` make (R176, R205). -/
def unpackedByte (k : Nat) (vs : List Nat) (m : Nat) : Byte := BitVec.ofNat 8 (bitsFrom (digitBit k vs) (8 * m) 8)

theorem toNat_unpackedByte (k : Nat) (vs : List Nat) (m : Nat) :
    (unpackedByte k vs m).toNat = bitsFrom (digitBit k vs) (8 * m) 8 := by
  rw [unpackedByte, BitVec.toNat_ofNat, Nat.mod_eq_of_lt (bitsFrom_lt (digitBit_lt k vs) _ 8)]

section
variable {r : Radix} (hr : r.Packs)
include hr

/-- The bytes of a block are made of its values' bits (R176, R205). -/
theorem toBytes_block {vs : List Nat} (hvs : ∀ v ∈ vs, v < 2 ^ r.bits) (hlen : vs.length = r.symbols) :
    toBytes .big r.bytes (ofDigits r.bits vs) = (List.range r.bytes).map (unpackedByte r.bits vs) := by
  refine List.ext_getElem (by simp) fun i hi _ => BitVec.eq_of_toNat_eq ?_
  rw [length_toBytes] at hi
  have hplace : bytePlace .big r.bytes (r.bytes - 1 - i) = i := by
    rw [bytePlace]
    omega
  have hbyte := toNat_getElem_toBytes (order := .big) (n := r.bytes) (v := ofDigits r.bits vs) (k := r.bytes - 1 - i)
    (by omega) (by rw [hplace, length_toBytes]; exact hi)
  simp only [hplace] at hbyte
  rw [hbyte, List.getElem_map, List.getElem_range, toNat_unpackedByte,
    ← ofDigits_slice (rest := 8 * (r.bytes - 1 - i)) hvs (by rw [hlen, hr.block]; omega), Nat.pow_mul]
  rfl

/-- Blocks of values make the bytes of all their bits (R176, R205). -/
theorem blockBytes_eq {vs : List Nat} (hvs : ∀ v ∈ vs, v < 2 ^ r.bits) {n : Nat} (hlen : vs.length = r.symbols * n) :
    blockBytes r vs = (List.range (r.bytes * n)).map (unpackedByte r.bits vs) := by
  have hB := hr.symbols_pos
  rw [blockBytes]
  induction n generalizing vs with
  | zero =>
    obtain rfl := List.eq_nil_of_length_eq_zero hlen
    rfl
  | succ n ih =>
    rw [Nat.mul_succ] at hlen
    have hne : vs ≠ [] := List.length_pos_iff.mp (by omega)
    have hblock := toBytes_block hr (fun v hv => hvs v (List.mem_of_mem_take hv))
      (by rw [List.length_take]; omega : (vs.take r.symbols).length = r.symbols)
    have hrest := ih (fun v hv => hvs v (List.mem_of_mem_drop hv))
      (by rw [List.length_drop]; omega : (vs.drop r.symbols).length = r.symbols * n)
    rw [chunks_cons hB hne, List.flatMap_cons, hblock, hrest, Nat.mul_succ, Nat.add_comm (r.bytes * n), List.range_add,
      List.map_append, List.map_map]
    congr 1
    · refine List.map_congr_left fun m hm => congrArg (BitVec.ofNat 8) (bitsFrom_congr fun e he => digitBit_take vs ?_)
      rw [List.mem_range] at hm
      rw [hr.block]
      omega
    · refine List.map_congr_left fun m _ => congrArg (BitVec.ofNat 8) (bitsFrom_congr fun e _ => ?_)
      rw [digitBit_drop hr.bits_pos, hr.block]
      congr 1
      ring

end

/-- The values of a text, its pads valued 0 (R181, R211). -/
def textValues (value : Byte → Option Nat) (t : List Byte) : List Nat :=
  (t.take (t.length - padCount t)).map (fun c => (value c).getD 0) ++ List.replicate (padCount t) 0

theorem length_textValues (value : Byte → Option Nat) (t : List Byte) : (textValues value t).length = t.length := by
  have := padCount_le t
  simp only [textValues, List.length_append, List.length_map, List.length_take, List.length_replicate]
  omega

/-- The values of a text are digits if the values of symbols are. -/
theorem lt_of_mem_textValues {value : Byte → Option Nat} {k : Nat} (hvalue : ∀ c v, value c = some v → v < 2 ^ k)
    {t : List Byte} {v : Nat} (h : v ∈ textValues value t) : v < 2 ^ k := by
  rcases List.mem_append.mp h with h | h
  · obtain ⟨c, -, rfl⟩ := List.mem_map.mp h
    cases hc : value c with
    | none => exact Nat.two_pow_pos k
    | some v => exact hvalue c v hc
  · rw [List.eq_of_mem_replicate h]
    exact Nat.two_pow_pos k

/-- A text of whole blocks decodes to the bytes of its values' bits (R181, R211). -/
theorem decodeText_eq {r : Radix} (hr : r.Packs) {value : Byte → Option Nat}
    (hvalue : ∀ c v, value c = some v → v < 2 ^ r.bits) {t : List Byte} {n length : Nat}
    (ht : t.length = r.symbols * n) (hlength : length ≤ r.bytes * n)
    (hsome : ∀ c ∈ t.take (t.length - padCount t), (value c).isSome = true) :
    decodeText r value t length = some ((List.range length).map (unpackedByte r.bits (textValues value t))) := by
  have hbytes := blockBytes_eq hr (fun v hv => lt_of_mem_textValues hvalue hv) ((length_textValues value t).trans ht)
  rw [decodeText, valuesOf_of_isSome hsome, Option.map_some, ← textValues, hbytes, ← List.map_take, List.take_range,
    Nat.min_eq_left hlength]

/-! ### Decode of encode -/

section
variable {r : Radix} {table : List Byte} (hr : r.Packs) (htable : table.length = 2 ^ r.bits)
include htable

theorem mem_of_mem_dataSymbols {bs : List Byte} {c : Byte} (h : c ∈ dataSymbols r table bs) : c ∈ table := by
  obtain ⟨m, -, rfl⟩ := List.mem_map.mp h
  have hlt : bitsFrom (byteBit bs) (r.bits * m) r.bits < table.length := htable ▸ bitsFrom_lt (byteBit_lt bs) _ _
  rw [List.getD_eq_getElem _ _ hlt]
  exact List.getElem_mem hlt

include hr

/-- The pads of the text are those that encode wrote (R182, R212). -/
theorem padCount_encodeText (hpad : padSymbol ∉ table) (bs : List Byte) :
    padCount (encodeText r table bs) = encodedLength r bs.length - ceilDiv (8 * bs.length) r.bits := by
  rw [encodeText_eq_append hr]
  refine padCount_append_replicate (fun c hc heq => hpad ?_) _
  exact heq ▸ mem_of_mem_dataSymbols htable (List.mem_of_getLast? hc)

theorem take_encodeText (hpad : padSymbol ∉ table) (bs : List Byte) :
    (encodeText r table bs).take ((encodeText r table bs).length - padCount (encodeText r table bs)) =
      dataSymbols r table bs := by
  rw [padCount_encodeText hr htable hpad, encodeText_eq_append hr]
  exact List.take_left' (by simp)

/-- The text encode writes is valid if its pads are within the format's maximum (R182, R212). -/
theorem radixValid_encodeText (hpad : padSymbol ∉ table) {bs : List Byte}
    (hmax : padCount (encodeText r table bs) ≤ r.maxPad) : radixValid r table (encodeText r table bs) = true := by
  have hlen : (encodeText r table bs).length = encodedLength r bs.length := by simp [encodeText_eq hr]
  refine radixValid_iff.mpr (.inr ⟨?_, hmax, fun c hc => ?_⟩)
  · rw [hlen, encodedLength, Nat.mul_mod_right]
  · rw [take_encodeText hr htable hpad] at hc
    exact mem_of_mem_dataSymbols htable hc

/-- The values of the text's symbols hold the bits of the bytes it was written for. -/
theorem digitBit_textValues_encodeText (hpad : padSymbol ∉ table) {value : Byte → Option Nat}
    (hvalue : ∀ v, v < 2 ^ r.bits → value (table.getD v 0#8) = some v) (bs : List Byte) :
    digitBit r.bits (textValues value (encodeText r table bs)) = byteBit bs := by
  have hdata : (dataSymbols r table bs).map (fun c => (value c).getD 0) =
      (List.range (ceilDiv (8 * bs.length) r.bits)).map fun m => bitsFrom (byteBit bs) (r.bits * m) r.bits := by
    rw [dataSymbols, List.map_map]
    refine List.map_congr_left fun m _ => ?_
    rw [Function.comp_apply, hvalue _ (bitsFrom_lt (byteBit_lt bs) _ _), Option.getD_some]
  rw [textValues, digitBit_append_zeros, take_encodeText hr htable hpad, hdata]
  refine digitBit_map_bitsFrom hr.bits_pos (byteBit_lt bs) fun b hb => digitBit_of_le (by decide) ?_
  rw [List.length_map]
  exact (le_mul_ceilDiv hr.bits_pos).trans hb

/-- Decode gives back the bytes of the text that encode wrote (R182, R212). -/
theorem decodeText_encodeText (hpad : padSymbol ∉ table) {value : Byte → Option Nat}
    (hlt : ∀ c v, value c = some v → v < 2 ^ r.bits)
    (hvalue : ∀ v, v < 2 ^ r.bits → value (table.getD v 0#8) = some v) (bs : List Byte) :
    decodeText r value (encodeText r table bs) bs.length = some bs := by
  have hlen : (encodeText r table bs).length = r.symbols * ceilDiv bs.length r.bytes := by
    simp [encodeText_eq hr, encodedLength]
  have hsome : ∀ c ∈ dataSymbols r table bs, (value c).isSome = true := fun c hc => by
    obtain ⟨m, -, rfl⟩ := List.mem_map.mp hc
    rw [hvalue _ (bitsFrom_lt (byteBit_lt bs) _ _), Option.isSome_some]
  rw [decodeText_eq hr hlt hlen (le_mul_ceilDiv hr.bytes_pos) (by rwa [take_encodeText hr htable hpad])]
  refine congrArg some (List.ext_getElem (by simp) fun m _ hm => BitVec.eq_of_toNat_eq ?_)
  rw [List.getElem_map, List.getElem_range, toNat_unpackedByte,
    digitBit_textValues_encodeText hr htable hpad hvalue, bitsFrom_byteBit hm]

end

/-! ### base32 -/

/-- The three built-in tables of R170 are distinct tables of 32 symbols without `'='`. -/
theorem builtinTable_b32 : ∀ alpha ∈ [AlphaSel.b32Rfc4648, .b32Hex, .b32Crockford],
    (builtinTable alpha).length = 32 ∧ (builtinTable alpha).Nodup ∧ padSymbol ∉ builtinTable alpha := by
  decide

theorem length_encodeText_b32 (table bs : List Byte) :
    (encodeText base32 table bs).length = 8 * ((bs.length + 4) / 5) :=
  length_encodeText_base32 table bs

/-- The pads of a base32 text fill the last block (R178, R182). -/
theorem padCount_encodeText_b32 {table : List Byte} (htable : table.length = 32) (hpad : padSymbol ∉ table)
    (bs : List Byte) :
    padCount (encodeText base32 table bs) = 8 * ((bs.length + 4) / 5) - (8 * bs.length + 4) / 5 :=
  padCount_encodeText base32_packs htable hpad bs

/-- The pads by the bytes of the last block (R178, R182). -/
theorem padCount_encodeText_b32_getD {table : List Byte} (htable : table.length = 32) (hpad : padSymbol ∉ table)
    (bs : List Byte) :
    padCount (encodeText base32 table bs) = [0, 6, 4, 3, 1].getD (bs.length % 5) 0 := by
  have hcases : bs.length % 5 = 0 ∨ bs.length % 5 = 1 ∨ bs.length % 5 = 2 ∨ bs.length % 5 = 3 ∨ bs.length % 5 = 4 := by
    omega
  rw [padCount_encodeText_b32 htable hpad]
  rcases hcases with h | h | h | h | h <;> rw [h] <;> simp only [List.getD_cons_zero, List.getD_cons_succ] <;> omega

/-- The text written for `n` bytes has decoded length `n` (R175, R182). -/
theorem decodedLength32_encodeText {table : List Byte} (htable : table.length = 32) (hpad : padSymbol ∉ table)
    (bs : List Byte) : decodedLength32 (encodeText base32 table bs) = some bs.length := by
  rw [decodedLength32, length_encodeText_b32, padCount_encodeText_b32 htable hpad, last32]
  split_ifs with hempty hblocks hpure hmany
  · exact congrArg some (by omega)
  · exact absurd (Nat.mul_mod_right 8 _) hblocks
  · exact congrArg some (by omega)
  · omega
  · exact congrArg some (by omega)

/-- Settles O42: the text is the symbols of the bytes' bits followed by pads, so the values that decode reads hold the
bytes' bits again. -/
theorem base32RoundTrip : Obligations.Base32RoundTrip := by
  refine ⟨?_, fun s => rfl, builtinTable_b32, fun table bs htable hnodup hpad => ?_⟩
  · have hrows : ∀ row ∈ [(AlphaSel.b32Rfc4648, "ABCDEFGHIJKLMNOPQRSTUVWXYZ234567"),
        (.b32Hex, "0123456789ABCDEFGHIJKLMNOPQRSTUV"), (.b32Crockford, "0123456789ABCDEFGHJKMNPQRSTVWXYZ")],
        row.1 ≠ .custom ∧ (builtinTable row.1).map BitVec.toNat = row.2.toList.map Char.toNat := by
      decide
    intro row hrow
    obtain ⟨hbuiltin, hsymbols⟩ := hrows row hrow
    exact ⟨hsymbols, fun s => if_neg hbuiltin⟩
  · have hmax : padCount (encodeText base32 table bs) ≤ 6 := by
      rw [padCount_encodeText_b32 htable hpad]
      omega
    refine ⟨length_encodeText_b32 table bs, padCount_encodeText_b32_getD htable hpad bs,
      radixValid_encodeText base32_packs htable hpad hmax, decodedLength32_encodeText htable hpad bs,
      decodeText_encodeText base32_packs htable hpad (fun c v hv => (symbolValue_lt hv).trans_eq htable)
        (fun v hv => symbolValue_getD hnodup (hv.trans_eq htable.symm)) bs, ?_⟩
    rintro rfl
    exact decodeText_encodeText base32_packs htable hpad (fun c v hv => crockfordValue_lt hv)
      (fun v hv => crockfordValue_getD hv) bs

/-! ### What the base32 and base64 commands do -/

theorem legalB32_of_mem : ∀ alpha ∈ [AlphaSel.custom, .b32Rfc4648, .b32Hex, .b32Crockford], legalB32 alpha = true := by
  decide

theorem legalB64_of_mem : ∀ alpha ∈ [AlphaSel.custom, .b64Std, .b64Url], legalB64 alpha = true := by
  decide

/-- The bits of the source are those of its bytes (R176, R205). -/
theorem byteBit_srcBytes (s : State) : byteBit s.srcBytes = srcBit s := by
  funext b
  rw [srcBit]
  split_ifs with hb
  · have hj : b / 8 < s.snap.n := Nat.div_lt_of_lt_mul hb
    rw [byteBit, digitBit, symbolBit]
    simp [List.getD_eq_getElem?_getD, hj, State.getElem_srcBytes]
  · exact digitBit_of_le (by decide) (by simpa using hb)

/-- The bytes at the front of the source, by number. -/
theorem State.forall_mem_take_srcBytes {s : State} {m : Nat} {P : Byte → Prop} :
    (∀ c ∈ s.srcBytes.take (s.srcBytes.length - m), P c) ↔ ∀ k, k < s.snap.n - m → P (srcByte s k) := by
  simp [List.forall_mem_iff_getElem, State.getElem_srcBytes]

/-- The pad count of the source is the longest run of `'='` at its end (R173, R202). -/
theorem padCount_srcBytes {s : State} {pad : Nat}
    (h : pad ≤ s.snap.n ∧ (∀ k, s.snap.n - pad ≤ k → k < s.snap.n → srcByte s k = 0x3D#8) ∧
      (pad < s.snap.n → srcByte s (s.snap.n - pad - 1) ≠ 0x3D#8)) : padCount s.srcBytes = pad := by
  obtain ⟨hpad, hrun, hend⟩ := h
  refine padCount_eq (by simpa using hpad) (fun k hk hle => ?_) fun hlt => ?_
  · rw [State.getElem_srcBytes]
    rw [State.length_srcBytes] at hk hle
    exact hrun k hle hk
  · simp only [State.getElem_srcBytes, State.length_srcBytes] at hlt ⊢
    exact hend hlt

section
variable {s : State} {i : Instr} {r : Radix} {alpha : AlphaSel}

/-- B32_ENCODE on buffers that pass: the checks of the encoded length are left (R178). -/
theorem exec_b32Encode (hlegal : legalB32 alpha = true) (hb : BuffersPass (.b32Encode alpha) s.snap) :
    exec (.b32Encode alpha) s =
      checked s.fail [overflowCheck (encodedLength base32 s.snap.n),
          capacityCheck s.snap.capacity (encodedLength base32 s.snap.n)]
        (.next ((s.putDst (encodeText base32 (s.table alpha 32) s.srcBytes)).finish .ok 0 0)) := by
  simp only [exec, execB32Encode, hlegal]
  exact checked_of_buffersPass hb _ _

/-- B64_ENCODE on buffers that pass: the checks of the encoded length are left (R208). -/
theorem exec_b64Encode (hlegal : legalB64 alpha = true) (hb : BuffersPass (.b64Encode alpha) s.snap) :
    exec (.b64Encode alpha) s =
      checked s.fail [overflowCheck (encodedLength base64 s.snap.n),
          capacityCheck s.snap.capacity (encodedLength base64 s.snap.n)]
        (.next ((s.putDst (encodeText base64 (s.table alpha 64) s.srcBytes)).finish .ok 0 0)) := by
  simp only [exec, execB64Encode, hlegal]
  exact checked_of_buffersPass hb _ _

theorem BuffersPass.dst_inRange (hb : BuffersPass i s.snap) (hdst : dstSize i = 1) :
    (s.snap.dst 1).outOfRange = false := by
  obtain ⟨-, -, -, -, hrange, -⟩ := hb
  rwa [dstRange, hdst] at hrange

/-- With room, encode stores the symbols of the source's bits, and pads (R174, R176, R178, R203, R205, R208). -/
theorem exec_encode_of_room {table : List Byte} (hr : r.Packs) (hm : s.mem.wf = true)
    (hrange : (s.snap.dst 1).outOfRange = false)
    (hexec : exec i s = checked s.fail [overflowCheck (encodedLength r s.snap.n),
        capacityCheck s.snap.capacity (encodedLength r s.snap.n)]
      (.next ((s.putDst (encodeText r table s.srcBytes)).finish .ok 0 0)))
    (hroom : encodedLength r s.snap.n ≤ s.snap.capacity) :
    ∃ t, exec i s = .next t ∧ Finished s t .ok 0 0 ∧ OperandsKept s t ∧
      (∀ m, m < encodedLength r s.snap.n → t.mem.read (dstAt s + m) =
        if r.bits * m < 8 * s.snap.n then table.getD (bitsFrom (srcBit s) (r.bits * m) r.bits) 0#8 else padSymbol) ∧
      KeptOutside s t (dstAt s) (encodedLength r s.snap.n) := by
  have hfits : encodedLength r s.snap.n < 2 ^ 64 := hroom.trans_lt s.snap.regs.dstLen.isLt
  have htext := encodeText_eq hr table s.srcBytes
  rw [State.length_srcBytes] at htext
  have hlen : (encodeText r table s.srcBytes).length = encodedLength r s.snap.n := by simp [htext]
  obtain ⟨hfinished, hoperands, hwrote⟩ := stored_putDst hm hrange (hlen ▸ hroom)
  refine ⟨_, hexec.trans (checked_of_pass ?_), hfinished, hoperands, fun m hlt => ?_, hlen ▸ hwrote.2⟩
  · simp [overflowCheck, capacityCheck, hroom.not_gt, hfits.not_ge]
  · rw [dstAt, hwrote.read (hlen ▸ hlt)]
    simp only [htext, List.getElem_map, List.getElem_range, symbolAt, byteBit_srcBytes, State.length_srcBytes]

/-- VALID on a source and an alphabet that pass, at a legal ALPHA, passes its checks (R179, R209). -/
theorem checked_valid_of_buffersPass (hb : BuffersPass i s.snap) (e : Result) :
    checked s.fail [nullCheck (srcRange i s.snap), nullCheck (alphabetOf i s.snap), argumentCheck false,
      rangeCheck (srcRange i s.snap), rangeCheck (alphabetOf i s.snap)] e = e := by
  obtain ⟨hsrc, -, halpha, hsrc', -, halpha', -⟩ := hb
  exact checked_of_pass (by simp [firstFailure_eq_none, hsrc, halpha, hsrc', halpha'])

/-- B32_VALID on a source and an alphabet that pass reports the test (R179). -/
theorem exec_b32Valid (hlegal : legalB32 alpha = true) (hb : BuffersPass (.b32Valid alpha) s.snap) :
    exec (.b32Valid alpha) s = .next (s.finish .ok (radixValid base32 (s.table alpha 32) s.srcBytes).toNat 0) := by
  simp only [exec, execB32Valid, hlegal]
  exact checked_valid_of_buffersPass hb _

/-- B64_VALID on a source and an alphabet that pass reports the test (R209). -/
theorem exec_b64Valid (hlegal : legalB64 alpha = true) (hb : BuffersPass (.b64Valid alpha) s.snap) :
    exec (.b64Valid alpha) s = .next (s.finish .ok (radixValid base64 (s.table alpha 64) s.srcBytes).toNat 0) := by
  simp only [exec, execB64Valid, hlegal]
  exact checked_valid_of_buffersPass hb _

/-- The result of a validity test, by the source's bytes (R179, R209). -/
theorem radixValid_srcBytes_iff {table : List Byte} {pad : Nat} (hpad : padCount s.srcBytes = pad) :
    (radixValid r table s.srcBytes).toNat = 1 ↔ s.snap.n = 0 ∨ (s.snap.n % r.symbols = 0 ∧ pad ≤ r.maxPad ∧
      ∀ k, k < s.snap.n - pad → srcByte s k ∈ table) := by
  rw [Bool.toNat_eq_one, radixValid_iff, hpad, State.forall_mem_take_srcBytes (P := (· ∈ table)),
    State.length_srcBytes]

/-- The decoded length of a format with `blockSize` symbols in a block and at most `maxPad` pads, as reported for a
source with `pad` pads; `length` is that of a text neither empty nor pure padding (R175, R180, R204, R210). -/
theorem radixDecodedLength_reports {decodedLength : List Byte → Option Nat} {blockSize maxPad pad length : Nat}
    (hnull : (s.snap.src 1).isNull = false) (hrange : (s.snap.src 1).outOfRange = false)
    (hlength : decodedLength s.srcBytes =
      if s.snap.n % blockSize ≠ 0 then none else if pad = s.snap.n then some 0
      else if maxPad < pad then none else some length) :
    ∃ t, radixDecodedLength decodedLength s = .next t ∧
      (s.snap.n % blockSize ≠ 0 → FailedCleanly s t .invalidArgument 0) ∧
      (s.snap.n % blockSize = 0 → pad = s.snap.n → ReadsOnly s t 0 0) ∧
      (s.snap.n % blockSize = 0 → pad < s.snap.n → maxPad < pad → FailedCleanly s t .invalidArgument 0) ∧
      (s.snap.n % blockSize = 0 → pad < s.snap.n → pad ≤ maxPad → ReadsOnly s t length 0) := by
  have hnone (h : decodedLength s.srcBytes = none) :
      radixDecodedLength decodedLength s = .next (s.fail .invalidArgument) :=
    checked_of_fail (by simp [nullCheck, rangeCheck, argumentCheck, hnull, hrange, h])
  have hsome {d : Nat} (h : decodedLength s.srcBytes = some d) :
      radixDecodedLength decodedLength s = .next (s.finish .ok d 0) := by
    rw [radixDecodedLength, checked_of_pass (by simp [nullCheck, rangeCheck, argumentCheck, hnull, hrange, h]), h,
      Option.getD_some]
  split_ifs at hlength with hblocks hpure hmany
  · exact ⟨_, hnone hlength, fun _ => failedCleanly_fail s _, fun h => absurd h hblocks, fun h => absurd h hblocks,
      fun h => absurd h hblocks⟩
  · exact ⟨_, hsome hlength, fun h => absurd h hblocks, fun _ _ => readsOnly_finish s _ 0,
      fun _ h => absurd hpure h.ne, fun _ h => absurd hpure h.ne⟩
  · exact ⟨_, hnone hlength, fun h => absurd h hblocks, fun _ h => absurd h hpure, fun _ _ _ => failedCleanly_fail s _,
      fun _ _ h => absurd hmany h.not_gt⟩
  · exact ⟨_, hsome hlength, fun h => absurd h hblocks, fun _ h => absurd h hpure, fun _ _ h => absurd h hmany,
      fun _ _ _ => readsOnly_finish s _ 0⟩

/-- Decode on buffers that pass, of a text with a decoded length that fits, passes its other checks (R181, R211). -/
theorem checked_decode_of_room {blockSize need : Nat} {decLen : Option Nat} (hb : BuffersPass i s.snap)
    (hblocks : s.snap.n % blockSize = 0) (hneed : decLen = some need) (hroom : need ≤ s.snap.capacity) (e : Result) :
    checked s.fail (legalBufferChecks i s.snap ++ [argumentCheck (decide (s.snap.n % blockSize ≠ 0)),
      argumentCheck decLen.isNone, capacityCheck s.snap.capacity (decLen.getD 0)]) e = e := by
  rw [checked_of_buffersPass hb]
  exact checked_of_pass (by simp [argumentCheck, capacityCheck, hblocks, hneed, hroom])

/-- B32_DECODE of a text with a decoded length that fits (R181). -/
theorem exec_b32Decode_of_room {need : Nat} (hlegal : legalB32 alpha = true)
    (hb : BuffersPass (.b32Decode alpha) s.snap) (hneed : decodedLength32 s.srcBytes = some need)
    (hroom : need ≤ s.snap.capacity) :
    exec (.b32Decode alpha) s =
      if need = 0 then .next (s.finish .ok 0 0)
      else match decodeText base32 (b32Value alpha (s.table alpha 32)) s.srcBytes need with
        | none => .fault .undefinedInput
        | some out => .next ((s.putDst out).finish .ok 0 0) := by
  have hblocks : s.snap.n % 8 = 0 := by simpa [hneed] using length_mod_of_decodedLength32 (t := s.srcBytes)
  have hpass := checked_decode_of_room hb hblocks hneed hroom
  rw [hneed] at hpass
  simp only [exec, execB32Decode, hlegal, radixDecode, hneed]
  exact hpass _

/-- The values of the source's symbols, by number (R181, R211). -/
theorem digitBit_textValues_srcBytes (k : Nat) (value : Byte → Option Nat) :
    digitBit k (textValues value s.srcBytes) = symbolBit k fun j =>
      if j < s.snap.n - padCount s.srcBytes then (value (srcByte s j)).getD 0 else 0 := by
  rw [textValues, digitBit_append_zeros, digitBit]
  congr 1
  funext j
  split_ifs with hj
  · simp [List.getD_eq_getElem?_getD, hj, State.getElem_srcBytes]
  · exact List.getD_eq_default _ _ (by simpa using hj)

/-- Decode of a text whose symbols before the pads have values stores the bytes of the values' bits (R181, R211). -/
theorem exec_decode_of_values {value : Byte → Option Nat} {need : Nat} (hr : r.Packs) (hm : s.mem.wf = true)
    (hrange : (s.snap.dst 1).outOfRange = false) (hroom : need ≤ s.snap.capacity)
    (hexec : ∀ out, decodeText r value s.srcBytes need = some out →
      exec i s = .next ((s.putDst out).finish .ok 0 0))
    (hvalue : ∀ c v, value c = some v → v < 2 ^ r.bits) (hblocks : s.snap.n % r.symbols = 0)
    (hneed : need ≤ r.bytes * (s.snap.n / r.symbols))
    (hsome : ∀ k, k < s.snap.n - padCount s.srcBytes → (value (srcByte s k)).isSome = true) :
    ∃ t, exec i s = .next t ∧ Finished s t .ok 0 0 ∧ OperandsKept s t ∧
      (∀ m, m < need → (t.mem.read (dstAt s + m)).toNat = bitsFrom (symbolBit r.bits fun k =>
        if k < s.snap.n - padCount s.srcBytes then (value (srcByte s k)).getD 0 else 0) (8 * m) 8) ∧
      KeptOutside s t (dstAt s) need := by
  have hwhole : s.srcBytes.length = r.symbols * (s.snap.n / r.symbols) := by
    rw [State.length_srcBytes, Nat.mul_div_cancel' (Nat.dvd_of_mod_eq_zero hblocks)]
  have hout := decodeText_eq hr hvalue hwhole hneed
    (State.forall_mem_take_srcBytes (P := fun c => (value c).isSome = true).mpr hsome)
  have hlen : ((List.range need).map (unpackedByte r.bits (textValues value s.srcBytes))).length = need := by simp
  obtain ⟨hfinished, hoperands, hwrote⟩ := stored_putDst hm hrange (hlen.trans_le hroom)
  refine ⟨_, hexec _ hout, hfinished, hoperands, fun m hlt => ?_, by simpa [dstAt] using hwrote.2⟩
  rw [dstAt, hwrote.read (hlen.symm ▸ hlt), List.getElem_map, List.getElem_range, toNat_unpackedByte,
    digitBit_textValues_srcBytes]

/-- Decode of a text with a symbol before the pads that has no value is undefined (R114, R181, R211). -/
theorem decodeText_srcBytes_of_none {value : Byte → Option Nat} {k : Nat} (hk : k < s.snap.n - padCount s.srcBytes)
    (hnone : value (srcByte s k) = none) (length : Nat) : decodeText r value s.srcBytes length = none := by
  rw [decodeText, Option.map_eq_none_iff, ← Option.not_isSome_iff_eq_none, valuesOf_isSome, List.all_eq_true,
    State.forall_mem_take_srcBytes (P := fun c => (value c).isSome = true)]
  exact fun h => by simpa [hnone] using h k hk

end

/-- The bytes of a last block with at most 6 pads (R175). -/
theorem last32_eq {pad : Nat} (h : pad ≤ 6) : last32 pad = [5, 4, 3, 3, 2, 1, 1].getD pad 0 := by
  have hall : ∀ p, p < 7 → last32 p = [5, 4, 3, 3, 2, 1, 1].getD p 0 := by decide
  exact hall pad (Nat.lt_succ_of_le h)

/-- The empty text is pure padding too, so it needs no case of its own (R175). -/
theorem decodedLength32_eq (t : List Byte) : decodedLength32 t =
    if t.length % 8 ≠ 0 then none else if padCount t = t.length then some 0
    else if 6 < padCount t then none else some ((t.length / 8 - 1) * 5 + last32 (padCount t)) := by
  by_cases hempty : t.length = 0
  · have hpure := Nat.le_antisymm (padCount_le t) (hempty ▸ Nat.zero_le _)
    rw [decodedLength32, if_pos hempty, if_neg (by simp [hempty]), if_pos hpure]
  · rw [decodedLength32, if_neg hempty]

/-- The empty text is pure padding too, so it needs no case of its own (R204). -/
theorem decodedLength64_eq (t : List Byte) : decodedLength64 t =
    if t.length % 4 ≠ 0 then none else if padCount t = t.length then some 0
    else if 2 < padCount t then none else some (t.length / 4 * 3 - padCount t) := by
  by_cases hempty : t.length = 0
  · have hpure := Nat.le_antisymm (padCount_le t) (hempty ▸ Nat.zero_le _)
    rw [decodedLength64, if_pos hempty, if_neg (by simp [hempty]), if_pos hpure]
  · rw [decodedLength64, if_neg hempty]

/-- A decoded length is at most five bytes for each block (R175). -/
theorem decodedLength32_le {t : List Byte} {need : Nat} (h : decodedLength32 t = some need) :
    need ≤ 5 * (t.length / 8) := by
  rw [decodedLength32_eq, last32] at h
  have hle := padCount_le t
  split_ifs at h <;> cases h <;> omega

/-- `crock_val` as ASCII ranges; `u` is the byte with a letter in upper case (R172). -/
theorem crockfordValue_eq (c : Byte) (u : Nat)
    (hu : u = if 0x61 ≤ c.toNat ∧ c.toNat ≤ 0x7A then c.toNat - 0x20 else c.toNat) :
    crockfordValue c =
      if 0x30 ≤ u ∧ u ≤ 0x39 then some (u - 0x30)
      else if u = 0x49 ∨ u = 0x4C then some 1
      else if u = 0x4F then some 0
      else if 0x41 ≤ u ∧ u ≤ 0x48 then some (u - 0x41 + 10)
      else if u = 0x4A ∨ u = 0x4B then some (u - 0x4A + 18)
      else if u = 0x4D ∨ u = 0x4E then some (u - 0x4D + 20)
      else if 0x50 ≤ u ∧ u ≤ 0x54 then some (u - 0x50 + 22)
      else if 0x56 ≤ u ∧ u ≤ 0x5A then some (u - 0x56 + 27)
      else none := by
  subst hu
  revert c
  decide

/-- Every table of a base32 command has 32 symbols (R170). -/
theorem State.length_table_b32 {alpha : AlphaSel} (hlegal : legalB32 alpha = true) (s : State) :
    (s.table alpha 32).length = 32 := by
  cases alpha with
  | custom => exact Memory.length_readBytes _ _ _
  | b32Rfc4648 => rfl
  | b32Hex => rfl
  | b32Crockford => rfl
  | _ => simp [legalB32] at hlegal

/-- The values of B32_DECODE are 5-bit numbers (R171, R172). -/
theorem b32Value_lt {alpha : AlphaSel} {table : List Byte} (htable : table.length = 32) {c : Byte} {v : Nat}
    (h : b32Value alpha table c = some v) : v < 32 := by
  rw [b32Value] at h
  split_ifs at h
  · exact crockfordValue_lt h
  · exact (symbolValue_lt h).trans_eq htable

/-! ### The statements -/

/-- Settles O36: each symbol of the text reads back at its place. -/
theorem radixEncodePacksBitsIntoSymbols : Obligations.RadixEncodePacksBitsIntoSymbols := by
  refine fun s alpha hm => ⟨fun hb halpha hroom => ?_, fun hb halpha hroom => ?_⟩
  · exact exec_encode_of_room base32_packs hm (hb.dst_inRange rfl) (exec_b32Encode (legalB32_of_mem alpha halpha) hb)
      hroom
  · exact exec_encode_of_room base64_packs hm (hb.dst_inRange rfl) (exec_b64Encode (legalB64_of_mem alpha halpha) hb)
      hroom

/-- Settles O37: the run of `'='` is the pad count that the test uses. -/
theorem radixValidIsTheGenericTest : Obligations.RadixValidIsTheGenericTest := by
  refine fun s alpha pad hpad => ⟨fun hb halpha => ?_, fun hb halpha => ?_⟩
  · exact ⟨_, _, exec_b32Valid (legalB32_of_mem alpha halpha) hb, readsOnly_finish s _ 0, Bool.toNat_le _,
      radixValid_srcBytes_iff (padCount_srcBytes hpad)⟩
  · exact ⟨_, _, exec_b64Valid (legalB64_of_mem alpha halpha) hb, readsOnly_finish s _ 0, Bool.toNat_le _,
      radixValid_srcBytes_iff (padCount_srcBytes hpad)⟩

/-- Settles O38: the run of `'='` is the pad count that the decoded length depends on. -/
theorem radixDecodedLengths : Obligations.RadixDecodedLengths := by
  refine fun s pad hpad => ⟨fun hb => ?_, fun hb => ?_⟩
  all_goals obtain ⟨hnull, -, -, hrange, -⟩ := hb
  · have hlength := decodedLength32_eq s.srcBytes
    rw [padCount_srcBytes hpad, State.length_srcBytes] at hlength
    obtain ⟨t, ht, hpart, hpure, hmany, hreport⟩ := radixDecodedLength_reports hnull hrange hlength
    exact ⟨t, ht, hpart, hpure, hmany, fun hblocks hlt hle => last32_eq hle ▸ hreport hblocks hlt hle⟩
  · have hlength := decodedLength64_eq s.srcBytes
    rw [padCount_srcBytes hpad, State.length_srcBytes] at hlength
    exact radixDecodedLength_reports hnull hrange hlength

/-- Settles O39: the values of the text's symbols hold the bits of the bytes written. -/
theorem b32DecodeUnpacksSymbols : Obligations.B32DecodeUnpacksSymbols := by
  refine ⟨crockfordValue_eq, symbolValue_eq, fun s alpha need hm hb halpha hneed hroom => ?_⟩
  have hlegal := legalB32_of_mem alpha halpha
  have hexec := exec_b32Decode_of_room hlegal hb hneed hroom
  refine ⟨fun hzero => ?_, fun hpos value hvalue => ?_⟩
  · exact ⟨_, hexec.trans (if_pos hzero), readsOnly_finish s 0 0⟩
  · rw [if_neg hpos.ne'] at hexec
    obtain rfl : b32Value alpha (s.table alpha 32) = value := by
      funext c
      rw [hvalue, b32Value]
      split <;> rfl
    refine ⟨fun hsome => ?_, fun ⟨k, hk, hnone⟩ => ?_⟩
    · have hblocks : s.snap.n % 8 = 0 := by simpa [hneed] using length_mod_of_decodedLength32 (t := s.srcBytes)
      have hle := decodedLength32_le hneed
      rw [State.length_srcBytes] at hle
      exact exec_decode_of_values (r := base32) base32_packs hm (hb.dst_inRange rfl) hroom
        (fun out hout => by rw [hexec, hout]) (fun c v hv => b32Value_lt (State.length_table_b32 hlegal s) hv)
        hblocks hle hsome
    · rw [hexec, decodeText_srcBytes_of_none hk hnone]

end Sys2Proof.Machine

/-! PROOFS. The statements about base64 (44_base64.md): the round trip, and the bytes that B64_DECODE writes. -/

namespace Sys2Proof.Machine

/-! ### The round trip of base64 -/

/-- The two built-in tables of R200 are distinct tables of 64 symbols without `'='`. -/
theorem builtinTable_b64 : ∀ alpha ∈ [AlphaSel.b64Std, .b64Url],
    (builtinTable alpha).length = 64 ∧ (builtinTable alpha).Nodup ∧ padSymbol ∉ builtinTable alpha := by
  decide

/-- The pads of a base64 text fill the last block (R208, R212). -/
theorem padCount_encodeText_b64 {table : List Byte} (htable : table.length = 64) (hpad : padSymbol ∉ table)
    (bs : List Byte) :
    padCount (encodeText base64 table bs) = 4 * ((bs.length + 2) / 3) - (8 * bs.length + 5) / 6 :=
  padCount_encodeText base64_packs htable hpad bs

/-- The pads by the bytes of the last block (R208, R212). -/
theorem padCount_encodeText_b64_getD {table : List Byte} (htable : table.length = 64) (hpad : padSymbol ∉ table)
    (bs : List Byte) : padCount (encodeText base64 table bs) = [0, 2, 1].getD (bs.length % 3) 0 := by
  have hcases : bs.length % 3 = 0 ∨ bs.length % 3 = 1 ∨ bs.length % 3 = 2 := by omega
  rw [padCount_encodeText_b64 htable hpad]
  rcases hcases with h | h | h <;> rw [h] <;> simp only [List.getD_cons_zero, List.getD_cons_succ] <;> omega

/-- The text written for `n` bytes has decoded length `n` (R204, R212). -/
theorem decodedLength64_encodeText {table : List Byte} (htable : table.length = 64) (hpad : padSymbol ∉ table)
    (bs : List Byte) : decodedLength64 (encodeText base64 table bs) = some bs.length := by
  have hlen : (encodeText base64 table bs).length = 4 * ((bs.length + 2) / 3) := length_encodeText_base64 table bs
  rw [decodedLength64_eq, hlen, padCount_encodeText_b64 htable hpad]
  split_ifs with hblocks hpure hmany
  · exact absurd (Nat.mul_mod_right 4 _) hblocks
  · exact congrArg some (by omega)
  · omega
  · exact congrArg some (by omega)

/-- Settles O43: the text is the symbols of the bytes' bits followed by pads, so the values that decode reads hold the
bytes' bits again. -/
theorem base64RoundTrip : Obligations.Base64RoundTrip := by
  refine ⟨?_, fun s => rfl, builtinTable_b64, fun table bs htable hnodup hpad => ?_⟩
  · have hrows : ∀ row ∈ [(AlphaSel.b64Std, "ABCDEFGHIJKLMNOPQRSTUVWXYZabcdefghijklmnopqrstuvwxyz0123456789+/"),
        (.b64Url, "ABCDEFGHIJKLMNOPQRSTUVWXYZabcdefghijklmnopqrstuvwxyz0123456789-_")],
        row.1 ≠ .custom ∧ (builtinTable row.1).map BitVec.toNat = row.2.toList.map Char.toNat := by
      decide
    intro row hrow
    obtain ⟨hbuiltin, hsymbols⟩ := hrows row hrow
    exact ⟨hsymbols, fun s => if_neg hbuiltin⟩
  · have hmax : padCount (encodeText base64 table bs) ≤ 2 := by
      rw [padCount_encodeText_b64 htable hpad]
      omega
    exact ⟨length_encodeText_base64 table bs, padCount_encodeText_b64_getD htable hpad bs,
      radixValid_encodeText base64_packs htable hpad hmax, decodedLength64_encodeText htable hpad bs,
      decodeText_encodeText base64_packs htable hpad (fun c v hv => (symbolValue_lt hv).trans_eq htable)
        (fun v hv => symbolValue_getD hnodup (hv.trans_eq htable.symm)) bs⟩

/-! ### B64_DECODE -/

/-- A decoded length is at most three bytes for each block (R204). -/
theorem decodedLength64_le {t : List Byte} {need : Nat} (h : decodedLength64 t = some need) :
    need ≤ 3 * (t.length / 4) := by
  rw [decodedLength64_eq] at h
  split_ifs at h <;> cases h <;> omega

/-- Every table of a base64 command has 64 symbols (R200). -/
theorem State.length_table_b64 {alpha : AlphaSel} (hlegal : legalB64 alpha = true) (s : State) :
    (s.table alpha 64).length = 64 := by
  cases alpha with
  | custom => exact Memory.length_readBytes _ _ _
  | b64Std => rfl
  | b64Url => rfl
  | _ => simp [legalB64] at hlegal

section
variable {s : State} {alpha : AlphaSel} {need : Nat}

/-- A source with a decoded length is a whole number of blocks (R204). -/
theorem State.n_mod_of_decodedLength64 (h : decodedLength64 s.srcBytes = some need) : s.snap.n % 4 = 0 := by
  simpa [h] using length_mod_of_decodedLength64 (t := s.srcBytes)

/-- B64_DECODE of a text with a decoded length that fits (R211). -/
theorem exec_b64Decode_of_room (hlegal : legalB64 alpha = true) (hb : BuffersPass (.b64Decode alpha) s.snap)
    (hneed : decodedLength64 s.srcBytes = some need) (hroom : need ≤ s.snap.capacity) :
    exec (.b64Decode alpha) s =
      if need = 0 then .next (s.finish .ok 0 0)
      else match decodeText base64 (symbolValue (s.table alpha 64)) s.srcBytes need with
        | none => .fault .undefinedInput
        | some out => .next ((s.putDst out).finish .ok 0 0) := by
  have hpass := checked_decode_of_room hb (State.n_mod_of_decodedLength64 hneed) hneed hroom
  rw [hneed] at hpass
  simp only [exec, execB64Decode, hlegal, radixDecode, hneed]
  exact hpass _

/-- The bits of the values of the source's symbols are those of their indexes, if all are in the table (R201, R211). -/
theorem symbolBit_symbolValue {table : List Byte} (k : Nat)
    (hmem : ∀ j, j < s.snap.n - padCount s.srcBytes → srcByte s j ∈ table) :
    (symbolBit k fun j =>
        if j < s.snap.n - padCount s.srcBytes then (symbolValue table (srcByte s j)).getD 0 else 0) =
      symbolBit k fun j => if j < s.snap.n - padCount s.srcBytes then table.idxOf (srcByte s j) else 0 := by
  congr 1
  funext j
  split_ifs with hj
  · rw [symbolValue_eq, if_pos (hmem j hj), Option.getD_some]
  · rfl

end

/-- Settles O40: the indexes of the text's symbols hold the bits of the bytes written. -/
theorem b64DecodeUnpacksSymbols : Obligations.B64DecodeUnpacksSymbols := by
  intro s alpha need hm hb halpha hneed hroom
  have hlegal := legalB64_of_mem alpha halpha
  have hexec := exec_b64Decode_of_room hlegal hb hneed hroom
  refine ⟨fun hzero => ?_, fun hpos => ?_⟩
  · exact ⟨_, hexec.trans (if_pos hzero), readsOnly_finish s 0 0⟩
  · rw [if_neg hpos.ne'] at hexec
    refine ⟨fun hmem => ?_, fun ⟨k, hk, hno⟩ => ?_⟩
    · have hle := decodedLength64_le hneed
      rw [State.length_srcBytes] at hle
      rw [← symbolBit_symbolValue 6 hmem]
      exact exec_decode_of_values (r := base64) base64_packs hm (hb.dst_inRange rfl) hroom
        (fun out hout => by rw [hexec, hout])
        (fun c v hv => (symbolValue_lt hv).trans_eq (State.length_table_b64 hlegal s))
        (State.n_mod_of_decodedLength64 hneed) hle
        fun k hk => by rw [symbolValue_eq, if_pos (hmem k hk), Option.isSome_some]
    · have hnone : symbolValue (s.table alpha 64) (srcByte s k) = none := by rw [symbolValue_eq, if_neg hno]
      rw [hexec, decodeText_srcBytes_of_none hk hnone]

end Sys2Proof.Machine

/-! PROOFS. The statements about UTF-8 (45_utf8.md): the layout of a code point, the automaton and the decode step that
follows it, the steps of a text, and the eight commands. -/

namespace Sys2Proof.Machine

/-! ### The layout of a code point -/

/-- The continuation byte that carries the low six bits of `v` (R239). -/
def contByte (v : Nat) : Byte := BitVec.ofNat 8 (0x80 + v % 64)

@[simp] theorem toNat_contByte (v : Nat) : (contByte v).toNat = 0x80 + v % 64 := by
  rw [contByte, BitVec.toNat_ofNat]
  omega

/-- A byte in the range of the continuation bytes carries its low six bits (R231, R233). -/
theorem contByte_toNat {b : Byte} (hlo : 0x80 ≤ b.toNat) (hhi : b.toNat ≤ 0xBF) : contByte b.toNat = b := by
  apply BitVec.eq_of_toNat_eq
  rw [toNat_contByte]
  omega

/-- The last `n` bytes of a code point's layout (R239). -/
def u8Tail : Nat → Nat → List Byte
  | 0, _ => []
  | n + 1, cp => contByte (cp / 64 ^ n) :: u8Tail n cp

theorem length_u8Tail (n cp : Nat) : (u8Tail n cp).length = n := by
  induction n with
  | zero => rfl
  | succ n ih => rw [u8Tail, List.length_cons, ih]

theorem or_eq_add {a x : Nat} (k : Nat) (ha : 2 ^ k ∣ a) (hx : x < 2 ^ k) : a ||| x = a + x := by
  obtain ⟨c, rfl⟩ := ha
  exact (Nat.two_pow_add_eq_or_of_lt hx c).symm

theorem u8Encode_one {cp : Nat} (h : cp ≤ 0x7F) : u8Encode cp = BitVec.ofNat 8 cp :: u8Tail 0 cp := by
  rw [u8Encode, if_pos h]
  rfl

/-- A continuation byte of `u8Encode` (R239). -/
theorem ofNat_or_bits (cp n : Nat) :
    BitVec.ofNat 8 (0x80 ||| bits cp (6 * n + 5) (6 * n)) = contByte (cp / 64 ^ n) := by
  rw [bits, show 6 * n + 5 + 1 - 6 * n = 6 by omega, Nat.pow_mul,
    or_eq_add 6 (by decide) (Nat.mod_lt _ (by decide)), contByte]
  rfl

theorem u8Encode_two {cp : Nat} (hlo : 0x80 ≤ cp) (hhi : cp ≤ 0x7FF) :
    u8Encode cp = BitVec.ofNat 8 (0xC0 + cp / 64) :: u8Tail 1 cp := by
  have hlead : 0xC0 ||| bits cp 10 6 = 0xC0 + cp / 64 := by
    rw [bits, or_eq_add 5 (by decide) (Nat.mod_lt _ (by decide))]
    omega
  rw [u8Encode, if_neg (by omega), if_pos hhi, hlead]
  simp only [List.map_cons, List.map_nil, u8Tail, ofNat_or_bits cp 0]

theorem u8Encode_three {cp : Nat} (hlo : 0x800 ≤ cp) (hhi : cp ≤ 0xFFFF) (hs : ¬(0xD800 ≤ cp ∧ cp ≤ 0xDFFF)) :
    u8Encode cp = BitVec.ofNat 8 (0xE0 + cp / 4096) :: u8Tail 2 cp := by
  have hlead : 0xE0 ||| bits cp 15 12 = 0xE0 + cp / 4096 := by
    rw [bits, or_eq_add 4 (by decide) (Nat.mod_lt _ (by decide))]
    omega
  have hscalar : cp ≤ 0xFFFF ∧ isSurrogate cp = false := ⟨hhi, by simp [isSurrogate]; omega⟩
  rw [u8Encode, if_neg (by omega), if_neg (by omega), if_pos hscalar, hlead]
  simp only [List.map_cons, List.map_nil, u8Tail, ofNat_or_bits cp 1, ofNat_or_bits cp 0]

theorem u8Encode_four {cp : Nat} (hlo : 0x10000 ≤ cp) (hhi : cp ≤ 0x10FFFF) :
    u8Encode cp = BitVec.ofNat 8 (0xF0 + cp / 262144) :: u8Tail 3 cp := by
  have hlead : 0xF0 ||| bits cp 20 18 = 0xF0 + cp / 262144 := by
    rw [bits, or_eq_add 3 (by decide) (Nat.mod_lt _ (by decide))]
    omega
  rw [u8Encode, if_neg (by omega), if_neg (by omega), if_neg (by omega), if_pos ⟨hlo, hhi⟩, hlead]
  simp only [List.map_cons, List.map_nil, u8Tail, ofNat_or_bits cp 2, ofNat_or_bits cp 1, ofNat_or_bits cp 0]

/-- A surrogate, and a value above 0x10FFFF, has the layout of the replacement code point (R239). -/
theorem u8Encode_replacement {cp : Nat} (h : (0xD800 ≤ cp ∧ cp ≤ 0xDFFF) ∨ 0x10FFFF < cp) :
    u8Encode cp = [0xEF#8, 0xBF#8, 0xBD#8] := by
  have hscalar : ¬(cp ≤ 0xFFFF ∧ isSurrogate cp = false) := by
    simp only [isSurrogate, Bool.and_eq_false_iff, decide_eq_false_iff_not]
    omega
  rw [u8Encode, if_neg (by omega), if_neg (by omega), if_neg hscalar, if_neg (by omega)]
  rfl

/-- The bytes of a layout as values (R239). -/
theorem map_toNat_layout {v : Nat} (hv : v < 256) (n cp : Nat) :
    (BitVec.ofNat 8 v :: u8Tail n cp).map BitVec.toNat = v :: (u8Tail n cp).map BitVec.toNat := by
  rw [List.map_cons, BitVec.toNat_ofNat, Nat.mod_eq_of_lt hv]

/-! ### The automaton -/

/-- Continuation bytes that a state still needs (R230). -/
def U8State.left : U8State → Nat
  | .accept | .reject => 0
  | .s1 => 1
  | .s2 | .s4 | .s5 => 2
  | .s3 | .s6 | .s7 => 3

/-- The state in the middle of a code point that takes any `n` continuation bytes, and ACCEPT for none (R230). -/
def u8Middle : Nat → U8State
  | 0 => .accept
  | 1 => .s1
  | _ + 2 => .s2

/-- What a first byte does: the next state, and the payload (R231, R233). -/
theorem u8Next_accept_cases (b : Byte) :
    (b.toNat ≤ 0x7F ∧ u8Next .accept b = .accept ∧ u8Payload .accept 0 b = b.toNat) ∨
    (0xC2 ≤ b.toNat ∧ b.toNat ≤ 0xDF ∧ u8Next .accept b = .s1 ∧ u8Payload .accept 0 b = b.toNat - 0xC0) ∨
    (b.toNat = 0xE0 ∧ u8Next .accept b = .s4 ∧ u8Payload .accept 0 b = 0) ∨
    (0xE1 ≤ b.toNat ∧ b.toNat ≤ 0xEF ∧ b.toNat ≠ 0xED ∧ u8Next .accept b = .s2 ∧
      u8Payload .accept 0 b = b.toNat - 0xE0) ∨
    (b.toNat = 0xED ∧ u8Next .accept b = .s5 ∧ u8Payload .accept 0 b = 0xD) ∨
    (b.toNat = 0xF0 ∧ u8Next .accept b = .s6 ∧ u8Payload .accept 0 b = 0) ∨
    (0xF1 ≤ b.toNat ∧ b.toNat ≤ 0xF3 ∧ u8Next .accept b = .s3 ∧ u8Payload .accept 0 b = b.toNat - 0xF0) ∨
    (b.toNat = 0xF4 ∧ u8Next .accept b = .s7 ∧ u8Payload .accept 0 b = 4) ∨
    (((0x80 ≤ b.toNat ∧ b.toNat ≤ 0xC1) ∨ 0xF5 ≤ b.toNat) ∧ u8Next .accept b = .reject) := by
  revert b
  decide

theorem left_u8Middle {n : Nat} (h : n ≤ 2) : (u8Middle n).left = n := by
  revert n
  decide

/-- A state that needs no continuation byte is ACCEPT or REJECT (R230). -/
theorem U8State.left_eq_zero {q : U8State} : q.left = 0 ↔ q = .accept ∨ q = .reject := by
  cases q <;> decide

theorem U8State.left_pos {q : U8State} : 0 < q.left ↔ q ≠ .accept ∧ q ≠ .reject := by
  rw [Nat.pos_iff_ne_zero, ne_eq, left_eq_zero, not_or]

theorem U8State.left_le (q : U8State) : q.left ≤ 3 := by
  cases q <;> decide

theorem u8In_ne_reject {v lo hi : Nat} {q : U8State} (hq : q ≠ .reject) :
    u8In v lo hi q ≠ .reject ↔ lo ≤ v ∧ v ≤ hi := by
  rw [u8In]
  split_ifs with h <;> simp [h, hq]

/-- A byte that does not reject in the middle of a code point is a continuation byte, and one fewer is needed then. -/
theorem u8Next_of_left {q : U8State} {b : Byte} (hq : 0 < q.left) (hb : u8Next q b ≠ .reject) :
    u8Next q b = u8Middle (q.left - 1) ∧ 0x80 ≤ b.toNat ∧ b.toNat ≤ 0xBF := by
  cases q
  case accept | reject => exact absurd hq (by decide)
  all_goals
    have hrange := (u8In_ne_reject (by decide)).mp hb
    exact ⟨if_pos hrange, by omega, by omega⟩

theorem u8Payload_of_left {q : U8State} (hq : 0 < q.left) (p : Nat) (b : Byte) :
    u8Payload q p b = 64 * p + b.toNat % 64 := by
  obtain ⟨hne, -⟩ := U8State.left_pos.mp hq
  have hmod : b.toNat &&& 0x3F = b.toNat % 64 := Nat.and_two_pow_sub_one_eq_mod b.toNat 6
  rw [u8Payload, if_neg hne, hmod, Nat.shiftLeft_eq, Nat.mul_comm p]
  exact or_eq_add 6 (Dvd.intro p rfl) (Nat.mod_lt _ (by decide))

theorem contByte_u8Payload {q : U8State} {b : Byte} (hq : 0 < q.left) (hb : u8Next q b ≠ .reject) (p : Nat) :
    contByte (u8Payload q p b) = b ∧ u8Payload q p b / 64 = p := by
  obtain ⟨-, hlo, hhi⟩ := u8Next_of_left hq hb
  rw [u8Payload_of_left hq]
  refine ⟨?_, by omega⟩
  conv_rhs => rw [← contByte_toNat hlo hhi]
  rw [contByte, contByte, Nat.mul_add_mod, Nat.mod_mod]

/-- The next continuation byte of `cp` does not reject in a state that needs one (R230). -/
def U8State.LeadsTo (q : U8State) (cp : Nat) : Prop :=
  0 < q.left → u8Next q (contByte (cp / 64 ^ (q.left - 1))) ≠ .reject

/-- The states after a lead byte with a restricted second byte, in terms of the code point (R231). -/
theorem U8State.leadsTo_iff {q : U8State} {cp : Nat} : q.LeadsTo cp ↔
    (q = .s4 → 0x20 ≤ cp / 64 % 64) ∧ (q = .s5 → cp / 64 % 64 < 0x20) ∧
      (q = .s6 → 0x10 ≤ cp / 4096 % 64) ∧ (q = .s7 → cp / 4096 % 64 < 0x10) := by
  cases q
  case accept | reject => simp [LeadsTo, left]
  all_goals
    simp only [LeadsTo, left, u8Next, toNat_contByte, u8In_ne_reject, ne_eq, reduceCtorEq, not_false_eq_true,
      Nat.reduceSub, Nat.reducePow, Nat.reduceLT, true_implies, false_implies, true_and, and_true,
      iff_true]
    omega

theorem u8Middle_leadsTo (n cp : Nat) : (u8Middle n).LeadsTo cp := by
  rw [U8State.leadsTo_iff]
  match n with
  | 0 | 1 | _ + 2 => simp [u8Middle]

/-- `b` is the first byte on the automaton's way to `cp`. -/
def U8LeadOf (b : Byte) (cp : Nat) : Prop :=
  u8Next .accept b ≠ .reject ∧ u8Payload .accept 0 b = cp / 64 ^ (u8Next .accept b).left ∧
    (u8Next .accept b).LeadsTo cp

/-- The first bytes of the four layouts (R231, R237, R239). -/
theorem u8LeadOf_iff {b : Byte} {cp : Nat} : U8LeadOf b cp ↔
    (cp ≤ 0x7F ∧ b.toNat = cp) ∨
    (0x80 ≤ cp ∧ cp ≤ 0x7FF ∧ b.toNat = 0xC0 + cp / 64) ∨
    (0x800 ≤ cp ∧ cp ≤ 0xFFFF ∧ ¬(0xD800 ≤ cp ∧ cp ≤ 0xDFFF) ∧ b.toNat = 0xE0 + cp / 4096) ∨
    (0x10000 ≤ cp ∧ cp ≤ 0x10FFFF ∧ b.toNat = 0xF0 + cp / 262144) := by
  rw [U8LeadOf, U8State.leadsTo_iff]
  rcases u8Next_accept_cases b with ⟨hb, hq, hp⟩ | ⟨hlo, hhi, hq, hp⟩ | ⟨hb, hq, hp⟩ | ⟨hlo, hhi, hb, hq, hp⟩ |
    ⟨hb, hq, hp⟩ | ⟨hb, hq, hp⟩ | ⟨hlo, hhi, hq, hp⟩ | ⟨hb, hq, hp⟩ | ⟨hb, hq⟩
  case inr.inr.inr.inr.inr.inr.inr.inr =>
    simp only [hq, ne_eq, not_true_eq_false, false_and, false_iff]
    omega
  all_goals
    simp only [hq, hp, U8State.left, ne_eq, reduceCtorEq, not_false_eq_true, false_implies, true_implies, true_and,
      and_true]
    omega

theorem left_u8Next_accept (b : Byte) : (u8Next .accept b).left =
    if b.toNat ≤ 0xC1 then 0 else if b.toNat ≤ 0xDF then 1 else if b.toNat ≤ 0xEF then 2
    else if b.toNat ≤ 0xF4 then 3 else 0 := by
  revert b
  decide

/-- A value in 0..0x10FFFF that is no surrogate (R16). -/
theorem isScalar_iff {cp : Nat} : isScalar cp = true ↔ cp ≤ 0x10FFFF ∧ ¬(0xD800 ≤ cp ∧ cp ≤ 0xDFFF) := by
  simp only [isScalar, isSurrogate, Bool.and_eq_true, Bool.not_eq_true', Bool.and_eq_false_iff, decide_eq_true_eq,
    decide_eq_false_iff_not]
  omega

theorem ofNat_eq_of_toNat {b : Byte} {v : Nat} (h : b.toNat = v) : BitVec.ofNat 8 v = b := by
  rw [← h, BitVec.ofNat_toNat, BitVec.setWidth_eq]

/-- Every scalar value has a first byte (R239). -/
theorem exists_u8LeadOf {cp : Nat} (h : isScalar cp = true) : ∃ b, U8LeadOf b cp := by
  obtain ⟨hmax, hs⟩ := isScalar_iff.mp h
  have hlead {v : Nat} (hv : v < 256) (hb : ∀ b : Byte, b.toNat = v → U8LeadOf b cp) : ∃ b, U8LeadOf b cp :=
    ⟨BitVec.ofNat 8 v, hb _ (Nat.mod_eq_of_lt hv)⟩
  simp only [u8LeadOf_iff] at hlead ⊢
  rcases Nat.lt_or_ge 0x7F cp with h1 | h1
  · rcases Nat.lt_or_ge 0x7FF cp with h2 | h2
    · rcases Nat.lt_or_ge 0xFFFF cp with h3 | h3
      · exact hlead (v := 0xF0 + cp / 262144) (by omega) (by omega)
      · exact hlead (v := 0xE0 + cp / 4096) (by omega) (by omega)
    · exact hlead (v := 0xC0 + cp / 64) (by omega) (by omega)
  · exact hlead (v := cp) (by omega) (by omega)

/-- What the automaton leads to from its first byte on is the layout of a scalar value (R237, R239). -/
theorem U8LeadOf.encode {b : Byte} {cp : Nat} (h : U8LeadOf b cp) :
    isScalar cp = true ∧ u8Encode cp = b :: u8Tail (u8Next .accept b).left cp := by
  rw [isScalar_iff, left_u8Next_accept]
  rcases u8LeadOf_iff.mp h with ⟨hcp, hb⟩ | ⟨hlo, hhi, hb⟩ | ⟨hlo, hhi, hs, hb⟩ | ⟨hlo, hhi, hb⟩
  · refine ⟨by omega, ?_⟩
    rw [u8Encode_one hcp, ofNat_eq_of_toNat hb, if_pos (by omega)]
  · refine ⟨by omega, ?_⟩
    rw [u8Encode_two hlo hhi, ofNat_eq_of_toNat hb, if_neg (by omega), if_pos (by omega)]
  · refine ⟨by omega, ?_⟩
    rw [u8Encode_three hlo hhi hs, ofNat_eq_of_toNat hb, if_neg (by omega), if_neg (by omega), if_pos (by omega)]
  · refine ⟨by omega, ?_⟩
    rw [u8Encode_four hlo hhi, ofNat_eq_of_toNat hb, if_neg (by omega), if_neg (by omega), if_neg (by omega),
      if_pos (by omega)]

/-! ### The decode step -/

section
variable {q : U8State} {p count : Nat} {b : Byte} {t : List Byte}

theorem u8Loop_of_reject (h : u8Next q b = .reject) :
    u8Loop q p count (b :: t) = { cp := replacement, consumed := max 1 count, kind := .rejected } := by
  rw [u8Loop, if_pos h]

theorem u8Loop_of_accept (h : u8Next q b = .accept) :
    u8Loop q p count (b :: t) = { cp := u8Payload q p b, consumed := count + 1, kind := .accepted } := by
  rw [u8Loop, h, if_neg (by decide), if_pos rfl]

theorem u8Loop_of_left (h : 0 < (u8Next q b).left) :
    u8Loop q p count (b :: t) = u8Loop (u8Next q b) (u8Payload q p b) (count + 1) t := by
  obtain ⟨ha, hr⟩ := U8State.left_pos.mp h
  rw [u8Loop, if_neg hr, if_neg ha]

end

/-- What the next continuation byte of `cp` does in a state that leads to it. -/
theorem U8State.LeadsTo.next {q : U8State} {n cp : Nat} (h : q.LeadsTo cp) (hq : q.left = n + 1) :
    u8Next q (contByte (cp / 64 ^ n)) = u8Middle n ∧
      u8Payload q (cp / 64 ^ (n + 1)) (contByte (cp / 64 ^ n)) = cp / 64 ^ n := by
  have hpos : 0 < q.left := by omega
  obtain ⟨hnext, -⟩ := u8Next_of_left hpos (h hpos)
  rw [hq, Nat.add_sub_cancel] at hnext
  refine ⟨hnext, ?_⟩
  rw [u8Payload_of_left hpos, toNat_contByte, Nat.pow_succ, ← Nat.div_div_eq_div_mul]
  omega

/-- The continuation bytes of `cp` take a state that leads to it to ACCEPT, with payload `cp` (R234). -/
theorem u8Loop_u8Tail {n : Nat} {q : U8State} {cp : Nat} (hq : q.left = n + 1) (h : q.LeadsTo cp) (count : Nat)
    (rest : List Byte) : u8Loop q (cp / 64 ^ (n + 1)) count (u8Tail (n + 1) cp ++ rest) =
      { cp := cp, consumed := count + (n + 1), kind := .accepted } := by
  induction n generalizing q count with
  | zero =>
    obtain ⟨hnext, hpay⟩ := h.next hq
    rw [u8Tail, List.cons_append, u8Loop_of_accept hnext, hpay, Nat.pow_zero, Nat.div_one]
  | succ n ih =>
    obtain ⟨hnext, hpay⟩ := h.next hq
    have hle := q.left_le
    have hleft : (u8Middle (n + 1)).left = n + 1 := left_u8Middle (by omega)
    rw [u8Tail, List.cons_append, u8Loop_of_left (by rw [hnext, hleft]; omega), hnext, hpay,
      ih hleft (u8Middle_leadsTo _ _), Nat.add_right_comm, Nat.add_assoc]

/-- A continuation byte that does not reject is the next one of every code point that its payload begins. -/
theorem U8State.LeadsTo.of_next {q : U8State} {n cp p : Nat} {b : Byte} (hq : q.left = n + 1)
    (hb : u8Next q b ≠ .reject) (hcp : cp / 64 ^ n = u8Payload q p b) :
    q.LeadsTo cp ∧ contByte (cp / 64 ^ n) = b ∧ cp / 64 ^ (n + 1) = p := by
  obtain ⟨hbyte, hpay⟩ := contByte_u8Payload (by omega) hb p
  refine ⟨fun _ => ?_, by rw [hcp, hbyte], ?_⟩
  · rwa [hq, Nat.add_sub_cancel, hcp, hbyte]
  · rw [Nat.pow_succ, ← Nat.div_div_eq_div_mul, hcp, hpay]

/-- A step accepted from a state that needs continuation bytes met those of a code point the state leads to. -/
theorem eq_u8Tail_of_accepted {n : Nat} {q : U8State} {p count : Nat} {t : List Byte} (hq : q.left = n + 1)
    (h : (u8Loop q p count t).kind = .accepted) :
    ∃ cp rest, t = u8Tail (n + 1) cp ++ rest ∧ cp / 64 ^ (n + 1) = p ∧ q.LeadsTo cp := by
  induction t generalizing n q p count with
  | nil => cases h
  | cons b t ih =>
    have hle := q.left_le
    by_cases hb : u8Next q b = .reject
    · rw [u8Loop_of_reject hb] at h
      cases h
    · obtain ⟨hnext, -⟩ := u8Next_of_left (by omega) hb
      rw [hq, Nat.add_sub_cancel] at hnext
      obtain ⟨cp, rest, rfl, hcp⟩ : ∃ cp rest, t = u8Tail n cp ++ rest ∧ cp / 64 ^ n = u8Payload q p b := by
        cases n with
        | zero => exact ⟨u8Payload q p b, t, rfl, Nat.div_one _⟩
        | succ n =>
          have hleft : (u8Next q b).left = n + 1 := hnext ▸ left_u8Middle (by omega)
          rw [u8Loop_of_left (by omega)] at h
          obtain ⟨cp, rest, ht, hcp, -⟩ := ih hleft h
          exact ⟨cp, rest, ht, hcp⟩
      obtain ⟨hleads, hbyte, hdiv⟩ := U8State.LeadsTo.of_next hq hb hcp
      exact ⟨cp, rest, by rw [u8Tail, hbyte, List.cons_append], hdiv, hleads⟩

/-- R234, R251: the step that meets the layout of a scalar value yields it and consumes its bytes. -/
theorem u8Step_u8Encode {cp : Nat} (h : isScalar cp = true) (rest : List Byte) :
    u8Step (u8Encode cp ++ rest) = { cp := cp, consumed := (u8Encode cp).length, kind := .accepted } := by
  obtain ⟨b, hlead⟩ := exists_u8LeadOf h
  obtain ⟨-, hencode⟩ := hlead.encode
  obtain ⟨hne, hpay, hleads⟩ := hlead
  rw [hencode, List.cons_append, u8Step]
  cases hq : (u8Next .accept b).left with
  | zero =>
    have haccept := (U8State.left_eq_zero.mp hq).resolve_right hne
    rw [u8Loop_of_accept haccept, hpay, hq, Nat.pow_zero, Nat.div_one]
    rfl
  | succ n =>
    rw [u8Loop_of_left (by omega), hpay, hq, u8Loop_u8Tail hq hleads]
    simp [length_u8Tail, Nat.add_comm]

/-- R237, R251: an accepted step met the layout of a scalar value. -/
theorem exists_u8Encode_of_accepted {t : List Byte} (h : (u8Step t).kind = .accepted) :
    ∃ cp rest, isScalar cp = true ∧ t = u8Encode cp ++ rest := by
  cases t with
  | nil => cases h
  | cons b t =>
    rw [u8Step] at h
    by_cases hb : u8Next .accept b = .reject
    · rw [u8Loop_of_reject hb] at h
      cases h
    · obtain ⟨cp, rest, rfl, hlead⟩ : ∃ cp rest, t = u8Tail (u8Next .accept b).left cp ++ rest ∧ U8LeadOf b cp := by
        cases hq : (u8Next .accept b).left with
        | zero =>
          refine ⟨u8Payload .accept 0 b, t, rfl, hb, ?_, fun hpos => absurd hpos (by omega)⟩
          rw [hq, Nat.pow_zero, Nat.div_one]
        | succ n =>
          rw [u8Loop_of_left (by omega)] at h
          obtain ⟨cp, rest, ht, hcp, hleads⟩ := eq_u8Tail_of_accepted hq h
          exact ⟨cp, rest, ht, hb, by rw [hq, hcp], hleads⟩
      obtain ⟨hscalar, hencode⟩ := hlead.encode
      exact ⟨cp, rest, hscalar, by rw [hencode, List.cons_append]⟩

/-- Every step that is not accepted yields the replacement code point (R235, R236). -/
theorem u8Loop_cp_of_not_accepted {q : U8State} {p count : Nat} {t : List Byte}
    (h : (u8Loop q p count t).kind ≠ .accepted) : (u8Loop q p count t).cp = replacement := by
  fun_induction u8Loop q p count t with
  | case1 | case2 => rfl
  | case3 => exact absurd rfl h
  | case4 q p count b t _ _ ih => exact ih h

/-- A truncated step consumes all the remaining input (R236). -/
theorem u8Loop_consumed_of_truncated {q : U8State} {p count : Nat} {t : List Byte}
    (h : (u8Loop q p count t).kind = .truncated) : (u8Loop q p count t).consumed = count + t.length := by
  fun_induction u8Loop q p count t with
  | case1 => rfl
  | case2 | case3 => cases h
  | case4 q p count b t _ _ ih =>
    rw [ih h, List.length_cons]
    omega

theorem u8Loop_consumed_le {q : U8State} {p count : Nat} {t : List Byte} (h : 0 < count ∨ t ≠ []) :
    (u8Loop q p count t).consumed ≤ count + t.length := by
  fun_induction u8Loop q p count t with
  | case1 => exact le_refl _
  | case2 | case3 =>
    simp only [List.length_cons]
    omega
  | case4 q p count b t _ _ ih =>
    have hrest := ih (.inl (Nat.succ_pos _))
    rw [List.length_cons]
    omega

/-- A step consumes no more than the continuation bytes its state needs (R234). -/
theorem u8Loop_consumed_le_left {q : U8State} {p count : Nat} {t : List Byte} (hq : 0 < q.left) (hcount : 0 < count) :
    (u8Loop q p count t).consumed ≤ count + q.left := by
  fun_induction u8Loop q p count t with
  | case1 | case2 | case3 => simp only; omega
  | case4 q p count b t hr ha ih =>
    obtain ⟨hnext, -⟩ := u8Next_of_left hq hr
    have hle := q.left_le
    have hleft : (u8Next q b).left = q.left - 1 := hnext ▸ left_u8Middle (by omega)
    have hpos := U8State.left_pos.mpr ⟨ha, hr⟩
    have hrest := ih (by omega) (Nat.succ_pos _)
    omega

theorem u8Step_consumed_le_four {t : List Byte} : (u8Step t).consumed ≤ 4 := by
  cases t with
  | nil => decide
  | cons b t =>
    rw [u8Step]
    by_cases hr : u8Next .accept b = .reject
    · rw [u8Loop_of_reject hr]
      decide
    · by_cases ha : u8Next .accept b = .accept
      · rw [u8Loop_of_accept ha]
        simp
      · have hpos := U8State.left_pos.mpr ⟨ha, hr⟩
        have hle := (u8Next .accept b).left_le
        rw [u8Loop_of_left hpos]
        exact (u8Loop_consumed_le_left hpos (by decide)).trans (by omega)

theorem u8Step_consumed_le {t : List Byte} (h : t ≠ []) : (u8Step t).consumed ≤ t.length :=
  (u8Loop_consumed_le (.inr h)).trans_eq (Nat.zero_add _)

theorem u8Step_cp_le (t : List Byte) : (u8Step t).cp ≤ 0x10FFFF := by
  by_cases h : (u8Step t).kind = .accepted
  · obtain ⟨cp, rest, hscalar, rfl⟩ := exists_u8Encode_of_accepted h
    rw [u8Step_u8Encode hscalar]
    exact (isScalar_iff.mp hscalar).1
  · rw [u8Step, u8Loop_cp_of_not_accepted h]
    decide

/-! ### Runs of the automaton -/

@[simp] theorem u8Run_nil (q : U8State) : u8Run q [] = q := rfl

theorem u8Run_cons (q : U8State) (b : Byte) (t : List Byte) : u8Run q (b :: t) = u8Run (u8Next q b) t := rfl

theorem u8Run_append (q : U8State) (t t' : List Byte) : u8Run q (t ++ t') = u8Run (u8Run q t) t' :=
  List.foldl_append

/-- REJECT is absorbing (R230). -/
@[simp] theorem u8Run_reject (t : List Byte) : u8Run .reject t = .reject := by
  induction t with
  | nil => rfl
  | cons b t ih => exact ih

/-- After an accepted step the automaton is at ACCEPT (R234). -/
theorem u8Run_of_accepted {q : U8State} {p count : Nat} {t : List Byte} (h : (u8Loop q p count t).kind = .accepted) :
    ∃ n, (u8Loop q p count t).consumed = count + n ∧ u8Run q t = u8Run .accept (t.drop n) := by
  fun_induction u8Loop q p count t with
  | case1 | case2 => cases h
  | case3 q p count b t _ ha => exact ⟨1, rfl, by rw [u8Run_cons, ha, List.drop_one, List.tail_cons]⟩
  | case4 q p count b t _ _ ih =>
    obtain ⟨n, hn, hrun⟩ := ih h
    exact ⟨n + 1, by omega, by rw [u8Run_cons, hrun, List.drop_succ_cons]⟩

/-- A text that begins with a step that is not accepted does not end at ACCEPT (R234, R235). -/
theorem u8Run_of_not_accepted {q : U8State} {p count : Nat} {t : List Byte} (hq : q ≠ .accept ∨ t ≠ [])
    (h : (u8Loop q p count t).kind ≠ .accepted) : u8Run q t ≠ .accept := by
  fun_induction u8Loop q p count t with
  | case1 => simpa using hq
  | case2 q p count b t hr =>
    rw [u8Run_cons, hr, u8Run_reject]
    decide
  | case3 => exact absurd rfl h
  | case4 q p count b t _ ha ih =>
    rw [u8Run_cons]
    exact ih (.inl ha) h

theorem u8Valid_iff {t : List Byte} (ht : t ≠ []) : u8Valid t = true ↔
    (u8Step t).kind = .accepted ∧ u8Valid (t.drop (u8Step t).consumed) = true := by
  simp only [u8Valid, decide_eq_true_eq]
  by_cases h : (u8Step t).kind = .accepted
  · obtain ⟨n, hn, hrun⟩ := u8Run_of_accepted h
    rw [u8Step, hn, Nat.zero_add, hrun]
    exact (and_iff_right h).symm
  · exact iff_of_false (u8Run_of_not_accepted (.inr ht) h) fun hacc => h hacc.1

/-! ### The steps of a text -/

/-- Induction over the steps of a text (R249). -/
theorem u8Steps_induction {P : List Byte → Prop} (hnil : P [])
    (hcons : ∀ t, t ≠ [] → P (t.drop (u8Step t).consumed) → P t) (t : List Byte) : P t := by
  by_cases ht : t = []
  · exact ht ▸ hnil
  · have hpos := u8Step_consumed_pos ht
    have hlen := List.length_pos_iff.mpr ht
    exact hcons t ht (u8Steps_induction hnil hcons _)
termination_by t.length
decreasing_by
  rw [List.length_drop]
  omega

theorem sum_consumed_u8Steps (t : List Byte) : ((u8Steps t).map (·.consumed)).sum = t.length := by
  induction t using u8Steps_induction with
  | hnil => rfl
  | hcons t ht ih =>
    have hle := u8Step_consumed_le ht
    rw [u8Steps_cons ht, List.map_cons, List.sum_cons, ih, List.length_drop]
    omega

theorem length_u8Steps_le (t : List Byte) : (u8Steps t).length ≤ t.length := by
  induction t using u8Steps_induction with
  | hnil => exact le_refl _
  | hcons t ht ih =>
    have hpos := u8Step_consumed_pos ht
    have hlen := List.length_pos_iff.mpr ht
    rw [List.length_drop] at ih
    rw [u8Steps_cons ht, List.length_cons]
    omega

/-- Step `k` is the decode step where the first `k` steps ended (R249). -/
theorem getElem_u8Steps {t : List Byte} {k : Nat} (h : k < (u8Steps t).length) :
    (u8Steps t)[k] = u8Step (t.drop (((u8Steps t).take k).map (·.consumed)).sum) := by
  induction t using u8Steps_induction generalizing k with
  | hnil => exact absurd h (Nat.not_lt_zero k)
  | hcons t ht ih =>
    simp only [u8Steps_cons ht] at h ⊢
    cases k with
    | zero => rfl
    | succ k =>
      rw [List.getElem_cons_succ, ih (Nat.lt_of_succ_lt_succ h), List.drop_drop, List.take_succ_cons, List.map_cons,
        List.sum_cons]

/-- After a truncated step no input is left (R236). -/
theorem drop_of_truncated {t : List Byte} (h : (u8Step t).kind = .truncated) : t.drop (u8Step t).consumed = [] := by
  rw [u8Step, u8Loop_consumed_of_truncated h, Nat.zero_add, List.drop_length]

/-- Only the last step can be truncated (R249). -/
theorem succ_eq_length_of_truncated {t : List Byte} {k : Nat} (h : k < (u8Steps t).length)
    (htrunc : (u8Steps t)[k].kind = .truncated) : k + 1 = (u8Steps t).length := by
  induction t using u8Steps_induction generalizing k with
  | hnil => exact absurd h (Nat.not_lt_zero k)
  | hcons t ht ih =>
    simp only [u8Steps_cons ht] at h htrunc ⊢
    cases k with
    | zero => rw [drop_of_truncated htrunc, u8Steps_nil, List.length_singleton]
    | succ k => rw [List.length_cons, ← ih (Nat.lt_of_succ_lt_succ h) htrunc]

/-- U8_DECODE's test looks at the last step only (R250). -/
theorem u8Truncated_iff {t : List Byte} : u8Truncated t = true ↔ ∃ step ∈ u8Steps t, step.kind = .truncated := by
  have hlast : u8Truncated t = true ↔ ∃ step ∈ (u8Steps t).getLast?, step.kind = .truncated := by
    rw [u8Truncated]
    cases (u8Steps t).getLast? <;> simp
  rw [hlast]
  constructor
  · rintro ⟨step, hmem, htrunc⟩
    exact ⟨step, List.mem_of_getLast? hmem, htrunc⟩
  · rintro ⟨step, hmem, htrunc⟩
    obtain ⟨k, hk, rfl⟩ := List.mem_iff_getElem.mp hmem
    refine ⟨_, ?_, htrunc⟩
    rw [List.getLast?_eq_getElem?, ← succ_eq_length_of_truncated hk htrunc, Nat.add_sub_cancel]
    exact List.getElem?_eq_getElem hk

/-! ### Valid texts -/

theorem u8Valid_iff_steps (t : List Byte) : u8Valid t = true ↔ ∀ step ∈ u8Steps t, step.kind = .accepted := by
  induction t using u8Steps_induction with
  | hnil => decide
  | hcons t ht ih => rw [u8Valid_iff ht, ih, u8Steps_cons ht, List.forall_mem_cons]

theorem u8Encode_ne_nil (cp : Nat) : u8Encode cp ≠ [] := by
  rw [← List.length_pos_iff, length_u8Encode, u8Size]
  split_ifs <;> decide

theorem u8Steps_u8Encode_append {cp : Nat} (h : isScalar cp = true) (rest : List Byte) :
    u8Steps (u8Encode cp ++ rest) =
      { cp := cp, consumed := (u8Encode cp).length, kind := .accepted } :: u8Steps rest := by
  rw [u8Steps_cons (List.append_ne_nil_of_left_ne_nil (u8Encode_ne_nil cp) rest), u8Step_u8Encode h, List.drop_left]

/-- The layouts of scalar values are a text of accepted steps (R251). -/
theorem u8Valid_flatMap_u8Encode {cps : List Nat} (h : ∀ cp ∈ cps, isScalar cp = true) :
    u8Valid (cps.flatMap u8Encode) = true := by
  rw [u8Valid_iff_steps]
  induction cps with
  | nil => simp
  | cons cp cps ih =>
    obtain ⟨hcp, hcps⟩ := List.forall_mem_cons.mp h
    rw [List.flatMap_cons, u8Steps_u8Encode_append hcp, List.forall_mem_cons]
    exact ⟨rfl, ih hcps⟩

/-- The code points of a valid text are scalar values, and their layouts are the text (R251). -/
theorem u8Encode_steps_of_valid {t : List Byte} (h : u8Valid t = true) :
    (∀ cp ∈ (u8Steps t).map (·.cp), isScalar cp = true) ∧ ((u8Steps t).map (·.cp)).flatMap u8Encode = t := by
  induction t using u8Steps_induction with
  | hnil => simp
  | hcons t ht ih =>
    obtain ⟨hkind, hrest⟩ := (u8Valid_iff ht).mp h
    obtain ⟨hscalars, htext⟩ := ih hrest
    obtain ⟨cp, rest, hscalar, rfl⟩ := exists_u8Encode_of_accepted hkind
    rw [u8Step_u8Encode hscalar, List.drop_left] at hscalars htext
    rw [u8Steps_u8Encode_append hscalar, List.map_cons, List.forall_mem_cons, List.flatMap_cons, htext]
    exact ⟨⟨hscalar, hscalars⟩, rfl⟩

/-! ### The step by what the automaton does -/

/-- Bytes that neither accept nor reject only move the step on (R234). -/
theorem u8Loop_skip {q : U8State} {t : List Byte} (k : Nat) (hk : k ≤ t.length)
    (h : ∀ j, 1 ≤ j → j ≤ k → u8Run q (t.take j) ≠ .accept ∧ u8Run q (t.take j) ≠ .reject) (p count : Nat) :
    ∃ p', u8Loop q p count t = u8Loop (u8Run q (t.take k)) p' (count + k) (t.drop k) := by
  induction k generalizing q p count t with
  | zero => exact ⟨p, rfl⟩
  | succ k ih =>
    cases t with
    | nil => simp at hk
    | cons b t =>
      have hpos : 0 < (u8Next q b).left := U8State.left_pos.mpr (h 1 le_rfl (by omega))
      obtain ⟨p', hskip⟩ := ih (q := u8Next q b) (Nat.le_of_succ_le_succ hk)
        (fun j _ hj => h (j + 1) (by omega) (by omega)) (u8Payload q p b) (count + 1)
      refine ⟨p', ?_⟩
      rw [u8Loop_of_left hpos, hskip, Nat.add_right_comm, Nat.add_assoc]
      rfl

/-- Every state but REJECT can still be completed to ACCEPT (R230). -/
theorem exists_u8Run_eq_accept {q : U8State} (hq : q ≠ .reject) : ∃ more, u8Run q more = .accept := by
  cases q with
  | accept => exact ⟨[], rfl⟩
  | s1 => exact ⟨[0x80#8], rfl⟩
  | s2 => exact ⟨[0x80#8, 0x80#8], rfl⟩
  | s3 => exact ⟨[0x80#8, 0x80#8, 0x80#8], rfl⟩
  | s4 => exact ⟨[0xA0#8, 0x80#8], rfl⟩
  | s5 => exact ⟨[0x80#8, 0x80#8], rfl⟩
  | s6 => exact ⟨[0x90#8, 0x80#8, 0x80#8], rfl⟩
  | s7 => exact ⟨[0x80#8, 0x80#8, 0x80#8], rfl⟩
  | reject => exact absurd rfl hq

/-- The automaton has rejected a text exactly when nothing after it makes it valid (R230, R232). -/
theorem u8Run_eq_reject_iff (t : List Byte) :
    u8Run .accept t = .reject ↔ ∀ more : List Byte, u8Valid (t ++ more) = false := by
  simp only [u8Valid, decide_eq_false_iff_not, u8Run_append]
  refine ⟨fun h more => by simp [h], fun h => ?_⟩
  by_contra hq
  obtain ⟨more, hmore⟩ := exists_u8Run_eq_accept hq
  exact h more hmore

section
variable {t : List Byte} {k : Nat}

theorem u8Run_take_succ (hk : k < t.length) (q : U8State) :
    u8Run q (t.take (k + 1)) = u8Next (u8Run q (t.take k)) t[k] := by
  rw [List.take_add_one, List.getElem?_eq_getElem hk, u8Run_append]
  rfl

variable (h : ∀ j, 1 ≤ j → j ≤ k → u8Run .accept (t.take j) ≠ .accept ∧ u8Run .accept (t.take j) ≠ .reject)
include h

/-- A step whose first `k` bytes neither accept nor reject goes on with byte `k` (R234). -/
theorem u8Step_skip (hk : k < t.length) :
    ∃ p, u8Step t = u8Loop (u8Run .accept (t.take k)) p k (t[k] :: t.drop (k + 1)) := by
  obtain ⟨p, hskip⟩ := u8Loop_skip k hk.le h 0 0
  rw [← List.drop_eq_getElem_cons hk]
  exact ⟨p, by rw [u8Step, hskip, Nat.zero_add]⟩

theorem u8Step_of_reject (hk : k < t.length) (hr : u8Run .accept (t.take (k + 1)) = .reject) :
    u8Step t = { cp := 0xFFFD, consumed := max 1 k, kind := .rejected } := by
  obtain ⟨p, hstep⟩ := u8Step_skip h hk
  rw [u8Run_take_succ hk] at hr
  rw [hstep, u8Loop_of_reject hr, replacement]

theorem u8Step_of_accept (hk : k < t.length) (ha : u8Run .accept (t.take (k + 1)) = .accept) :
    (u8Step t).kind = .accepted ∧ (u8Step t).consumed = k + 1 := by
  obtain ⟨p, hstep⟩ := u8Step_skip h hk
  rw [u8Run_take_succ hk] at ha
  rw [hstep, u8Loop_of_accept ha]
  exact ⟨rfl, rfl⟩

theorem u8Step_of_truncated (hk : k = t.length) :
    u8Step t = { cp := 0xFFFD, consumed := t.length, kind := .truncated } := by
  obtain ⟨p, hskip⟩ := u8Loop_skip k hk.le h 0 0
  rw [u8Step, hskip, hk, List.drop_length, u8Loop, Nat.zero_add, replacement]

end

/-! ### What the UTF-8 commands do -/

section
variable {s : State} {i : Instr}

/-- Checks that pass leave the command to its further checks (R106). -/
theorem checked_append_of_pass {onFail : Status → State} {before : List (Bool × Status)}
    (h : ∀ c ∈ before, c.1 = false) (rest : List (Bool × Status)) (e : Result) :
    checked onFail (before ++ rest) e = checked onFail rest e := by
  rw [checked, checked, firstFailure_append_of_pass h]

theorem BuffersPass.src_checks (hb : BuffersPass i s.snap) :
    ∀ c ∈ [nullCheck (srcRange i s.snap), rangeCheck (srcRange i s.snap)], c.1 = false := by
  obtain ⟨hnull, -, -, hrange, -⟩ := hb
  simp [hnull, hrange]

theorem BuffersPass.dst_checks (hb : BuffersPass i s.snap) :
    ∀ c ∈ [nullCheck (dstRange i s.snap), rangeCheck (dstRange i s.snap)], c.1 = false := by
  obtain ⟨-, hnull, -, -, hrange, -⟩ := hb
  simp [hnull, hrange]

theorem exec_u8Enclen (hb : BuffersPass .u8Enclen s.snap) :
    exec .u8Enclen s = .next (s.finish .ok (u8EncodedLength (s.srcElems 4)) 0) :=
  checked_append_of_pass hb.src_checks [] _

theorem exec_u8Valid (hb : BuffersPass .u8Valid s.snap) :
    exec .u8Valid s = .next (s.finish .ok (u8Valid s.srcBytes).toNat 0) :=
  checked_append_of_pass hb.src_checks [] _

theorem exec_u8Declen (hb : BuffersPass .u8Declen s.snap) :
    exec .u8Declen s = .next (s.finish .ok (u8Steps s.srcBytes).length 0) :=
  checked_append_of_pass hb.src_checks [] _

/-- U8_CPDEC on a source that passes: the check of the offset is left (R248). -/
theorem exec_u8Cpdec (hb : BuffersPass .u8Cpdec s.snap) :
    exec .u8Cpdec s = checked s.failReplacement [argumentCheck (decide (s.snap.n ≤ s.snap.regs.arg.toNat))]
      (.next (s.finish .ok (u8Step (s.srcBytes.drop s.snap.regs.arg.toNat)).cp
        (u8Step (s.srcBytes.drop s.snap.regs.arg.toNat)).consumed)) :=
  checked_append_of_pass hb.src_checks _ _

/-- U8_CPENC on a destination that passes: the check of room is left (R242). -/
theorem exec_u8Cpenc (hb : BuffersPass .u8Cpenc s.snap) :
    exec .u8Cpenc s = checked s.fail [capacityCheck s.snap.capacity (u8Encode s.snap.arg32).length]
      (.next ((s.putDst (u8Encode s.snap.arg32)).finish .ok (u8Encode s.snap.arg32).length 0)) :=
  checked_append_of_pass hb.dst_checks _ _

/-- U8_ENCODE on buffers that pass: the check of room is left (R243). -/
theorem exec_u8Encode (hb : BuffersPass .u8Encode s.snap) :
    exec .u8Encode s = checked s.fail [capacityCheck s.snap.capacity (u8Text (s.srcElems 4)).length]
      (.next ((s.putDst (u8Text (s.srcElems 4))).finish .ok 0 0)) := by
  rw [length_u8Text]
  exact checked_srcDst_of_buffersPass hb _ _ _

/-- U8_DECODE on buffers that pass (R250). -/
theorem exec_u8Decode (hb : BuffersPass .u8Decode s.snap) :
    exec .u8Decode s =
      if s.snap.capacity < (u8Steps s.srcBytes).length then .next (s.zeroDst.fail .bufferTooSmall)
      else if u8Truncated s.srcBytes then .next (s.zeroDst.fail .invalidArgument)
      else .next ((s.putElems 4 ((u8Steps s.srcBytes).map (·.cp))).finish .ok 0 0) :=
  checked_srcDst_of_buffersPass hb _ [] _

/-- Bytes that the destination has room for, `dstSize` to an element, are written exactly (R59). -/
theorem BuffersPass.wroteAt_putDst (hb : BuffersPass i s.snap) (hm : s.mem.wf = true) {bs : List Byte}
    (hroom : bs.length ≤ s.snap.capacity * dstSize i) : WroteAt s (s.putDst bs) (dstAt s) bs := by
  obtain ⟨-, -, -, -, hrange, -⟩ := hb
  have haddr : s.snap.regs.dstAddr.toNat < memSize := s.snap.regs.dstAddr.isLt
  rw [Buf.outOfRange_eq_false, size_dstRange, dstRange_addr] at hrange
  exact putDst_wroteAt hm (by omega)

/-- An encoder on buffers that pass, where only the check of room is left (R111, R242, R243). -/
theorem stored_or_bufferTooSmall {bs : List Byte} {r : Nat} (hb : BuffersPass i s.snap) (hm : s.mem.wf = true)
    (hdst : dstSize i = 1) (hexec : exec i s = checked s.fail [capacityCheck s.snap.capacity bs.length]
      (.next ((s.putDst bs).finish .ok r 0))) :
    (bs.length ≤ s.snap.capacity → ∃ t, exec i s = .next t ∧ Stored s t bs r) ∧
      (s.snap.capacity < bs.length → ∃ t, exec i s = .next t ∧ FailedCleanly s t .bufferTooSmall 0) := by
  refine ⟨fun hroom => ⟨_, hexec.trans (checked_of_pass ?_), finished_finish _ _ _ _, ⟨rfl, rfl⟩, ?_⟩,
    fun hsmall => ⟨_, hexec.trans (checked_of_fail ?_), failedCleanly_fail s _⟩⟩
  · simp [capacityCheck, hroom]
  · exact hb.wroteAt_putDst hm (by rwa [hdst, Nat.mul_one])
  · simp [capacityCheck, hsmall]

/-- Any slice of the bytes written reads back. -/
theorem WroteAt.readBytes_slice {t : State} {a d n : Nat} {bs : List Byte} (h : WroteAt s t a bs)
    (hfit : d + n ≤ bs.length) : t.mem.readBytes (a + d) n = (bs.drop d).take n := by
  apply List.ext_getElem
  · rw [Memory.length_readBytes, List.length_take, List.length_drop]
    omega
  · intro k hk _
    rw [Memory.length_readBytes] at hk
    rw [Memory.getElem_readBytes, Nat.add_assoc, h.read (by omega), List.getElem_take, List.getElem_drop]

end

/-- Element `k` of the bytes that `WriteElems` stores (R55). -/
theorem elemBytes_slice (order : ByteOrder) (esz : Nat) {vs : List Nat} {k : Nat} (hk : k < vs.length) :
    ((elemBytes order esz vs).drop (esz * k)).take esz = toBytes order esz vs[k] := by
  induction vs generalizing k with
  | nil => exact absurd hk (Nat.not_lt_zero k)
  | cons v vs ih =>
    rw [elemBytes, List.flatMap_cons, ← elemBytes]
    cases k with
    | zero => exact List.take_left' (length_toBytes _ _ _)
    | succ k =>
      rw [Nat.mul_succ, Nat.add_comm, ← List.drop_drop, List.drop_left' (length_toBytes _ _ _)]
      exact ih (Nat.lt_of_succ_lt_succ hk)

/-! ### The statements -/

/-- Settles O44: the only check of U8_CPSIZE is that of its threshold. -/
theorem utf8SizeCommands : Obligations.Utf8SizeCommands := by
  refine fun s => ⟨?_, fun hb => ⟨_, exec_u8Enclen hb, readsOnly_finish s _ 0⟩⟩
  by_cases hmax : 0x10FFFF < s.snap.arg32
  · have hexec : exec .u8Cpsize s = .next (s.fail .invalidArgument) :=
      checked_of_fail (by simp [argumentCheck, hmax])
    exact ⟨_, hexec, fun h => absurd h (by omega), fun _ h => absurd h (by omega), fun _ h => absurd h (by omega),
      fun _ h => absurd h (by omega), fun _ => failedCleanly_fail s _⟩
  · have hexec : exec .u8Cpsize s = .next (s.finish .ok (u8Size s.snap.arg32) 0) :=
      checked_of_pass (by simp [argumentCheck, hmax])
    have hsize {r : Nat} (hr : u8Size s.snap.arg32 = r) :
        ReadsOnly s (s.finish .ok (u8Size s.snap.arg32) 0) r 0 := hr ▸ readsOnly_finish s _ 0
    refine ⟨_, hexec, fun h1 => hsize ?_, fun h1 h2 => hsize ?_, fun h2 h3 => hsize ?_, fun h3 h4 => hsize ?_,
      fun h => absurd h hmax⟩
    · rw [u8Size, if_pos h1]
    · rw [u8Size, if_neg (by omega), if_pos h2]
    · rw [u8Size, if_neg (by omega), if_neg (by omega), if_pos h3]
    · rw [u8Size, if_neg (by omega), if_neg (by omega), if_neg (by omega), if_pos h4]

/-- Settles O45: each encoder checks its room and stores its layouts, and the layout's bytes are sums. -/
theorem utf8EncodeCommands : Obligations.Utf8EncodeCommands := by
  refine ⟨fun s hm => ⟨fun hb => stored_or_bufferTooSmall hb hm rfl (exec_u8Cpenc hb),
    fun hb => stored_or_bufferTooSmall hb hm rfl (exec_u8Encode hb)⟩,
    fun cp => ⟨fun h1 => ?_, fun h1 h2 => ?_, fun h2 h3 hs => ?_, fun h3 h4 => ?_, fun hbad => ?_⟩⟩
  · rw [u8Encode_one h1, map_toNat_layout (by omega) 0]
    rfl
  · rw [u8Encode_two h1 h2, map_toNat_layout (by omega)]
    simp [u8Tail]
  · rw [u8Encode_three h2 h3 hs, map_toNat_layout (by omega)]
    simp [u8Tail]
  · rw [u8Encode_four h3 h4, map_toNat_layout (by omega)]
    simp [u8Tail]
  · rw [u8Encode_replacement hbad]
    rfl

/-- Settles O46: a valid text is the layouts of its steps' code points. -/
theorem utf8ValidIsAnEncodingOfScalars : Obligations.Utf8ValidIsAnEncodingOfScalars := by
  intro s hb
  refine ⟨_, _, exec_u8Valid hb, readsOnly_finish s _ 0, Bool.toNat_le _, ?_⟩
  simp only [Bool.toNat_eq_one, ← isScalar_iff]
  constructor
  · intro h
    obtain ⟨hscalars, htext⟩ := u8Encode_steps_of_valid h
    exact ⟨_, hscalars, htext.symm⟩
  · rintro ⟨cps, hscalars, htext⟩
    exact htext ▸ u8Valid_flatMap_u8Encode hscalars

/-- Settles O47: by induction over the steps. -/
theorem utf8StepsCoverTheText : Obligations.Utf8StepsCoverTheText :=
  fun t => ⟨fun _ h => getElem_u8Steps h, sum_consumed_u8Steps t, rfl, fun _ h => succ_eq_length_of_truncated h⟩

/-- Settles O48: the two commands report the steps, and a step follows what the automaton does with the first bytes. -/
theorem utf8DecodeStepCommands : Obligations.Utf8DecodeStepCommands := by
  refine ⟨fun s => ⟨fun hb => ⟨_, exec_u8Declen hb, readsOnly_finish s _ 0, ?_⟩,
    fun hb => ⟨fun harg => ⟨_, _, (exec_u8Cpdec hb).trans (checked_of_pass ?_), rfl, readsOnly_finish s _ _, ?_,
      u8Step_consumed_le_four, u8Loop_cp_of_not_accepted⟩,
      fun harg => ⟨_, (exec_u8Cpdec hb).trans (checked_of_fail ?_), failedCleanly_finish s _ _⟩⟩⟩,
    fun t _ => ⟨fun k hk h => ⟨u8Step_of_reject h hk, u8Step_of_accept h hk⟩, fun h => u8Step_of_truncated h rfl⟩,
    u8Run_eq_reject_iff⟩
  · exact (length_u8Steps_le _).trans_eq (State.length_srcBytes s)
  · simp [argumentCheck, harg]
  · exact u8Step_consumed_pos (by simpa [List.drop_eq_nil_iff] using harg)
  · simp [argumentCheck, harg]

/-- Settles O49: U8_DECODE by its three ends; the elements stored read back one by one. -/
theorem utf8DecodeStoresOrZeroes : Obligations.Utf8DecodeStoresOrZeroes := by
  intro s hm hb
  have hexec := exec_u8Decode hb
  have hzero : WroteAt s s.zeroDst (dstAt s) (List.replicate (4 * s.snap.capacity) 0#8) :=
    hb.wroteAt_putDst hm (by rw [List.length_replicate, Nat.mul_comm]; rfl)
  refine ⟨fun hsmall => ?_, fun hroom htrunc => ?_, fun hroom hwhole => ?_⟩
  · rw [if_pos hsmall] at hexec
    exact ⟨_, hexec, finished_finish s.zeroDst _ _ _, ⟨rfl, rfl⟩, hzero⟩
  · rw [if_neg hroom.not_gt, if_pos (u8Truncated_iff.mpr htrunc)] at hexec
    exact ⟨_, hexec, finished_finish s.zeroDst _ _ _, ⟨rfl, rfl⟩, hzero⟩
  · have hlast : ¬u8Truncated s.srcBytes = true := by
      rw [u8Truncated_iff]
      rintro ⟨step, hmem, htrunc⟩
      exact hwhole step hmem htrunc
    rw [if_neg hroom.not_gt, if_neg hlast] at hexec
    have hlen : (elemBytes s.cfg.nativeOrder 4 ((u8Steps s.srcBytes).map (·.cp))).length =
        4 * (u8Steps s.srcBytes).length := by rw [length_elemBytes, List.length_map]
    have hwrote : WroteAt s (s.putElems 4 ((u8Steps s.srcBytes).map (·.cp))) (dstAt s) _ :=
      hb.wroteAt_putDst hm (by rw [hlen, Nat.mul_comm]; exact Nat.mul_le_mul_right 4 hroom)
    refine ⟨_, hexec, finished_finish (s.putElems 4 _) _ _ _, ⟨rfl, rfl⟩, fun k hk => ?_, hlen ▸ hwrote.2⟩
    rw [State.finish_mem, hwrote.readBytes_slice (by omega), elemBytes_slice _ _ (by simpa using hk), List.getElem_map]
    refine ofBytes_toBytes _ ?_
    rw [getElem_u8Steps hk]
    exact (u8Step_cp_le _).trans_lt (by decide)

/-- Settles O50: a text is valid exactly when all its steps are accepted, and an accepted step is the inverse of the
layout of its code point. -/
theorem utf8ValidatorAndDecoderAgree : Obligations.Utf8ValidatorAndDecoderAgree :=
  ⟨fun t => ⟨u8Valid_iff_steps t, fun h => (u8Encode_steps_of_valid h).2⟩,
    fun _ rest hmax hs => u8Step_u8Encode (isScalar_iff.mpr ⟨hmax, hs⟩) rest⟩

end Sys2Proof.Machine

/-! PROOFS. The statements about UTF-16 (46_utf16.md): the pieces of a valid text, the units of a code point, the decode
step and the steps of a text, and the seven commands. -/

namespace Sys2Proof.Machine

/-! ### The pieces of a valid text -/

/-- A unit that is a valid text by itself: no surrogate and no noncharacter (R270, R271). -/
def IsPlain (u : Nat) : Prop := ¬(0xD800 ≤ u ∧ u ≤ 0xDFFF) ∧ u ≠ 0xFFFE ∧ u ≠ 0xFFFF

/-- A high surrogate and a low one (R270). -/
def IsPair (high low : Nat) : Prop := 0xD800 ≤ high ∧ high ≤ 0xDBFF ∧ 0xDC00 ≤ low ∧ low ≤ 0xDFFF

/-- What the validity walk takes at once (R271). -/
def U16Piece (piece : List Nat) : Prop :=
  (∃ u, piece = [u] ∧ IsPlain u) ∨ ∃ high low, piece = [high, low] ∧ IsPair high low

theorem isSurrogate_iff {u : Nat} : isSurrogate u = true ↔ 0xD800 ≤ u ∧ u ≤ 0xDFFF := by
  simp [isSurrogate]

theorem isNonchar_iff {u : Nat} : isNonchar u = true ↔ u = 0xFFFE ∨ u = 0xFFFF := by
  simp [isNonchar]

theorem isPlain_iff {u : Nat} : IsPlain u ↔ isNonchar u = false ∧ isSurrogate u = false := by
  rw [IsPlain, ← Bool.not_eq_true, ← Bool.not_eq_true, isNonchar_iff, isSurrogate_iff]
  omega

theorem isPair_iff {high low : Nat} : IsPair high low ↔ isHigh high = true ∧ isLow low = true := by
  simp [IsPair, isHigh, isLow, and_assoc]

theorem IsPair.isSurrogate_high {high low : Nat} (h : IsPair high low) : isSurrogate high = true := by
  rw [isSurrogate_iff]
  unfold IsPair at h
  omega

theorem IsPair.isNonchar_high {high low : Nat} (h : IsPair high low) : isNonchar high = false := by
  rw [← Bool.not_eq_true, isNonchar_iff]
  unfold IsPair at h
  omega

/-- The walk takes a piece off a text (R271). -/
theorem U16Piece.valid_append {piece : List Nat} (h : U16Piece piece) (t : List Nat) :
    u16Valid (piece ++ t) = u16Valid t := by
  obtain ⟨u, rfl, hplain⟩ | ⟨high, low, rfl, hpair⟩ := h
  · obtain ⟨hnonchar, hsurrogate⟩ := isPlain_iff.mp hplain
    rw [List.singleton_append, u16Valid.eq_def]
    simp [hnonchar, hsurrogate]
  · obtain ⟨hhigh, hlow⟩ := isPair_iff.mp hpair
    simp [u16Valid, hpair.isNonchar_high, hpair.isSurrogate_high, hhigh, hlow]

theorem u16Valid_flatten {pieces : List (List Nat)} (h : ∀ piece ∈ pieces, U16Piece piece) :
    u16Valid pieces.flatten = true := by
  induction pieces with
  | nil => rfl
  | cons piece pieces ih =>
    obtain ⟨hpiece, hpieces⟩ := List.forall_mem_cons.mp h
    rw [List.flatten_cons, hpiece.valid_append, ih hpieces]

/-- The walk cuts a valid text into pieces (R271). -/
theorem exists_pieces_of_u16Valid {t : List Nat} (h : u16Valid t = true) :
    ∃ pieces : List (List Nat), t = pieces.flatten ∧ ∀ piece ∈ pieces, U16Piece piece := by
  fun_induction u16Valid t with
  | case1 => exact ⟨[], rfl, by simp⟩
  | case2 | case5 | case6 => cases h
  | case3 u t hnonchar hsurrogate ih =>
    obtain ⟨pieces, rfl, hpieces⟩ := ih h
    refine ⟨[u] :: pieces, rfl, List.forall_mem_cons.mpr ⟨.inl ⟨u, rfl, isPlain_iff.mpr ?_⟩, hpieces⟩⟩
    simpa using And.intro hnonchar hsurrogate
  | case4 u hnonchar hsurrogate hhigh low t ih =>
    obtain ⟨hlow, hvalid⟩ := (Bool.and_eq_true _ _).mp h
    obtain ⟨pieces, rfl, hpieces⟩ := ih hvalid
    exact ⟨[u, low] :: pieces, rfl,
      List.forall_mem_cons.mpr ⟨.inr ⟨u, low, rfl, isPair_iff.mpr ⟨hhigh, hlow⟩⟩, hpieces⟩⟩

theorem u16Valid_iff_pieces {t : List Nat} : u16Valid t = true ↔
    ∃ pieces : List (List Nat), t = pieces.flatten ∧ ∀ piece ∈ pieces, U16Piece piece := by
  refine ⟨exists_pieces_of_u16Valid, ?_⟩
  rintro ⟨pieces, rfl, hpieces⟩
  exact u16Valid_flatten hpieces

/-- No unit of a piece is 0xFFFE or 0xFFFF (R289). -/
theorem U16Piece.ne_nonchar {piece : List Nat} (h : U16Piece piece) {u : Nat} (hu : u ∈ piece) :
    ¬(u = 0xFFFE ∨ u = 0xFFFF) := by
  obtain ⟨v, rfl, hplain⟩ | ⟨high, low, rfl, hpair⟩ := h
  · obtain rfl : u = v := by simpa using hu
    unfold IsPlain at hplain
    omega
  · have : u = high ∨ u = low := by simpa using hu
    unfold IsPair at hpair
    omega

/-! ### The decode step -/

/-- A unit that is no surrogate is its own code point (R272). -/
theorem u16Step_of_not_surrogate {u : Nat} (h : ¬(0xD800 ≤ u ∧ u ≤ 0xDFFF)) (rest : List Nat) :
    u16Step (u :: rest) = { cp := u, consumed := 1 } := by
  rw [← isSurrogate_iff, Bool.not_eq_true] at h
  simp [u16Step, h]

/-- The bits of a surrogate pair, as arithmetic (R272). -/
theorem pairValue_eq {high low : Nat} (h : IsPair high low) :
    pairValue high low = (high - 0xD800) * 1024 + (low - 0xDC00) + 0x10000 := by
  obtain ⟨hhigh, hhigh', hlow, hlow'⟩ := h
  have hmask (v : Nat) : v &&& 0x3FF = v % 2 ^ 10 := Nat.and_two_pow_sub_one_eq_mod v 10
  rw [pairValue, hmask, hmask, Nat.shiftLeft_eq,
    or_eq_add 10 (Nat.dvd_mul_left _ _) (Nat.mod_lt _ (by decide))]
  omega

/-- A surrogate pair is one step of two units (R272). -/
theorem u16Step_of_pair {high low : Nat} (h : IsPair high low) (rest : List Nat) :
    u16Step (high :: low :: rest) =
      { cp := (high - 0xD800) * 1024 + (low - 0xDC00) + 0x10000, consumed := 2 } := by
  obtain ⟨hhigh, hlow⟩ := isPair_iff.mp h
  simp [u16Step, h.isSurrogate_high, hhigh, hlow, pairValue_eq h]

/-- A surrogate that makes no pair is replaced (R272). -/
theorem u16Step_of_unpaired {u : Nat} {rest : List Nat} (h : 0xD800 ≤ u ∧ u ≤ 0xDFFF)
    (hrest : ∀ low more, rest = low :: more → ¬IsPair u low) :
    u16Step (u :: rest) = { cp := 0xFFFD, consumed := 1 } := by
  rw [← isSurrogate_iff] at h
  cases rest with
  | nil => simp [u16Step, h, replacement]
  | cons low more =>
    have hpair := hrest low more rfl
    rw [isPair_iff] at hpair
    simp [u16Step, h, hpair, replacement]

/-- The three ways a step can go (R272). -/
theorem u16Step_cases (u : Nat) (rest : List Nat) :
    u16Step (u :: rest) = { cp := u, consumed := 1 } ∨
    (∃ low more, rest = low :: more ∧ IsPair u low ∧ u16Step (u :: rest) =
      { cp := (u - 0xD800) * 1024 + (low - 0xDC00) + 0x10000, consumed := 2 }) ∨
    u16Step (u :: rest) = { cp := 0xFFFD, consumed := 1 } := by
  by_cases hsurrogate : 0xD800 ≤ u ∧ u ≤ 0xDFFF
  · by_cases hpair : ∃ low more, rest = low :: more ∧ IsPair u low
    · obtain ⟨low, more, rfl, hpair⟩ := hpair
      exact .inr (.inl ⟨low, more, rfl, hpair, u16Step_of_pair hpair more⟩)
    · exact .inr (.inr (u16Step_of_unpaired hsurrogate fun low more hrest h => hpair ⟨low, more, hrest, h⟩))
  · exact .inl (u16Step_of_not_surrogate hsurrogate rest)

theorem u16Step_consumed_le {t : List Nat} (ht : t ≠ []) : (u16Step t).consumed ≤ t.length := by
  obtain ⟨u, rest, rfl⟩ := List.exists_cons_of_ne_nil ht
  obtain hstep | ⟨low, more, rfl, -, hstep⟩ | hstep := u16Step_cases u rest <;> simp [hstep]

/-- Units of 16 bits decode to code points (R272). -/
theorem u16Step_cp_le {t : List Nat} (ht : t ≠ []) (hunits : ∀ u ∈ t, u < 0x10000) : (u16Step t).cp ≤ 0x10FFFF := by
  obtain ⟨u, rest, rfl⟩ := List.exists_cons_of_ne_nil ht
  have hu := hunits u List.mem_cons_self
  obtain hstep | ⟨low, more, -, hpair, hstep⟩ | hstep := u16Step_cases u rest
  · rw [hstep]
    exact hu.le.trans (by decide)
  · rw [hstep]
    unfold IsPair at hpair
    dsimp only
    omega
  · rw [hstep]
    decide

/-! ### The steps of a text -/

/-- Induction over the steps of a text (R273). -/
theorem u16Steps_induction {P : List Nat → Prop} (hnil : P [])
    (hcons : ∀ t, t ≠ [] → P (t.drop (u16Step t).consumed) → P t) (t : List Nat) : P t := by
  by_cases ht : t = []
  · exact ht ▸ hnil
  · have hconsumed := u16Step_consumed ht
    have hlen := List.length_pos_iff.mpr ht
    exact hcons t ht (u16Steps_induction hnil hcons _)
termination_by t.length
decreasing_by
  rw [List.length_drop]
  omega

/-- Step `k` is the decode step where the first `k` steps ended (R273). -/
theorem getElem_u16Steps {t : List Nat} {k : Nat} (h : k < (u16Steps t).length) :
    (u16Steps t)[k] = u16Step (t.drop (((u16Steps t).take k).map (·.consumed)).sum) := by
  induction t using u16Steps_induction generalizing k with
  | hnil => exact absurd h (Nat.not_lt_zero k)
  | hcons t ht ih =>
    simp only [u16Steps_cons ht] at h ⊢
    cases k with
    | zero => rfl
    | succ k =>
      rw [List.getElem_cons_succ, ih (Nat.lt_of_succ_lt_succ h), List.drop_drop, List.take_succ_cons, List.map_cons,
        List.sum_cons]

theorem sum_consumed_u16Steps (t : List Nat) : ((u16Steps t).map (·.consumed)).sum = t.length := by
  induction t using u16Steps_induction with
  | hnil => rfl
  | hcons t ht ih =>
    rw [u16Steps_cons ht, List.map_cons, List.sum_cons, ih, List.length_drop,
      Nat.add_sub_cancel' (u16Step_consumed_le ht)]

/-- Every step is the decode step of some nonempty rest of the text (R273). -/
theorem exists_suffix_of_mem_u16Steps {t : List Nat} {step : U16Step} (h : step ∈ u16Steps t) :
    ∃ rest, rest ≠ [] ∧ rest <:+ t ∧ step = u16Step rest := by
  induction t using u16Steps_induction with
  | hnil => cases h
  | hcons t ht ih =>
    rw [u16Steps_cons ht, List.mem_cons] at h
    obtain rfl | hmem := h
    · exact ⟨t, ht, List.suffix_refl t, rfl⟩
    · obtain ⟨rest, hrest, hsuffix, hstep⟩ := ih hmem
      exact ⟨rest, hrest, hsuffix.trans (List.drop_suffix _ t), hstep⟩

theorem consumed_of_mem_u16Steps {t : List Nat} {step : U16Step} (h : step ∈ u16Steps t) :
    step.consumed = 1 ∨ step.consumed = 2 := by
  obtain ⟨rest, hrest, -, rfl⟩ := exists_suffix_of_mem_u16Steps h
  exact u16Step_consumed hrest

theorem cp_le_of_mem_u16Steps {t : List Nat} (hunits : ∀ u ∈ t, u < 0x10000) {step : U16Step}
    (h : step ∈ u16Steps t) : step.cp ≤ 0x10FFFF := by
  obtain ⟨rest, hrest, hsuffix, rfl⟩ := exists_suffix_of_mem_u16Steps h
  exact u16Step_cp_le hrest fun u hu => hunits u (hsuffix.mem hu)

theorem length_u16Steps_le (t : List Nat) : (u16Steps t).length ≤ t.length := by
  have hle := List.length_le_sum_of_one_le ((u16Steps t).map (·.consumed)) (by
    intro consumed hmem
    obtain ⟨step, hstep, rfl⟩ := List.mem_map.mp hmem
    have := consumed_of_mem_u16Steps hstep
    omega)
  rwa [sum_consumed_u16Steps, List.length_map] at hle

/-! ### The units of a code point -/

/-- A scalar value that UTF-16 gives units of its own: not 0xFFFE and not 0xFFFF (R274). -/
def U16Encodable (cp : Nat) : Prop :=
  cp ≤ 0x10FFFF ∧ ¬(0xD800 ≤ cp ∧ cp ≤ 0xDFFF) ∧ cp ≠ 0xFFFE ∧ cp ≠ 0xFFFF

theorem u16Encode_of_plain {cp : Nat} (h : IsPlain cp) (hcp : cp < 0x10000) : u16Encode cp = [cp] := by
  obtain ⟨hnonchar, hsurrogate⟩ := isPlain_iff.mp h
  rw [u16Encode, if_pos ⟨hcp, hsurrogate, hnonchar⟩]

/-- The surrogate pair of a value, as arithmetic (R274). -/
theorem u16Encode_of_supplementary {cp : Nat} (hlo : 0x10000 ≤ cp) (hhi : cp ≤ 0x10FFFF) :
    u16Encode cp = [0xD800 + (cp - 0x10000) / 1024, 0xDC00 + (cp - 0x10000) % 1024] := by
  have hmask : (cp - 0x10000) &&& 0x3FF = (cp - 0x10000) % 1024 := Nat.and_two_pow_sub_one_eq_mod _ 10
  have hshift : (cp - 0x10000) >>> 10 = (cp - 0x10000) / 1024 := Nat.shiftRight_eq_div_pow _ 10
  rw [u16Encode, if_neg (by omega), if_pos ⟨hlo, hhi⟩, hmask, hshift, or_eq_add 10 (by decide) (by omega),
    or_eq_add 10 (by decide) (by omega)]

/-- A surrogate, a noncharacter and a value above 0x10FFFF are replaced (R274). -/
theorem u16Encode_of_not_encodable {cp : Nat} (h : ¬U16Encodable cp) : u16Encode cp = [0xFFFD] := by
  have hplain : ¬(cp < 0x10000 ∧ isSurrogate cp = false ∧ isNonchar cp = false) := by
    rintro ⟨hcp, hsurrogate, hnonchar⟩
    exact h ⟨by omega, isPlain_iff.mpr ⟨hnonchar, hsurrogate⟩⟩
  have hsupplementary : ¬(0x10000 ≤ cp ∧ cp ≤ 0x10FFFF) := by
    unfold U16Encodable at h
    omega
  rw [u16Encode, if_neg hplain, if_neg hsupplementary, replacement]

/-- An encodable value has one plain unit, or the pair it is the value of (R272, R274). -/
theorem U16Encodable.units {cp : Nat} (h : U16Encodable cp) :
    (IsPlain cp ∧ u16Encode cp = [cp]) ∨
    ∃ high low, IsPair high low ∧ u16Encode cp = [high, low] ∧
      (high - 0xD800) * 1024 + (low - 0xDC00) + 0x10000 = cp := by
  obtain ⟨hmax, hplain⟩ := h
  by_cases hcp : cp < 0x10000
  · exact .inl ⟨hplain, u16Encode_of_plain hplain hcp⟩
  · refine .inr ⟨_, _, ?_, u16Encode_of_supplementary (Nat.le_of_not_lt hcp) hmax, ?_⟩
    · unfold IsPair
      omega
    · omega

theorem U16Encodable.piece {cp : Nat} (h : U16Encodable cp) : U16Piece (u16Encode cp) := by
  obtain ⟨hplain, henc⟩ | ⟨high, low, hpair, henc, -⟩ := h.units
  · exact .inl ⟨cp, henc, hplain⟩
  · exact .inr ⟨high, low, henc, hpair⟩

/-- Every piece of 16-bit units is the units of an encodable value (R288). -/
theorem U16Piece.exists_encodable {piece : List Nat} (h : U16Piece piece) (hunits : ∀ u ∈ piece, u < 0x10000) :
    ∃ cp, U16Encodable cp ∧ u16Encode cp = piece := by
  obtain ⟨u, rfl, hplain⟩ | ⟨high, low, rfl, hpair⟩ := h
  · have hu : u < 0x10000 := hunits u List.mem_cons_self
    exact ⟨u, ⟨by omega, hplain⟩, u16Encode_of_plain hplain hu⟩
  · unfold IsPair at hpair
    refine ⟨(high - 0xD800) * 1024 + (low - 0xDC00) + 0x10000, ?_, ?_⟩
    · unfold U16Encodable
      omega
    · rw [u16Encode_of_supplementary (by omega) (by omega)]
      simp only [List.cons.injEq, and_true]
      omega

/-- A step that meets the units of an encodable value yields it and consumes exactly them (R288). -/
theorem u16Step_u16Encode {cp : Nat} (h : U16Encodable cp) (rest : List Nat) :
    u16Step (u16Encode cp ++ rest) = { cp := cp, consumed := (u16Encode cp).length } := by
  obtain ⟨⟨hplain, -⟩, henc⟩ | ⟨high, low, hpair, henc, hvalue⟩ := h.units
  · rw [henc]
    exact u16Step_of_not_surrogate hplain rest
  · rw [henc, ← hvalue]
    exact u16Step_of_pair hpair rest

theorem u16Encode_ne_nil (cp : Nat) : u16Encode cp ≠ [] := by
  rw [u16Encode]
  split_ifs <;> exact List.cons_ne_nil _ _

/-! ### Round trips -/

theorem u16Valid_flatMap_u16Encode {cps : List Nat} (h : ∀ cp ∈ cps, U16Encodable cp) :
    u16Valid (cps.flatMap u16Encode) = true := by
  rw [List.flatMap_def]
  refine u16Valid_flatten fun piece hmem => ?_
  obtain ⟨cp, hcp, rfl⟩ := List.mem_map.mp hmem
  exact (h cp hcp).piece

theorem cp_u16Steps_flatMap_u16Encode {cps : List Nat} (h : ∀ cp ∈ cps, U16Encodable cp) :
    (u16Steps (cps.flatMap u16Encode)).map (·.cp) = cps := by
  induction cps with
  | nil => rfl
  | cons cp cps ih =>
    obtain ⟨hcp, hcps⟩ := List.forall_mem_cons.mp h
    rw [List.flatMap_cons, u16Steps_cons (List.append_ne_nil_of_left_ne_nil (u16Encode_ne_nil cp) _),
      u16Step_u16Encode hcp, List.drop_left, List.map_cons, ih hcps]

/-- Pieces of 16-bit units are together the units of encodable values (R288). -/
theorem exists_encodable_of_pieces {pieces : List (List Nat)} (hpieces : ∀ piece ∈ pieces, U16Piece piece)
    (hunits : ∀ u ∈ pieces.flatten, u < 0x10000) :
    ∃ cps : List Nat, (∀ cp ∈ cps, U16Encodable cp) ∧ pieces.flatten = cps.flatMap u16Encode := by
  induction pieces with
  | nil => exact ⟨[], by simp, rfl⟩
  | cons piece pieces ih =>
    obtain ⟨hpiece, hrest⟩ := List.forall_mem_cons.mp hpieces
    obtain ⟨hfirst, hlater⟩ := List.forall_mem_append.mp hunits
    obtain ⟨cp, hcp, rfl⟩ := hpiece.exists_encodable hfirst
    obtain ⟨cps, hcps, htext⟩ := ih hrest hlater
    exact ⟨cp :: cps, List.forall_mem_cons.mpr ⟨hcp, hcps⟩, congrArg (u16Encode cp ++ ·) htext⟩

/-! ### What the UTF-16 commands do -/

section
variable {s : State} {i : Instr}

/-- Elements of two bytes are 16-bit units (R55). -/
theorem lt_of_mem_srcElems_two {u : Nat} (h : u ∈ s.srcElems 2) : u < 0x10000 := by
  obtain ⟨k, -, rfl⟩ := List.mem_map.mp h
  simpa using ofBytes_lt s.cfg.nativeOrder (s.mem.readBytes (s.snap.regs.srcAddr.toNat + k * 2) 2)

theorem exec_u16Enclen (hb : BuffersPass .u16Enclen s.snap) :
    exec .u16Enclen s = .next (s.finish .ok (u16Text (s.srcElems 4)).length 0) := by
  rw [length_u16Text]
  exact checked_append_of_pass hb.src_checks [] _

theorem exec_u16Valid (hb : BuffersPass .u16Valid s.snap) :
    exec .u16Valid s = .next (s.finish .ok (u16Valid (s.srcElems 2)).toNat 0) :=
  checked_append_of_pass hb.src_checks [] _

theorem exec_u16Declen (hb : BuffersPass .u16Declen s.snap) :
    exec .u16Declen s = .next (s.finish .ok (u16Steps (s.srcElems 2)).length 0) :=
  checked_append_of_pass hb.src_checks [] _

/-- U16_CPDEC on a source that passes: the check of the offset is left (R286). -/
theorem exec_u16Cpdec (hb : BuffersPass .u16Cpdec s.snap) :
    exec .u16Cpdec s = checked s.failReplacement [argumentCheck (decide (s.snap.n ≤ s.snap.regs.arg.toNat))]
      (.next (s.finish .ok (u16Step ((s.srcElems 2).drop s.snap.regs.arg.toNat)).cp
        (u16Step ((s.srcElems 2).drop s.snap.regs.arg.toNat)).consumed)) :=
  checked_append_of_pass hb.src_checks _ _

/-- U16_CPENC on a destination that passes: the check of room is left (R281). -/
theorem exec_u16Cpenc (hb : BuffersPass .u16Cpenc s.snap) :
    exec .u16Cpenc s = checked s.fail [capacityCheck s.snap.capacity (u16Encode s.snap.arg32).length]
      (.next ((s.putElems 2 (u16Encode s.snap.arg32)).finish .ok (u16Encode s.snap.arg32).length 0)) :=
  checked_append_of_pass hb.dst_checks _ _

/-- U16_ENCODE on buffers that pass: the check of room is left (R282). -/
theorem exec_u16Encode (hb : BuffersPass .u16Encode s.snap) :
    exec .u16Encode s = checked s.fail [capacityCheck s.snap.capacity (u16Text (s.srcElems 4)).length]
      (.next ((s.putElems 2 (u16Text (s.srcElems 4))).finish .ok 0 0)) := by
  rw [length_u16Text]
  exact checked_srcDst_of_buffersPass hb _ _ _

/-- U16_DECODE on buffers that pass: the check of room is left (R287). -/
theorem exec_u16Decode (hb : BuffersPass .u16Decode s.snap) :
    exec .u16Decode s =
      checked s.fail [capacityCheck s.snap.capacity ((u16Steps (s.srcElems 2)).map (·.cp)).length]
        (.next ((s.putElems 4 ((u16Steps (s.srcElems 2)).map (·.cp))).finish .ok 0 0)) := by
  rw [List.length_map]
  exact checked_srcDst_of_buffersPass hb _ _ _

/-- A command that stores elements, where only the check of room is left (R111, R281, R282, R287). -/
theorem storedElems_or_bufferTooSmall {vs : List Nat} {r : Nat} (hb : BuffersPass i s.snap) (hm : s.mem.wf = true)
    (hexec : exec i s = checked s.fail [capacityCheck s.snap.capacity vs.length]
      (.next ((s.putElems (dstSize i) vs).finish .ok r 0))) :
    (vs.length ≤ s.snap.capacity →
      ∃ t, exec i s = .next t ∧ Stored s t (elemBytes s.cfg.nativeOrder (dstSize i) vs) r) ∧
      (s.snap.capacity < vs.length → ∃ t, exec i s = .next t ∧ FailedCleanly s t .bufferTooSmall 0) := by
  refine ⟨fun hroom => ⟨_, hexec.trans (checked_of_pass ?_), finished_finish _ _ _ _, ⟨rfl, rfl⟩, ?_⟩,
    fun hsmall => ⟨_, hexec.trans (checked_of_fail ?_), failedCleanly_fail s _⟩⟩
  · simp [capacityCheck, hroom]
  · refine hb.wroteAt_putDst hm ?_
    rw [length_elemBytes, Nat.mul_comm]
    exact Nat.mul_le_mul_right _ hroom
  · simp [capacityCheck, hsmall]

/-- An element that was stored reads back (R55). -/
theorem WroteAt.ofBytes_elem {t : State} {a esz k : Nat} {order : ByteOrder} {vs : List Nat}
    (h : WroteAt s t a (elemBytes order esz vs)) (hk : k < vs.length) (hv : vs[k] < 256 ^ esz) :
    ofBytes order (t.mem.readBytes (a + esz * k) esz) = vs[k] := by
  have hfit : esz * k + esz ≤ (elemBytes order esz vs).length := by
    rw [length_elemBytes, ← Nat.mul_succ]
    exact Nat.mul_le_mul_left esz hk
  rw [h.readBytes_slice hfit, elemBytes_slice order esz hk, ofBytes_toBytes order hv]

end

/-! ### The statements -/

/-- Settles O56: a valid text is the units of encodable values, and the steps of such units yield the values. -/
theorem utf16RoundTrip : Obligations.Utf16RoundTrip := by
  refine ⟨fun t hunits hvalid => ?_, fun cps h => ⟨u16Valid_flatMap_u16Encode h, cp_u16Steps_flatMap_u16Encode h⟩⟩
  obtain ⟨pieces, rfl, hpieces⟩ := exists_pieces_of_u16Valid hvalid
  obtain ⟨cps, hcps, htext⟩ := exists_encodable_of_pieces hpieces hunits
  rw [htext]
  have hsteps := cp_u16Steps_flatMap_u16Encode hcps
  exact ⟨fun step hmem => hcps step.cp (hsteps ▸ List.mem_map_of_mem hmem), congrArg (List.flatMap u16Encode) hsteps⟩

/-- Settles O51: each encoder checks its room and stores its units, and the units of a value are sums. -/
theorem utf16EncodeCommands : Obligations.Utf16EncodeCommands := by
  refine ⟨fun s hm => ⟨fun hb => ⟨_, exec_u16Enclen hb, readsOnly_finish s _ 0⟩,
    fun hb => storedElems_or_bufferTooSmall hb hm (exec_u16Cpenc hb),
    fun hb => storedElems_or_bufferTooSmall hb hm (exec_u16Encode hb)⟩,
    fun cp => ⟨fun hlt hsurrogate => ?_, u16Encode_of_supplementary, fun hbad => ?_⟩⟩
  · exact u16Encode_of_plain ⟨hsurrogate, by omega, by omega⟩ (by omega)
  · refine u16Encode_of_not_encodable ?_
    unfold U16Encodable
    omega

/-- Settles O52: the three commands report the test, the steps and one step, whose three ways are told apart by the
units at the offset. -/
theorem utf16ReadCommands : Obligations.Utf16ReadCommands := by
  refine fun s => ⟨fun hb => ⟨_, exec_u16Valid hb, ?_⟩, fun hb => ⟨_, exec_u16Declen hb, readsOnly_finish s _ 0, ?_⟩,
    fun hb => ⟨fun u rest hdrop => ?_, fun harg => ⟨_, (exec_u16Cpdec hb).trans (checked_of_fail ?_),
      failedCleanly_finish s _ _⟩⟩⟩
  · rw [Bool.toNat, Bool.cond_eq_ite]
    exact readsOnly_finish s _ 0
  · exact (length_u16Steps_le _).trans_eq (State.length_srcElems s 2)
  · have harg : s.snap.regs.arg.toNat < s.snap.n := by
      rw [← State.length_srcElems s 2, ← Nat.not_le, ← List.drop_eq_nil_iff, hdrop]
      exact List.cons_ne_nil u rest
    have hexec := (exec_u16Cpdec hb).trans (checked_of_pass (by simp [argumentCheck, harg]))
    rw [hdrop] at hexec
    refine ⟨_, _, _, hexec, readsOnly_finish s _ _, fun hplain => ?_, fun low more hrest h1 h2 h3 h4 => ?_,
      fun hunpaired => ?_⟩
    · rw [u16Step_of_not_surrogate hplain]
      exact ⟨rfl, rfl⟩
    · rw [hrest, u16Step_of_pair ⟨h1, h2, h3, h4⟩]
      exact ⟨rfl, rfl⟩
    · rw [u16Step_of_unpaired]
      · exact ⟨rfl, rfl⟩
      · omega
      · rintro low more hrest ⟨-, hhigh, hlow⟩
        obtain hu | ⟨-, hno⟩ := hunpaired
        · omega
        · exact hno low more hrest hlow
  · simp [argumentCheck, harg]

/-- Settles O53: neither kind of piece of the walk holds a noncharacter, and to the step it is no surrogate. -/
theorem utf16ValidityIsPairing : Obligations.Utf16ValidityIsPairing := by
  refine ⟨fun t => u16Valid_iff_pieces, fun t rest u hu => ⟨fun hmem => ?_, u16Step_of_not_surrogate (by omega) rest⟩⟩
  rw [← Bool.not_eq_true, u16Valid_iff_pieces]
  rintro ⟨pieces, rfl, hpieces⟩
  obtain ⟨piece, hpiece, hmem⟩ := List.mem_flatten.mp hmem
  exact (hpieces piece hpiece).ne_nonchar hmem hu

/-- Settles O54: the steps' code points fit in four bytes, so the elements stored read back one by one. -/
theorem utf16DecodeStoresTheSteps : Obligations.Utf16DecodeStoresTheSteps := by
  intro s hm hb
  obtain ⟨hstored, hsmall⟩ := storedElems_or_bufferTooSmall hb hm (exec_u16Decode hb)
  rw [List.length_map] at hstored hsmall
  refine ⟨hsmall, fun hroom => ?_⟩
  obtain ⟨t, hexec, hfinished, hoperands, hwrote⟩ := hstored hroom
  refine ⟨t, hexec, hfinished, hoperands, fun k hk => ?_, ?_⟩
  · have hcp : (u16Steps (s.srcElems 2))[k].cp ≤ 0x10FFFF :=
      cp_le_of_mem_u16Steps (fun _ => lt_of_mem_srcElems_two) (List.getElem_mem hk)
    have helem := hwrote.ofBytes_elem (k := k) (by simpa using hk)
      (by rw [List.getElem_map]; exact hcp.trans_lt (by decide))
    rwa [List.getElem_map] at helem
  · have hkept := hwrote.2
    rwa [length_elemBytes, List.length_map] at hkept

/-- Settles O55: by induction over the steps. -/
theorem utf16StepsCoverTheText : Obligations.Utf16StepsCoverTheText :=
  fun t => ⟨fun _ h => ⟨getElem_u16Steps h, consumed_of_mem_u16Steps (List.getElem_mem h)⟩,
    sum_consumed_u16Steps t, rfl, length_u16Steps_le t⟩

end Sys2Proof.Machine

/-! PROOFS. The statements about hex_dump (47_hexdump.md): what stands in memory where a text was written, the columns
of a line, the lines of a dump, and what HEX_DUMP does. -/

namespace Sys2Proof.Machine

/-! ### Where the parts of a text stand in memory -/

/-- Memory holds the bytes `bs` from address `a` on: what `WroteAt` says of the bytes written. -/
def Memory.Holds (m : Memory) (a : Nat) (bs : List Byte) : Prop := m.readBytes a bs.length = bs

section
variable {m : Memory} {a : Nat}

theorem Memory.Holds.read {bs : List Byte} (h : m.Holds a bs) {k : Nat} (hk : k < bs.length) :
    m.read (a + k) = bs[k] := by
  rw [← Memory.getElem_readBytes m a bs.length k (by simpa using hk)]
  exact List.getElem_of_eq h _

@[simp] theorem Memory.holds_nil : m.Holds a [] := rfl

@[simp] theorem Memory.holds_cons {b : Byte} {bs : List Byte} :
    m.Holds a (b :: bs) ↔ m.read a = b ∧ m.Holds (a + 1) bs :=
  List.cons_eq_cons

/-- The parts of a text stand one after the other. -/
theorem Memory.holds_append {xs ys : List Byte} :
    m.Holds a (xs ++ ys) ↔ m.Holds a xs ∧ m.Holds (a + xs.length) ys := by
  induction xs generalizing a with
  | nil => simp
  | cons x xs ih => simp [ih, and_assoc, Nat.add_assoc, Nat.add_comm 1]

/-- Parts of equal width stand at the multiples of the width. -/
theorem Memory.Holds.flatMap_range {f : Nat → List Byte} {w : Nat} (hw : ∀ i, (f i).length = w) {n i : Nat}
    (h : m.Holds a ((List.range n).flatMap f)) (hi : i < n) : m.Holds (a + w * i) (f i) := by
  induction n with
  | zero => omega
  | succ n ih =>
    have hlen : ((List.range n).flatMap f).length = w * n := by simp [List.length_flatMap, hw, Nat.mul_comm]
    rw [List.range_succ, List.flatMap_append, List.flatMap_singleton, Memory.holds_append, hlen] at h
    obtain ⟨hinit, hlast⟩ := h
    obtain hi | rfl := Nat.lt_succ_iff_lt_or_eq.mp hi
    · exact ih hinit hi
    · exact hlast

end

/-! ### The columns of a line -/

/-- `hex8(A)` by digit (R303). -/
theorem dumpAddress_eq (a : Nat) :
    dumpAddress a = (List.range 8).map fun d => digit .lower (a / 16 ^ (7 - d) % 16) := by
  have hbytes : toBytes .big 4 a = [BitVec.ofNat 8 (a / 256 / 256 / 256), BitVec.ofNat 8 (a / 256 / 256),
    BitVec.ofNat 8 (a / 256), BitVec.ofNat 8 a] := rfl
  have hhigh (v : Nat) : v % 256 / 16 = v / 16 % 16 := Nat.mod_mul_right_div_self v 16 16
  have hlow (v : Nat) : v % 256 % 16 = v % 16 := Nat.mod_mod_of_dvd v (by decide)
  have hnil : hexText .lower [] = [] := rfl
  rw [dumpAddress, hbytes]
  simp [hexText_cons, hnil, hhigh, hlow, Nat.div_div_eq_div_mul, List.range_succ]

/-- The column of a byte: its digits and a space (R301). -/
theorem dumpColumn_of_lt {bs : List Byte} {j : Nat} (h : j < bs.length) :
    dumpColumn bs j = [digit .lower (bs[j].toNat / 16), digit .lower (bs[j].toNat % 16), 0x20#8] := by
  rw [dumpColumn, List.drop_eq_getElem_cons h]
  exact congrArg (· ++ ascii " ") (hexByte_eq .lower bs[j])

/-- The column of a missing byte is blank (R302). -/
theorem dumpColumn_of_ge {bs : List Byte} {j : Nat} (h : bs.length ≤ j) :
    dumpColumn bs j = [0x20#8, 0x20#8, 0x20#8] := by
  rw [dumpColumn, List.drop_of_length_le h]
  rfl

section
variable {m : Memory} {x A : Nat} {bs : List Byte}

/-- The three bytes of a column (R301, R302). -/
theorem Memory.Holds.column_bytes {j : Nat} (h : m.Holds x (dumpColumn bs j)) :
    m.read (x + 2) = 0x20#8 ∧
      (∀ hin : j < bs.length, m.read x = digit .lower (bs[j].toNat / 16) ∧
        m.read (x + 1) = digit .lower (bs[j].toNat % 16)) ∧
      (bs.length ≤ j → m.read x = 0x20#8 ∧ m.read (x + 1) = 0x20#8) := by
  obtain hin | hout := Nat.lt_or_ge j bs.length
  · simp only [dumpColumn_of_lt hin, Memory.holds_cons] at h
    obtain ⟨hhigh, hlow, hblank, -⟩ := h
    exact ⟨hblank, fun _ => ⟨hhigh, hlow⟩, fun hge => absurd hin (Nat.not_lt.mpr hge)⟩
  · simp only [dumpColumn_of_ge hout, Memory.holds_cons] at h
    obtain ⟨hfirst, hsecond, hthird, -⟩ := h
    exact ⟨hthird, fun hlt => absurd hlt (Nat.not_lt.mpr hout), fun _ => ⟨hfirst, hsecond⟩⟩

/-- Where each part of a line stands (R301). -/
theorem Memory.Holds.dumpLine_parts (h : m.Holds x (dumpLine A bs)) :
    m.Holds x (dumpAddress A) ∧ m.Holds (x + 8) (ascii "  ") ∧
      m.Holds (x + 10) ((List.range 8).flatMap (dumpColumn bs)) ∧ m.Holds (x + 34) (ascii " ") ∧
      m.Holds (x + 35) (((List.range 8).map (8 + ·)).flatMap (dumpColumn bs)) ∧ m.Holds (x + 59) (ascii " ") ∧
      m.Holds (x + 60) (ascii "|") ∧ m.Holds (x + 61) (dumpGutter bs) ∧ m.Holds (x + 61 + bs.length) (ascii "|") ∧
      m.Holds (x + 62 + bs.length) [0x0A#8] := by
  have haddress : (dumpAddress A).length = 8 := by simp [dumpAddress_eq]
  have hgutter : (dumpGutter bs).length = bs.length := List.length_map _
  have hspace : (ascii " ").length = 1 := rfl
  have hspaces : (ascii "  ").length = 2 := rfl
  have hbar : (ascii "|").length = 1 := rfl
  simp only [dumpLine, Memory.holds_append, List.length_append, length_flatMap_dumpColumn, List.length_map,
    List.length_range, haddress, hgutter, hspace, hspaces, hbar, and_assoc] at h
  rwa [show x + 62 + bs.length = x + (61 + bs.length + 1) by omega, Nat.add_assoc x 61]

/-- The two halves of the hex columns, with a space between them (R301). -/
theorem Memory.Holds.dumpLine_column (h : m.Holds x (dumpLine A bs)) {k : Nat} (hk : k < 16) :
    m.Holds (x + 10 + 3 * k + (if 8 ≤ k then 1 else 0)) (dumpColumn bs k) := by
  obtain ⟨-, -, hfirst, -, hsecond, -⟩ := h.dumpLine_parts
  by_cases h8 : 8 ≤ k
  · rw [List.flatMap_map] at hsecond
    have hcolumn := hsecond.flatMap_range (fun i => length_dumpColumn bs (8 + i)) (show k - 8 < 8 by omega)
    rw [Nat.add_sub_cancel' h8] at hcolumn
    rwa [if_pos h8, show x + 10 + 3 * k + 1 = x + 35 + 3 * (k - 8) by omega]
  · rw [if_neg h8]
    exact hfirst.flatMap_range (length_dumpColumn bs) (Nat.lt_of_not_le h8)

end

/-! ### The lines of a dump -/

/-- The bytes that line `j` shows (R303). -/
def lineBytes (bs : List Byte) (j : Nat) : List Byte := (bs.drop (16 * j)).take 16

theorem length_lineBytes (bs : List Byte) (j : Nat) : (lineBytes bs j).length = min 16 (bs.length - 16 * j) := by
  rw [lineBytes, List.length_take, List.length_drop]

theorem getElem_lineBytes {s : State} {j k : Nat} (h : k < (lineBytes s.srcBytes j).length) :
    (lineBytes s.srcBytes j)[k] = srcByte s (16 * j + k) := by
  simp only [lineBytes, List.getElem_take, List.getElem_drop, State.getElem_srcBytes]

/-- The first line of a dump, and the dump of the rest (R303). -/
theorem dumpText_of_pos (start : Nat) {bs : List Byte} (h : 0 < bs.length) :
    dumpText start bs = dumpLine start (bs.take 16) ++ dumpText (start + 16) (bs.drop 16) := by
  rw [dumpText, chunks_cons (by decide) (List.ne_nil_of_length_pos h), dumpLines, dumpText]

/-- All lines before line `j` are full, so it starts `79 * j` bytes in (R302, R303). -/
theorem Memory.Holds.dumpText_line {m : Memory} {a start j : Nat} {bs : List Byte}
    (h : m.Holds a (dumpText start bs)) (hj : 16 * j < bs.length) :
    m.Holds (a + 79 * j) (dumpLine (start + 16 * j) (lineBytes bs j)) := by
  induction j generalizing a start bs with
  | zero =>
    rw [dumpText_of_pos start hj, Memory.holds_append] at h
    obtain ⟨hfirst, -⟩ := h
    exact hfirst
  | succ j ih =>
    rw [dumpText_of_pos start (Nat.zero_lt_of_lt hj), Memory.holds_append, length_dumpLine,
      List.length_take_of_le (by omega)] at h
    obtain ⟨-, hrest⟩ := h
    have hline := ih hrest (by rw [List.length_drop]; omega)
    rw [lineBytes, List.drop_drop] at hline
    rwa [lineBytes, show a + 79 * (j + 1) = a + (63 + 16) + 79 * j by omega, Nat.mul_succ,
      Nat.add_comm (16 * j) 16, ← Nat.add_assoc start]

/-! ### What HEX_DUMP does -/

/-- HEX_DUMP's last step: the text written, OFFSET advanced with USE_OFF = 1, finished OK (R305, R306). -/
def State.dumped (s : State) (useOff : Bool) : State :=
  let written := s.putDst (dumpText (dumpStart useOff s.snap) s.srcBytes)
  (if useOff then written.setOffset (dumpStart useOff s.snap + s.snap.n) else written).finish .ok 0 0

/-- The checks after the buffers', of the address after the dump, of the dump's length and of the room (R306). -/
def dumpChecks (stop len capacity : Nat) : List (Bool × Status) :=
  [argumentCheck (decide (lenLimit - 1 < stop)), overflowCheck len, capacityCheck capacity len]

theorem firstFailure_dumpChecks (stop len capacity : Nat) : firstFailure (dumpChecks stop len capacity) =
    if 2 ^ 64 ≤ stop ∨ 2 ^ 64 ≤ len then some .invalidArgument
    else if capacity < len then some .bufferTooSmall else none := by
  have hlimit : lenLimit - 1 < stop ↔ 2 ^ 64 ≤ stop := Nat.succ_le_iff.symm
  simp only [dumpChecks, argumentCheck, overflowCheck, capacityCheck, firstFailure_cons, firstFailure_nil,
    decide_eq_true_eq, hlimit, ite_or]

section
variable {s t : State} {useOff : Bool}

theorem State.finished_dumped : Finished s (s.dumped useOff) .ok 0 0 := by
  cases useOff <;> exact finished_finish _ _ _ _

theorem State.wroteAt_dumped (hm : s.mem.wf = true) (hrange : (s.snap.dst 1).outOfRange = false)
    (hroom : dumpLength s.snap.n ≤ s.snap.capacity) :
    WroteAt s (s.dumped useOff) (dstAt s) (dumpText (dumpStart useOff s.snap) s.srcBytes) := by
  have hwrote : WroteAt s (s.putDst (dumpText (dumpStart useOff s.snap) s.srcBytes)) (dstAt s) _ :=
    putDst_wroteAt hm (Snapshot.dst_fits hrange (by rwa [length_dumpText, State.length_srcBytes]))
  cases useOff <;> exact hwrote

/-- HEX_DUMP on buffers that pass: the checks of the address and of the dump length are left (R306). -/
theorem exec_hexDump (hb : BuffersPass (.hexDump useOff) s.snap) :
    exec (.hexDump useOff) s =
      checked s.fail (dumpChecks (dumpStart useOff s.snap + s.snap.n) (dumpLength s.snap.n) s.snap.capacity)
        (.next (s.dumped useOff)) :=
  checked_srcDst_of_buffersPass hb _ _ _

/-- A HEX_DUMP that finished OK passed its checks and took its last step. -/
theorem exec_hexDump_ok (h : exec (.hexDump useOff) s = .next t) (hok : t.err = .ok) :
    t = s.dumped useOff ∧ (s.snap.dst 1).outOfRange = false ∧ dumpLength s.snap.n ≤ s.snap.capacity := by
  obtain ⟨st, hf, ht⟩ | ⟨hpass, ht⟩ := checked_cases h
  · obtain ⟨c, hc, -, rfl⟩ := firstFailure_eq_some hf
    have hne : c.2 ≠ .ok := by
      revert c
      simp
    rw [Host.Outcome.next.inj ht] at hok
    exact absurd hok hne
  · rw [firstFailure_eq_none] at hpass
    have hrange := hpass (rangeCheck (s.snap.dst 1)) (by simp)
    have hroom := hpass (capacityCheck s.snap.capacity (dumpLength s.snap.n)) (by simp)
    exact ⟨Host.Outcome.next.inj ht, hrange, Nat.le_of_not_lt (of_decide_eq_false hroom)⟩

end

/-! ### The statements -/

/-- Settles O34: the checks after the buffers' are of the address, the dump length and the room, in this order. -/
theorem hexDumpWritesItsTextAndOffset : Obligations.HexDumpWritesItsTextAndOffset := by
  intro s useOff start hm hb hstart
  obtain rfl : start = dumpStart useOff s.snap := hstart
  have hfirst := firstFailure_dumpChecks (dumpStart useOff s.snap + s.snap.n) (dumpLength s.snap.n) s.snap.capacity
  refine ⟨fun hstop hroom => ?_, fun hover => ?_, fun hstop hlen hsmall => ?_⟩
  · have hlen : dumpLength s.snap.n < 2 ^ 64 := hroom.trans_lt s.snap.regs.dstLen.isLt
    rw [if_neg (by omega), if_neg (by omega)] at hfirst
    refine ⟨_, (exec_hexDump hb).trans (checked_of_pass hfirst), State.finished_dumped, ?_, ?_,
      State.wroteAt_dumped hm (hb.dst_inRange rfl) hroom, by rw [length_dumpText, State.length_srcBytes]⟩
    · cases useOff <;> rfl
    · cases useOff <;> rfl
  · rw [if_pos hover] at hfirst
    exact ⟨_, (exec_hexDump hb).trans (checked_of_fail hfirst), failedCleanly_fail s _⟩
  · rw [if_neg (by omega), if_pos hsmall] at hfirst
    exact ⟨_, (exec_hexDump hb).trans (checked_of_fail hfirst), failedCleanly_fail s _⟩

/-- Settles O35: the text written holds line `j` at `79 * j`, and the line holds each of its parts at its place. -/
theorem hexDumpTextHasTheStatedLayout : Obligations.HexDumpTextHasTheStatedLayout := by
  refine ⟨fun v hv => (toNat_digit hv).1, ?_⟩
  rintro s t useOff _ j r hm hexec hok rfl hj rfl
  obtain ⟨rfl, hrange, hroom⟩ := exec_hexDump_ok hexec hok
  obtain ⟨htext, -⟩ := State.wroteAt_dumped (useOff := useOff) hm hrange hroom
  have hline := Memory.Holds.dumpText_line htext (j := j) (by rwa [State.length_srcBytes])
  have hlen := length_lineBytes s.srcBytes j
  rw [State.length_srcBytes] at hlen
  rw [← hlen]
  obtain ⟨haddress, hspaces, -, hmiddle, -, hspace, hbar, hgutter, hbar', hnewline⟩ := hline.dumpLine_parts
  refine ⟨_, rfl, fun d hd => ?_, ?_, fun k x hk hx => ?_, hbar.read (k := 0) (by decide), fun k hk => ?_,
    hbar'.read (k := 0) (by decide), hnewline.read (k := 0) (by decide)⟩
  · rw [dumpAddress_eq] at haddress
    rw [haddress.read (by simpa using hd), List.getElem_map, List.getElem_range]
    rfl
  · simp only [List.forall_mem_cons]
    exact ⟨hspaces.read (k := 0) (by decide), hspaces.read (k := 1) (by decide), hmiddle.read (k := 0) (by decide),
      hspace.read (k := 0) (by decide), nofun⟩
  · have hcolumn := hline.dumpLine_column hk
    rw [← hx] at hcolumn
    obtain ⟨hblank, hbyte, hmissing⟩ := hcolumn.column_bytes
    exact ⟨hblank, fun hin => getElem_lineBytes hin ▸ hbyte hin, hmissing⟩
  · rw [hgutter.read (by simpa [dumpGutter] using hk)]
    simp [dumpGutter, getElem_lineBytes]

end Sys2Proof.Machine

/-! PROOFS. The statements about reset (70_reset_and_hazards.md): what the platform's reset does to memory while a
command is pending, and the invariant in the reset state. -/

namespace Sys2Proof.Machine

/-! ### The bytes of an abandoned command -/

@[simp] theorem length_drawnBytes (first count : Nat) : (drawnBytes first count).length = count := by
  simp [drawnBytes]

section
variable {s : State} {p : Snapshot}

theorem State.abandonedRange_size_of_idle (h : s.pending = none) : s.abandonedRange.size = 0 := by
  rw [State.abandonedRange, h]

/-- A reserved opcode has no destination (R78; log 4). -/
theorem State.abandonedRange_size_of_reserved {op : BitVec 8} (hp : s.pending = some p)
    (hd : decode s.cfg.hasHexDump p.word = .reserved op) : s.abandonedRange.size = 0 := by
  simp only [State.abandonedRange, hp, hd]

/-- A command's destination range counts as far as it lies in memory (R352; log 4). -/
theorem State.abandonedRange_of_command {i : Instr} (hp : s.pending = some p)
    (hd : decode s.cfg.hasHexDump p.word = .command i) :
    s.abandonedRange =
      { addr := (dstRange i p).addr, size := min (dstRange i p).size (memSize - (dstRange i p).addr) } := by
  simp only [State.abandonedRange, hp, hd]

theorem State.platformReset_mem_of_size_zero (h : s.abandonedRange.size = 0) :
    s.platformReset.mem = s.mem := by
  rw [State.platformReset, h]
  rfl

end

/-- Reset writes only the range that the pending command leaves behind (R352). -/
theorem State.platformReset_keptOutside (s : State) :
    KeptOutside s s.platformReset s.abandonedRange.addr s.abandonedRange.size :=
  fun _ hb => Memory.read_writeBytes_outside _ (by rwa [length_drawnBytes])

theorem KeptOutside.mono {s t : State} {a size size' : Nat} (h : KeptOutside s t a size) (hle : size ≤ size') :
    KeptOutside s t a size' :=
  fun b hb => h b (by omega)

/-! ### The reset signal -/

/-- STATUS reads 0 with ERR = OK, no overrun and nothing pending (R27, R28). -/
theorem State.statusWord_eq_zero {s : State} (herr : s.err = .ok) (hovr : s.ovr = false) (hp : s.pending = none) :
    s.statusWord = 0#64 := by
  rw [State.statusWord, State.busy, herr, hovr, hp]
  decide

/-- The step of the reset signal is the platform's reset, taken off the host's list. -/
theorem step_reset {s : State} {rest : List HostStep} (h : s.host = .reset :: rest) :
    step s = .next { s.platformReset with host := rest } := by
  rw [step, stepOnce, h, State.tail_of_host h]
  rfl

/-- Settles O16: the registers take their reset values from `State.resetWith`, and the bytes written are those of
the abandoned range, which is empty without a command and lies in the destination range of a command. -/
theorem resetDuringACommandAbandonsIt : Obligations.ResetDuringACommandAbandonsIt := by
  intro s rest h
  refine ⟨_, step_reset h, rfl, rfl, rfl, rfl, State.statusWord_eq_zero rfl rfl rfl, rfl, rfl, rfl, ?idle,
    ?reserved, ?command⟩
  case idle => exact fun hp => State.platformReset_mem_of_size_zero (State.abandonedRange_size_of_idle hp)
  case reserved =>
    rintro p hp ⟨op, hd⟩
    exact State.platformReset_mem_of_size_zero (State.abandonedRange_size_of_reserved hp hd)
  case command =>
    intro p i hp hd
    have hkept := s.platformReset_keptOutside
    rw [State.abandonedRange_of_command hp hd] at hkept
    exact hkept.mono (Nat.min_le_left _ _)

/-- Settles O23: memory lists nothing, CMD is 0, nothing is pending and ERR is OK. -/
theorem resetMeetsTheInvariant : Obligations.ResetMeetsTheInvariant :=
  State.inv_iff.mpr
    ⟨State.reset_mem_wf, decide_eq_true BitVec.zero_and, pendingAgrees_of_none rfl, decide_eq_true nofun⟩

end Sys2Proof.Machine
